-- ==== Sys2Proof/Word.lean ====
section
/-! DEFINITION. The word types of the machine (00_scope.md R9, R10). -/

namespace Sys2Proof

/-- A `u32`: an unsigned 32-bit integer, arithmetic modulo 2^32 (R9, R10). -/
abbrev Word := BitVec 32

/-- One sketch cell, an unsigned byte (R30). -/
abbrev Byte := BitVec 8

end Sys2Proof
end

