-- ==== Sys2Proof/Syntax.lean ====
section
/-! DEFINITION. The commands of the uniq-counter HLL core (30_encoding.md R93). -/

namespace Sys2Proof

/-- The five commands, one per row of the opcode table (R93). A command word holds no operand: the operand is ARG's
value when the core accepts the command (R91, R92), so no constructor has a field. -/
inductive Instr where
  /-- OP 0x0: no effect (R180). -/
  | nop
  /-- OP 0x1: ingest ARG into the sketch (R135). -/
  | add
  /-- OP 0x2: estimate the number of distinct values (R164). -/
  | est
  /-- OP 0x3: hash ARG (R116). -/
  | hash
  /-- OP 0x4: read sketch register ARG (R181). -/
  | rdreg
  deriving DecidableEq, Repr

end Sys2Proof
end

