-- ==== Sys2Proof/Config.lean ====
section
/-! DEFINITION. What an implementation fixes: the build-time parameters of 00_scope.md R7 and R8, and the one free value (P_BASE). -/

namespace Sys2Proof.Config

/-- `W` (REGISTER_BIT_WIDTH), the index bits taken from the hash: R7, R8. -/
abbrev W : Nat := 13

/-- `m` (REGISTER_SIZE), the number of sketch registers: R7, R30. -/
abbrev m : Nat := 2 ^ W

/-- `FW`, the fragment bits, the hash bits below the index: R7. -/
abbrev FW : Nat := 32 - W

/-- `RMAX`, the largest rank and the largest register value: R7, R32, 90_conflicts.md C1. -/
abbrev RMAX : Nat := 33 - W

/-- FREE VALUE. The platform's choice of `P_BASE`, counted in windows of 32 bytes; nothing constrains it (R69,
92_eei_decisions.md D6, assumption 12). -/
opaque pBaseWindows : Nat

/-- `P_BASE`, the base address of the host window on the host's bus, a multiple of 32: R69. -/
def pBase : Nat := 32 * pBaseWindows

end Sys2Proof.Config
end

