-- ==== Sys2Proof/WellFormed.lean ====
section
/-! DEFINITION. The checks on what the host may write: a command with its operand (30_encoding.md R92) and a host
access (20_memory.md R61, R65). The commands themselves have no field, so every command is well formed. -/

namespace Sys2Proof

/-- R92's column "legal values": which operand a command may be issued with. Only RDREG restricts it. -/
def Instr.operandLegal : Instr → Word → Bool
  | .nop, _ => true
  | .add, _ => true
  | .est, _ => true
  | .hash, _ => true
  | .rdreg, x => x.toNat < Config.m

/-- R61 and R65: a supported host access is 32 bits wide, at a multiple of 4, inside the 32-byte window. -/
def accessWellFormed (off size : Nat) : Bool := size = 4 && off % 4 = 0 && off < 32

end Sys2Proof
end

