-- ==== Sys2Proof/Decode.lean ====
section
/-! DEFINITION. Decoding a CMD word (30_encoding.md R90, R94), and the encoder written from the opcode map (R93). -/

namespace Sys2Proof

/-- Why a word is not a command (R94). -/
inductive Illegal where
  /-- `w[31:4] ≠ 0`. -/
  | rsv
  /-- `w[3:0]` is one of 0x5 to 0xF. -/
  | op
  deriving DecidableEq, Repr

/-- What a CMD word decodes to (R94). -/
inductive Decoded where
  | command (i : Instr)
  | illegal (why : Illegal)
  deriving DecidableEq, Repr

/-- The field OP, bits 3:0 of the CMD word (R90). -/
def opField (w : Word) : BitVec 4 := w.extractLsb' 0 4

/-- The field RSV, bits 31:4 of the CMD word (R90). -/
def rsvField (w : Word) : BitVec 28 := w.extractLsb' 4 28

/-- The opcode map (R93): `none` for the reserved opcodes 0x5 to 0xF. -/
def opcode (op : BitVec 4) : Option Instr :=
  if op = 0x0#4 then some .nop
  else if op = 0x1#4 then some .add
  else if op = 0x2#4 then some .est
  else if op = 0x3#4 then some .hash
  else if op = 0x4#4 then some .rdreg
  else none

/-- R94: total on every 32-bit word; RSV is checked before OP. -/
def decode (w : Word) : Decoded :=
  if rsvField w ≠ 0#28 then .illegal .rsv
  else
    match opcode (opField w) with
    | some i => .command i
    | none => .illegal .op

/-- The CMD word of a command (R93). -/
def encode : Instr → Word
  | .nop => 0x00000000#32
  | .add => 0x00000001#32
  | .est => 0x00000002#32
  | .hash => 0x00000003#32
  | .rdreg => 0x00000004#32

/-- Byte lane `j` of a host register: bits `8j+7 : 8j` (R64, little-endian). -/
def byteLane (v : Word) (j : Nat) : Byte := v.extractLsb' (8 * j) 8

/-- The 32-bit word of four byte lanes, lane 0 first (R64). -/
def wordOfLanes (b0 b1 b2 b3 : Byte) : Word := b3 ++ b2 ++ b1 ++ b0

/-- The CMD word of `nbits` table bits `w`; the bits above them are 0. -/
def tableWord (nbits w : Nat) : Word := BitVec.ofNat 32 (w % 2 ^ nbits)

/-- The instruction the decoder reads from a row's bits: its four byte lanes, as the host's bus carries them, decoded. -/
def decodeTableWord (nbits w : Nat) : Option Instr :=
  let v := tableWord nbits w
  match decode (wordOfLanes (byteLane v 0) (byteLane v 1) (byteLane v 2) (byteLane v 3)) with
  | .command i => some i
  | .illegal _ => none

end Sys2Proof
end

