-- ==== Sys2Proof/Machine/Float64.lean ====
section
/-! DEFINITION. IEEE 754 binary64 as 00_scope.md R11 uses it: finite values, `fl64`, the operators `⊕ ⊖ ⊗ ⊘`,
comparison, truncation, the value's 64-bit word, and the correctly rounded logarithm `lnCR64`. -/

namespace Sys2Proof.Machine

/-- A finite binary64 value: `(-1)^neg · man · 2^exp`. A normal value has `2^52 ≤ man < 2^53`; zero has `man = 0`
(R11). Infinities and NaN are not represented: no operation of R161 produces one (assumption 13). -/
structure F64 where
  neg : Bool
  man : Nat
  exp : Int
  deriving DecidableEq, Repr

/-- The exponent `e` with `2^e ≤ n/d < 2^(e+1)`, for positive `n` and `d`. -/
def ratioExponent (n d : Nat) : Int :=
  if d * 2 ^ (n.log2 - d.log2) ≤ n * 2 ^ (d.log2 - n.log2) then (n.log2 : Int) - d.log2
  else (n.log2 : Int) - d.log2 - 1

/-- The integer nearest to `n/d`, ties to even. -/
def roundEven (n d : Nat) : Nat :=
  if 2 * (n % d) < d then n / d
  else if d < 2 * (n % d) then n / d + 1
  else if n / d % 2 = 0 then n / d else n / d + 1

/-- The exponent of the last place of the binary64 value nearest to `n/d`: 53 significant bits, never below the
subnormals' last place. -/
def lastPlace (n d : Nat) : Int := max (ratioExponent n d - 52) (-1074)

/-- `fl64(±n/d)`: the binary64 value nearest to the rational `±n/d`, ties to even (R11). A zero result is `+0`. -/
def fl64 (neg : Bool) (n d : Nat) : F64 :=
  if n = 0 then ⟨false, 0, 0⟩
  else
    let k := lastPlace n d
    let q := roundEven (n * 2 ^ (-k).toNat) (d * 2 ^ k.toNat)
    if q = 2 ^ 53 then ⟨neg, 2 ^ 52, k + 1⟩ else ⟨neg, q, k⟩

/-- The numerator of a value's magnitude, over `F64.den`. -/
def F64.num (x : F64) : Nat := x.man * 2 ^ x.exp.toNat

/-- The denominator of a value's magnitude, a power of two. -/
def F64.den (x : F64) : Nat := 2 ^ (-x.exp).toNat

/-- The numerator with its sign. -/
def F64.signedNum (x : F64) : Int := if x.neg then -(x.num : Int) else x.num

/-- The binary64 value of a natural number (exact up to 2^53). -/
def F64.ofNat (n : Nat) : F64 := fl64 false n 1

/-- `-x`, exact. -/
def F64.negate (x : F64) : F64 := ⟨!x.neg, x.man, x.exp⟩

/-- `x ⊗ y`: the exact product, then `fl64` (R11). -/
def F64.mul (x y : F64) : F64 := fl64 (x.neg ^^ y.neg) (x.num * y.num) (x.den * y.den)

/-- `x ⊘ y`: the exact quotient, then `fl64` (R11); no use of it in R161 divides by zero (assumption 13). -/
def F64.div (x y : F64) : F64 := fl64 (x.neg ^^ y.neg) (x.num * y.den) (x.den * y.num)

/-- The signed numerator of `x + y` over `x.den * y.den`. -/
def F64.sumNum (x y : F64) : Int := x.signedNum * y.den + y.signedNum * x.den

/-- `x ⊕ y`: the exact sum, then `fl64` (R11). -/
def F64.add (x y : F64) : F64 := fl64 (x.sumNum y < 0) (x.sumNum y).natAbs (x.den * y.den)

/-- `x ⊖ y` (R11). -/
def F64.sub (x y : F64) : F64 := x.add y.negate

/-- `x ≤ y`, compared exactly. -/
def F64.le (x y : F64) : Bool := x.signedNum * y.den ≤ y.signedNum * x.den

/-- `trunc(x)` for `x ≥ 0`: the integer part (R11, R159). -/
def F64.trunc (x : F64) : Nat := x.num / x.den

/-- A normal or zero value's 64-bit word, sign in bit 63 (R11). -/
def F64.toBits (x : F64) : BitVec 64 :=
  if x.man = 0 then 0#64
  else BitVec.ofBool x.neg ++ BitVec.ofNat 11 (x.exp + 1075).toNat ++ BitVec.ofNat 52 x.man

/-- Fraction bits of the fixed-point logarithm. -/
def lnBits : Nat := 192

/-- `n` terms of `z + z³/3 + z⁵/5 + …` in fixed point: `p` is the current odd power of `z`, `z2` is `z²`, `k` the
current odd divisor. -/
def atanhTerms : Nat → (p z2 k acc : Nat) → Nat
  | 0, _, _, _, acc => acc
  | n + 1, p, z2, k, acc => atanhTerms n (p * z2 / 2 ^ lnBits) z2 (k + 2) (acc + p / k)

/-- `2^192 · 2 · atanh(a/b) = 2^192 · ln((b+a)/(b-a))` for `0 ≤ a/b ≤ 1/3`, a little below the exact value. -/
def twoAtanh (a b : Nat) : Nat :=
  let z := a * 2 ^ lnBits / b
  2 * atanhTerms 64 z (z * z / 2 ^ lnBits) 1 0

/-- `2^192 · ln(x)` for positive `x`, to within 2^-160: the binary exponent times `ln 2` plus the logarithm of the
significand in [1, 2). -/
def lnFixed (x : F64) : Int :=
  let e := x.man.log2
  (x.exp + e) * (twoAtanh 1 3 : Int) + (twoAtanh (x.man - 2 ^ e) (x.man + 2 ^ e) : Int)

/-- `lnCR64(x)`, the binary64 value nearest to `ln(x)` (R11), computed by rounding a fixed-point value that is within
2^-160 of it (assumption 14). -/
def lnCR64 (x : F64) : F64 := fl64 (lnFixed x < 0) (lnFixed x).natAbs (2 ^ lnBits)

end Sys2Proof.Machine
end

