-- ==== Sys2Proof/Machine/State.lean ====
section
/-! DEFINITION. The state of the machine (10_state.md R30 to R54), the events of its one host, the reasons a step can
stop, and the state right after reset. -/

namespace Sys2Proof.Machine

/-- The sketch space SK (R62): register index and value, in one canonical form (`Memory.wf`, assumption 1). An index
that is not listed reads as 0, the reset value of every register (R53). -/
abbrev Memory := List Host.Cell

/-- The command stage (R47, R51, R54). `STATUS.BUSY` is 1 in every phase but `idle` (R42). -/
inductive Phase where
  /-- The reset input is asserted (R220, R221). -/
  | inReset
  /-- Reset has been released and the core is clearing REG (R51). -/
  | clearing
  /-- No command in flight: the next CMD write is accepted. -/
  | idle
  /-- One accepted command that has not completed, with ARG's value at its acceptance (R47). -/
  | running (command : Instr) (operand : Word)
  deriving DecidableEq, Repr

/-- An accepted ADD whose register write has not yet happened (R50). -/
structure PendingAdd where
  index : BitVec 13
  rank : Byte
  deriving DecidableEq, Repr

/-- The estimator's temporaries while EST is in flight (R49, R52, R168): the registers below `pos` have been scanned,
`sum` is their part of S (34 bits) and `zeros` their part of Z (14 bits). -/
structure Scan where
  pos : Nat
  sum : BitVec 34
  zeros : BitVec 14
  deriving DecidableEq, Repr

/-- One event of the host (R77), in the host-program primitives of R98, or of the reset input (R220). -/
inductive HostOp where
  /-- `MemRead(off, size)`. -/
  | read (off size : Nat)
  /-- `MemWrite(off, size, value)`. -/
  | write (off size : Nat) (value : Word)
  /-- `rd STATUS` repeated until BUSY = 0 (R98). -/
  | poll
  /-- The host makes no access in this step. -/
  | idle
  /-- The reset input becomes asserted. -/
  | assertReset
  /-- The reset input is released. -/
  | releaseReset
  deriving DecidableEq, Repr

/-- What the hardware is free to choose at the end of one step (R7 `P_LAT` and `P_INIT`, R54, R237, R50, R168). -/
structure Draw where
  /-- BUSY, if it is 1, is still 1 at the next host access. -/
  stillBusy : Bool
  /-- At most this many ADDs stay pending; the oldest others write their registers now. -/
  keep : Nat
  /-- An EST still in flight scans this many further registers. -/
  scanned : Nat
  deriving DecidableEq, Repr

/-- The whole machine. `cells` to `scan` are the hardware's (R54, R50, R52); `script`, `reads` and `draws` are the
model's own: the host's accesses still to come, what its reads returned, and the hardware's free choices still to
come (assumptions 2, 3, 10). -/
structure State where
  /-- The register array as it stands in the cells, before the pending ADDs write (R30, R62). -/
  cells : Memory
  /-- Accepted ADDs that have not written their register yet, oldest first (R50). -/
  pending : List PendingAdd
  /-- ARG (R37). -/
  arg : Word
  /-- `{RESULT_HI, RESULT_LO}` (R40). -/
  result : BitVec 64
  /-- STATUS bit 1 (R43). -/
  rvalid : Bool
  /-- STATUS bit 2 (R44). -/
  edom : Bool
  /-- STATUS bit 3 (R45). -/
  errIll : Bool
  /-- STATUS bit 4 (R46). -/
  errBusy : Bool
  /-- The command stage; STATUS bit 0 is read from it (R42, R47, R51). -/
  phase : Phase
  /-- The estimator's temporaries, while EST is in flight (R52). -/
  scan : Option Scan
  /-- The host's events still to come, next first. -/
  script : List HostOp
  /-- What the host's reads have returned, in order. -/
  reads : List Word
  /-- The hardware's free choices still to come, one per step. -/
  draws : List Draw
  deriving DecidableEq, Repr

/-- Why the machine stops with a fault. -/
inductive Fault where
  /-- Raised by the completion of a RDREG in flight whose index is not a register (SK has 8192 cells, R62). RDREG's
  acceptance checks the index (R181), so no run reaches it. Safe. -/
  | noSuchCell
  deriving DecidableEq, Repr

/-- Why the model gives a situation no meaning. -/
inductive Refusal where
  /-- No meaning written for the instruction. -/
  | notModelled (mnemonic : String)
  /-- Raised by a host access that is not 32 bits wide at a multiple of 4: implementation-defined, and a model refuses
  it (R65, 93_implementation_defined.md I4). Safe. -/
  | unsupportedAccess
  /-- Raised by a host access outside the 32-byte window, which this hardware does not answer (R61, R69). Safe. -/
  | outsideWindow
  /-- Raised by a host access while the reset input is asserted: implementation-defined, and a model refuses it (R221,
  93_implementation_defined.md I5). Safe. -/
  | accessDuringReset
  /-- Raised by ADD, EST and RDREG on a register that holds 21 to 255: no run reaches it, the spec says nothing of it
  and a model refuses it (R32, 93_implementation_defined.md I2). Safe. -/
  | registerOutOfDomain
  deriving DecidableEq, Repr

/-- The outcomes of this machine. -/
abbrev Result := Host.Outcome State Fault Refusal

/-- Right after reset is released (R53, R220 to R222): the core is about to clear REG, so BUSY = 1; everything else is 0
or empty. -/
def State.reset : State :=
  { cells := []
    pending := []
    arg := 0#32
    result := 0#64
    rvalid := false
    edom := false
    errIll := false
    errBusy := false
    phase := .clearing
    scan := none
    script := []
    reads := []
    draws := [] }

end Sys2Proof.Machine
end

