-- ==== Sys2Proof/Machine/Ops.lean ====
section
/-! DEFINITION. The named operations over the sketch registers, the Update Pipeline's pending writes, the error bits and
the command stage. The hardware has no trap (60_exceptions.md R197): its one way to report an error is `raise`. -/

namespace Sys2Proof.Machine

/-- `REG[a]` as the cells hold it: 0 where nothing is listed (R53). -/
def Memory.read : Memory → Nat → Byte
  | [], _ => 0#8
  | (k, v) :: rest, a => if a = k then v else Memory.read rest a

/-- `REG[a] <- v`, keeping the canonical form: a cell is listed only while it is not 0. -/
def Memory.write : Memory → Nat → Byte → Memory
  | [], a, v => if v = 0#8 then [] else [(a, v)]
  | (k, w) :: rest, a, v =>
    if a < k then (if v = 0#8 then (k, w) :: rest else (a, v) :: (k, w) :: rest)
    else if a = k then (if v = 0#8 then rest else (a, v) :: rest)
    else (k, w) :: Memory.write rest a v

/-- The canonical form above a bound: indices strictly rising, all registers of SK (R62), no listed cell 0. -/
def Memory.wfFrom : Nat → Memory → Bool
  | _, [] => true
  | lo, (k, v) :: rest => lo ≤ k && k < Config.m && v ≠ 0#8 && Memory.wfFrom (k + 1) rest

/-- The canonical form of SK: equal register arrays are equal lists (assumption 1). -/
def Memory.wf (mem : Memory) : Bool := Memory.wfFrom 0 mem

/-- A register value the rules speak of: 0 to RMAX (R32). -/
def inDomain (v : Byte) : Bool := v.toNat ≤ Config.RMAX

/-- Every register holds 0 to RMAX (R32). -/
def Memory.inDomain (mem : Memory) : Bool := mem.all fun c => Machine.inDomain c.2

/-- Step U4 (R135, R138): write the rank if it is strictly greater than the register, unsigned. -/
def Memory.raiseTo (mem : Memory) (p : PendingAdd) : Memory :=
  if mem.read p.index.toNat < p.rank then mem.write p.index.toNat p.rank else mem

/-- The writes of several pending ADDs, oldest first. -/
def Memory.raiseAll (mem : Memory) (ps : List PendingAdd) : Memory := ps.foldl Memory.raiseTo mem

/-- REG as every later command sees it: each pending write counts as having happened (R50, R70, R232). -/
def State.sketch (s : State) : Memory := s.cells.raiseAll s.pending

/-- `REG[a]` of R12, for every later command. -/
def State.reg (s : State) (a : Nat) : Byte := s.sketch.read a

/-- The Update Pipeline writes its oldest pending ADDs until at most `keep` are left (R50, R231; assumption 4). -/
def State.retire (keep : Nat) (s : State) : State :=
  { s with
    cells := s.cells.raiseAll (s.pending.take (s.pending.length - keep))
    pending := s.pending.drop (s.pending.length - keep) }

/-- STATUS.BUSY: 1 in every phase but `idle` (R42, R51). -/
def State.busy (s : State) : Bool := s.phase ≠ .idle

/-- The next value of a sticky W1C bit: a set wins over a clear in the same step (R39, R196). -/
def stickyNext (old clear set : Bool) : Bool := (old && !clear) || set

/-- `raise ERR_ILL`: nothing but the sticky bit changes (R12, R191, R197). -/
def State.raiseErrIll (s : State) : State := { s with errIll := stickyNext s.errIll false true }

/-- `raise ERR_BUSY`: nothing but the sticky bit changes (R12, R192, R197). -/
def State.raiseErrBusy (s : State) : State := { s with errBusy := stickyNext s.errBusy false true }

/-- `accept (c, ARG)`: the command stage holds the command and ARG's value (R47, R190). -/
def State.accept (c : Instr) (s : State) : State := { s with phase := .running c s.arg }

/-- The hardware's choices for this step; when none are listed, everything settles (assumption 3). -/
def State.draw (s : State) : Draw := s.draws.headD ⟨false, 0, 0⟩

/-- The reset input becomes asserted: every piece of the hardware's state takes its reset value, and a command in
flight is abandoned (R53, R220, R223). The host's events, its reads and the free choices are not the hardware's. -/
def State.hardReset (s : State) : State :=
  { State.reset with phase := .inReset, script := s.script, reads := s.reads, draws := s.draws }

/-- The reset input is released: the core begins to clear REG (R51, R221). -/
def State.release (s : State) : State := if s.phase = .inReset then { s with phase := .clearing } else s

end Sys2Proof.Machine
end

