-- ==== Sys2Proof/Machine/Estimator.lean ====
section
/-! DEFINITION. The Estimator: the scan of the registers (42_estimate.md R151, R152, R168) and the reference computation
`est64` in binary64 (R153 to R161). -/

namespace Sys2Proof.Machine

/-- A register's term of the harmonic sum, scaled by 2^RMAX (R151). -/
def harmonicTerm (v : Byte) : Nat := 2 ^ (Config.RMAX - v.toNat)

/-- The listed cells with `lo ≤ index < hi`. -/
def listedIn (lo hi : Nat) (mem : Memory) : Memory := mem.filter fun c => lo ≤ c.1 && c.1 < hi

/-- The part of Z from the registers `lo` to `hi - 1`: those not listed hold 0 (R152). -/
def zerosIn (lo hi : Nat) (mem : Memory) : Nat := (hi - lo) - (listedIn lo hi mem).length

/-- The part of S from the registers `lo` to `hi - 1`: each register that holds 0 adds 2^RMAX (R151). -/
def sumIn (lo hi : Nat) (mem : Memory) : Nat :=
  ((listedIn lo hi mem).map fun c => harmonicTerm c.2).sum + zerosIn lo hi mem * harmonicTerm 0#8

/-- `S`, the harmonic sum as an integer (R151). -/
def harmonicSum (mem : Memory) : Nat := sumIn 0 Config.m mem

/-- `Z`, the number of registers that are 0 (R152). -/
def zeroCount (mem : Memory) : Nat := zerosIn 0 Config.m mem

/-- The scan at EST's acceptance: nothing scanned yet. -/
def Scan.start : Scan := ⟨0, 0#34, 0#14⟩

/-- Scan up to `n` further registers of REG (R168). -/
def Scan.advance (n : Nat) (mem : Memory) (c : Scan) : Scan :=
  let hi := min Config.m (c.pos + n)
  ⟨hi, c.sum + BitVec.ofNat 34 (sumIn c.pos hi mem), c.zeros + BitVec.ofNat 14 (zerosIn c.pos hi mem)⟩

/-- Scan all the registers that are left. -/
def Scan.complete (mem : Memory) (c : Scan) : Scan := c.advance Config.m mem

/-- `alpha = fl64(0.7213) ⊘ (1.0 ⊕ (fl64(1.079) ⊘ m))` (R153, R161). -/
def alpha64 : F64 :=
  (fl64 false 7213 10000).div ((F64.ofNat 1).add ((fl64 false 1079 1000).div (F64.ofNat Config.m)))

/-- `sum = S · 2^(−RMAX)`, exact (R161). -/
def sum64 (S : Nat) : F64 := fl64 false S (2 ^ Config.RMAX)

/-- `raw = ((alpha ⊗ m) ⊗ m) ⊘ sum` (R154, R161). -/
def raw64 (S : Nat) : F64 := ((alpha64.mul (F64.ofNat Config.m)).mul (F64.ofNat Config.m)).div (sum64 S)

/-- `2.5 ⊗ m`, the small-range threshold (R156). -/
def smallLimit : F64 := (fl64 false 5 2).mul (F64.ofNat Config.m)

/-- `fl64(1/30) ⊗ 2^32`, the large-range threshold T64 (R157). -/
def largeLimit : F64 := (fl64 false 1 30).mul (F64.ofNat (2 ^ 32))

/-- Linear counting, `m ⊗ lnCR64(m ⊘ Z)` (R161). -/
def linearCounting (Z : Nat) : F64 := (F64.ofNat Config.m).mul (lnCR64 ((F64.ofNat Config.m).div (F64.ofNat Z)))

/-- `t = 1.0 ⊖ (raw ⊘ 2^32)`, the argument of the large-range logarithm (R161). -/
def largeArgument (raw : F64) : F64 := (F64.ofNat 1).sub (raw.div (F64.ofNat (2 ^ 32)))

/-- `(−2^32) ⊗ lnCR64(t)` (R161). -/
def largeCorrection (t : F64) : F64 := (F64.ofNat (2 ^ 32)).negate.mul (lnCR64 t)

/-- An estimate without a domain error: `trunc(E)` as an unsigned 64-bit integer, EDOM 0 (R159). -/
def estimated (E : F64) : BitVec 64 × Bool := (BitVec.ofNat 64 E.trunc, false)

/-- `est64` (R161), from S and Z: the result and the domain error (R160). The tests are a chain (R155). -/
def est64 (S Z : Nat) : BitVec 64 × Bool :=
  let raw := raw64 S
  if raw.le smallLimit then
    if 0 < Z then estimated (linearCounting Z) else estimated raw
  else if !raw.le largeLimit then
    let t := largeArgument raw
    if t.le (F64.ofNat 0) then (BitVec.allOnes 64, true) else estimated (largeCorrection t)
  else estimated raw

/-- `Estimate(REG)`: a function of REG alone (R150). -/
def estimate (mem : Memory) : BitVec 64 × Bool := est64 (harmonicSum mem) (zeroCount mem)

end Sys2Proof.Machine
end

