-- ==== Sys2Proof/Machine/Operands.lean ====
section
/-! DEFINITION. The operands of the commands (30_encoding.md R91, R92): each is ARG, as an unsigned number, with no
extension, scaling or shift. -/

namespace Sys2Proof.Machine

/-- The operand of ADD and HASH: ARG's bit pattern (R92). -/
def valueOperand (arg : Word) : Word := arg

/-- The operand of RDREG: ARG as an unsigned number, not taken modulo m (R92, R181). -/
def indexOperand (arg : Word) : Nat := arg.toNat

/-- R92, R181: a RDREG index is legal when it is below m. -/
def indexLegal (arg : Word) : Bool := indexOperand arg < Config.m

end Sys2Proof.Machine
end

