-- ==== Sys2Proof/Machine/HashMixer.lean ====
section
/-! DEFINITION. The Hash Mixer (40_hash_mixer.md R110 to R113), a pure function from 32 bits to 32 bits. -/

namespace Sys2Proof.Machine

/-- `rotl32(a, n)` for `0 < n < 32` (R10). -/
def rotl32 (a : Word) (n : Nat) : Word := (a <<< n) ||| (a >>> (32 - n))

/-- Steps 2 to 4 of R111: the key is mixed. -/
def mixKey (q : Word) : Word := rotl32 (q * 0xCC9E2D51#32) 15 * 0x1B873593#32

/-- Steps 5 to 9 of R111: the seed, the mixed key and the length constant. -/
def mixSeed (q : Word) : Word := (rotl32 (0x00000139#32 ^^^ q) 13 * 5#32 + 0xE6546B64#32) ^^^ 0x00000004#32

/-- `v ^= v >> k`. -/
def xorShift (k : Nat) (v : Word) : Word := v ^^^ (v >>> k)

/-- Step 10 of R111: the finalization avalanche. -/
def avalanche (r : Word) : Word := xorShift 16 (xorShift 13 (xorShift 16 r * 0x85EBCA6B#32) * 0xC2B2AE35#32)

/-- `hash32` (R111): total and pure (R110); `*` and `+` wrap modulo 2^32 (R113). -/
def hash32 (x : Word) : Word := avalanche (mixSeed (mixKey x))

end Sys2Proof.Machine
end

