-- ==== Sys2Proof/Machine/Update.lean ====
section
/-! DEFINITION. The Update Pipeline's address decoder and rank counter (41_update.md R130 to R133). -/

namespace Sys2Proof.Machine

/-- `index(h) = h >> (32 − W)`, the top W bits of the hash (R130). -/
def hashIndex (h : Word) : BitVec 13 := (h >>> (32 - Config.W)).setWidth 13

/-- `fragment(h) = h << W` (R131). -/
def fragment (h : Word) : Word := h <<< Config.W

/-- The loop of R132: `left` fragment bits are still to be examined; while the top bit is 0, count and shift. -/
def rankLoop : (left r : Nat) → Word → Nat
  | 0, r, _ => r
  | left + 1, r, f => if f.getLsbD 31 then r else rankLoop left (r + 1) (f <<< 1)

/-- `rank(f)`, 1 to RMAX (R132; 90_conflicts.md C1: the loop counts examined bits, so the cap is 33 − W). -/
def rank (f : Word) : Nat := rankLoop Config.FW 1 f

/-- Stages U1 and U2 for one value (R135, R138): its register index and its rank. -/
def pendingOf (x : Word) : PendingAdd :=
  ⟨hashIndex (hash32 x), BitVec.ofNat 8 (rank (fragment (hash32 x)))⟩

end Sys2Proof.Machine
end

