-- ==== Sys2Proof/Machine/Cycle.lean ====
section
/-! DEFINITION. What the core does at the end of a step: pending ADDs write, a command in flight goes on or completes,
and the reset clear ends. The completions are those of the commands' rules ("on complete"). -/

namespace Sys2Proof.Machine

/-- "on complete" of HASH (R116): RESULT is `{0, h}` for the hash `h`. -/
def completeHash (h : Word) (s : State) : State :=
  { s with result := 0#32 ++ h, rvalid := true, phase := .idle }

/-- "on complete" of EST (R164): RESULT and EDOM are the estimate's `(v, d)`. -/
def completeEst (e : BitVec 64 × Bool) (s : State) : State :=
  { s with result := e.1, edom := e.2, rvalid := true, phase := .idle, scan := none }

/-- The estimate of a finished scan (R161, R168). -/
def Scan.estimate (c : Scan) : BitVec 64 × Bool := est64 c.sum.toNat c.zeros.toNat

/-- "on complete" of RDREG (R181): `zext_64(REG[i])`. -/
def completeRdreg (i : Nat) (s : State) : State :=
  { s with result := (s.reg i).setWidth 64, rvalid := true, phase := .idle }

/-- The command in flight completes, or the clear ends, and BUSY falls (R42, R51). -/
def finish (s : State) : Result :=
  match s.phase with
  | .inReset => .next s
  | .idle => .next s
  | .clearing => .next { s with cells := [], pending := [], phase := .idle }
  | .running .nop _ => .next { s with phase := .idle }
  | .running .add _ => .next { s with phase := .idle }
  | .running .hash x => .next (completeHash (hash32 (valueOperand x)) s)
  | .running .est _ =>
    if s.sketch.inDomain then .next (completeEst ((s.scan.getD Scan.start).complete s.sketch).estimate s)
    else .refused .registerOutOfDomain
  | .running .rdreg x =>
    if indexLegal x then
      if inDomain (s.reg (indexOperand x)) then .next (completeRdreg (indexOperand x) s)
      else .refused .registerOutOfDomain
    else .fault .noSuchCell

/-- A command in flight goes on: an EST scans further registers (R168). -/
def goOn (n : Nat) (s : State) : State := { s with scan := s.scan.map (Scan.advance n s.sketch) }

/-- This step's choices are taken, and the Update Pipeline writes the pending ADDs it writes now (R50). -/
def State.tick (s : State) : State := { s with draws := s.draws.tail }.retire s.draw.keep

/-- The end of a step: the Update Pipeline writes some pending ADDs, and if BUSY = 1 the command in flight or the clear
goes on or ends, whichever the hardware does (R54, R237; assumption 3). -/
def endStep (s : State) : Result :=
  if s.draw.stillBusy then .next (goOn s.draw.scanned s.tick) else finish s.tick

/-- A CMD write of a legal word (R190): dropped with ERR_BUSY while BUSY = 1, given no meaning while the reset input is
asserted (R221), otherwise handled by the command's own acceptance. -/
def issue (s : State) (onAccept : State → Result) : Result :=
  match s.phase with
  | .idle => onAccept s
  | .inReset => .refused .accessDuringReset
  | .clearing => endStep s.raiseErrBusy
  | .running _ _ => endStep s.raiseErrBusy

end Sys2Proof.Machine
end

