-- ==== Sys2Proof/Machine/AddCommand.lean ====
section
/-! DEFINITION. The ADD command (41_update.md R135). -/

namespace Sys2Proof.Machine

/-- ADD's acceptance: its write enters the Update Pipeline, and counts for every later command at once (R50, R70, R135). -/
def acceptAdd (s : State) : State :=
  { s.accept .add with pending := s.pending ++ [pendingOf (valueOperand s.arg)] }

/-- ADD (R135): refused on a register outside its domain, of which the spec says nothing (93_implementation_defined.md I2). -/
def execAdd (s : State) : Result :=
  issue s fun s =>
    if inDomain (s.reg (pendingOf (valueOperand s.arg)).index.toNat) then endStep (acceptAdd s)
    else .refused .registerOutOfDomain

end Sys2Proof.Machine
end

