-- ==== Sys2Proof/Machine/Auxiliary.lean ====
section
/-! DEFINITION. The auxiliary commands NOP and RDREG (43_auxiliary.md R180, R181). -/

namespace Sys2Proof.Machine

/-- NOP (R180): accepted, and no effect. -/
def execNop (s : State) : Result := issue s fun s => endStep (s.accept .nop)

/-- "on accept" of RDREG with a legal index: RVALID <- 0. -/
def acceptRdreg (s : State) : State := { s.accept .rdreg with rvalid := false }

/-- RDREG (R181): an index of m or more raises ERR_ILL and does nothing else; refused on a register outside its domain,
of which the spec says nothing (93_implementation_defined.md I2). -/
def execRdreg (s : State) : Result :=
  issue s fun s =>
    if indexLegal s.arg then
      if inDomain (s.reg (indexOperand s.arg)) then endStep (acceptRdreg s) else .refused .registerOutOfDomain
    else endStep s.raiseErrIll

end Sys2Proof.Machine
end

