-- ==== Sys2Proof/Machine/EstCommand.lean ====
section
/-! DEFINITION. The EST command (42_estimate.md R164). -/

namespace Sys2Proof.Machine

/-- "on accept" of EST: RVALID <- 0, EDOM <- 0; the scan starts. -/
def acceptEst (s : State) : State := { s.accept .est with rvalid := false, edom := false, scan := some Scan.start }

/-- EST (R164): refused on registers outside their domain, of which the spec says nothing (93_implementation_defined.md I2). -/
def execEst (s : State) : Result :=
  issue s fun s => if s.sketch.inDomain then endStep (acceptEst s) else .refused .registerOutOfDomain

end Sys2Proof.Machine
end

