-- ==== Sys2Proof/Machine/HashCommand.lean ====
section
/-! DEFINITION. The HASH command (40_hash_mixer.md R116). -/

namespace Sys2Proof.Machine

/-- "on accept" of HASH: RVALID <- 0. -/
def acceptHash (s : State) : State := { s.accept .hash with rvalid := false }

/-- HASH (R116). -/
def execHash (s : State) : Result := issue s fun s => endStep (acceptHash s)

end Sys2Proof.Machine
end

