-- ==== Sys2Proof/Machine/Dispatch.lean ====
section
/-! DEFINITION. One arm per command. -/

namespace Sys2Proof.Machine

def exec (i : Instr) (s : State) : Host.Outcome State Fault Refusal :=
  match i with
  | .nop => Sys2Proof.Machine.execNop s
  | .add => Sys2Proof.Machine.execAdd s
  | .est => Sys2Proof.Machine.execEst s
  | .hash => Sys2Proof.Machine.execHash s
  | .rdreg => Sys2Proof.Machine.execRdreg s

end Sys2Proof.Machine
end

