-- ==== Sys2Proof/Machine/Flags.lean ====
section
/-! DEFINITION. The STATUS register: how its word is read and what a STATUS write does (10_state.md R39, R42 to R46). -/

namespace Sys2Proof.Machine

/-- The STATUS word: BUSY 0, RVALID 1, EDOM 2, ERR_ILL 3, ERR_BUSY 4, bits 31:5 read 0 (R39). -/
def State.status (s : State) : Word :=
  0#27 ++ BitVec.ofBool s.errBusy ++ BitVec.ofBool s.errIll ++ BitVec.ofBool s.edom ++ BitVec.ofBool s.rvalid
    ++ BitVec.ofBool s.busy

/-- A STATUS write: bits 3 and 4 are cleared where the written bit is 1, and nothing else changes (R39, R198). -/
def State.writeStatus (v : Word) (s : State) : State :=
  { s with
    errIll := stickyNext s.errIll (v.getLsbD 3) false
    errBusy := stickyNext s.errBusy (v.getLsbD 4) false }

end Sys2Proof.Machine
end

