-- ==== Sys2Proof/Machine/HostWindow.lean ====
section
/-! DEFINITION. The host window HW: its map, what a read returns and what a write other than a CMD write does
(10_state.md R36 to R41, 20_memory.md R61, R64, R67, R69). -/

namespace Sys2Proof.Machine

/-- The eight words of the window. -/
inductive HostReg where
  | config
  | arg
  | cmd
  | status
  | resultLo
  | resultHi
  | reserved18
  | reserved1C
  deriving DecidableEq, Repr

/-- The byte offset of a host register (R61 and the map of 10_state.md section 2). -/
def HostReg.offset : HostReg → Nat
  | .config => 0x00
  | .arg => 0x04
  | .cmd => 0x08
  | .status => 0x0C
  | .resultLo => 0x10
  | .resultHi => 0x14
  | .reserved18 => 0x18
  | .reserved1C => 0x1C

/-- The register at a multiple of 4, if the window has one there. -/
def hostRegAt (off : Nat) : Option HostReg :=
  if off = 0x00 then some .config
  else if off = 0x04 then some .arg
  else if off = 0x08 then some .cmd
  else if off = 0x0C then some .status
  else if off = 0x10 then some .resultLo
  else if off = 0x14 then some .resultHi
  else if off = 0x18 then some .reserved18
  else if off = 0x1C then some .reserved1C
  else none

/-- The byte address of byte lane `j` of the register at offset `off` on the host's bus (R64, R69). -/
def busAddress (off j : Nat) : Nat := Config.pBase + off + j

/-- The window offset of a bus address, if the address lies in the window (R61, R69). -/
def windowOffset (addr : Nat) : Option Nat :=
  if Config.pBase ≤ addr ∧ addr < Config.pBase + 32 then some (addr - Config.pBase) else none

/-- CONFIG: W in bits 5:0, RMAX in bits 13:8, every other bit 0 (R36). -/
def configWord : Word := 0#18 ++ BitVec.ofNat 6 Config.RMAX ++ 0#2 ++ BitVec.ofNat 6 Config.W

/-- The value a read of a host register returns (R36 to R41); reading changes nothing (R67). -/
def readHostReg (r : HostReg) (s : State) : Word :=
  match r with
  | .config => configWord
  | .arg => s.arg
  | .cmd => 0#32
  | .status => s.status
  | .resultLo => s.result.extractLsb' 0 32
  | .resultHi => s.result.extractLsb' 32 32
  | .reserved18 => 0#32
  | .reserved1C => 0#32

/-- A write to a host register other than CMD (R36, R37, R39 to R41, R67). A CMD write is `hostWriteCmd`. -/
def writeHostReg (r : HostReg) (v : Word) (s : State) : State :=
  match r with
  | .config => s
  | .arg => { s with arg := v }
  | .cmd => s
  | .status => s.writeStatus v
  | .resultLo => s
  | .resultHi => s
  | .reserved18 => s
  | .reserved1C => s

end Sys2Proof.Machine
end

