-- ==== Sys2Proof/Machine/HostBus.lean ====
section
/-! DEFINITION. What one host event does, and the end of the step that follows it (20_memory.md R65 to R67, R70, R71,
60_exceptions.md R190, 70_reset_and_hazards.md R220, R221). -/

namespace Sys2Proof.Machine

/-- A host write of `w` to CMD (R190): while BUSY = 1 the word is dropped undecoded (R192); an illegal word raises
ERR_ILL (R191); a command is performed. -/
def hostWriteCmd (w : Word) (s : State) : Result :=
  if s.busy then endStep s.raiseErrBusy
  else
    match decode w with
    | .illegal _ => endStep s.raiseErrIll
    | .command i => exec i s

/-- A host access, or the name of the reason the model gives it no meaning (R61, R65, R221). -/
def access (off size : Nat) (s : State) (k : HostReg → Result) : Result :=
  if s.phase = .inReset then .refused .accessDuringReset
  else if size = 4 ∧ off % 4 = 0 then
    match hostRegAt off with
    | some r => k r
    | none => .refused .outsideWindow
  else .refused .unsupportedAccess

/-- The host's read returns `v` (R71). -/
def State.logRead (v : Word) (s : State) : State := { s with reads := s.reads ++ [v] }

/-- A supported host write to a register (R67). -/
def hostWrite (r : HostReg) (v : Word) (s : State) : Result :=
  match r with
  | .cmd => hostWriteCmd v s
  | _ => endStep (writeHostReg r v s)

/-- One event of the host, already taken off the script. -/
def hostEvent (op : HostOp) (s : State) : Result :=
  match op with
  | .read off size => access off size s fun r => endStep (s.logRead (readHostReg r s))
  | .write off size v => access off size s fun r => hostWrite r v s
  | .poll =>
    access HostReg.status.offset 4 s fun r =>
      let v := readHostReg r s
      if v.getLsbD 0 then endStep { s.logRead v with script := .poll :: s.script } else endStep (s.logRead v)
  | .idle => endStep s
  | .assertReset => .next s.hardReset
  | .releaseReset => endStep s.release

end Sys2Proof.Machine
end

