-- ==== Sys2Proof/Machine/HostProgram.lean ====
section
/-! DEFINITION. The host-program syntax (30_encoding.md R98) and the pseudo-instructions' expansions (R99), as the host
events the machine runs. -/

namespace Sys2Proof.Machine

/-- `wr <reg>, <value>` (R98). -/
def wr (r : HostReg) (v : Word) : HostOp := .write r.offset 4 v

/-- `rd <reg>` (R98). -/
def rd (r : HostReg) : HostOp := .read r.offset 4

/-- The command mnemonics and host pseudo-instructions of R99. -/
inductive Pseudo where
  | nop
  | add (x : Word)
  | est
  | hash (x : Word)
  | rdreg (i : Word)
  | clrerr
  | wait
  deriving DecidableEq, Repr

/-- R99's table of expansions. -/
def Pseudo.expand : Pseudo → List HostOp
  | .nop => [.poll, wr .cmd (encode .nop)]
  | .add x => [.poll, wr .arg x, wr .cmd (encode .add)]
  | .est => [.poll, wr .cmd (encode .est), .poll, rd .status, rd .resultLo, rd .resultHi]
  | .hash x => [.poll, wr .arg x, wr .cmd (encode .hash), .poll, rd .resultLo]
  | .rdreg i => [.poll, wr .arg i, wr .cmd (encode .rdreg), .poll, rd .status, rd .resultLo]
  | .clrerr => [wr .status 0x00000018#32]
  | .wait => [.poll]

/-- The operand of a signed caller's value: `v mod 2^32` (R92, R98). -/
def signedOperand (v : Int) : Word := BitVec.ofInt 32 v

end Sys2Proof.Machine
end

