-- ==== Sys2Proof/Machine/Step.lean ====
section
/-! DEFINITION. One step: the next event of the host, if there is one, then the core's progress. The core fetches nothing
(10_state.md R48): an instruction reaches it as a CMD write. -/

namespace Sys2Proof.Machine

/-- One step of the machine. When the host makes no more accesses the core goes on by itself (R222, R236). -/
def step (s : State) : Host.Outcome State Fault Refusal :=
  match s.script with
  | [] => endStep s
  | op :: rest => hostEvent op { s with script := rest }

/-- `s` with the row's word as the host's next CMD write, and the core ready to accept it (assumption 11). -/
def State.withFetchWord (s : State) (nbits w : Nat) : State :=
  { s with phase := .idle, scan := none, script := wr .cmd (tableWord nbits w) :: s.script }

end Sys2Proof.Machine
end

