-- ==== Sys2Proof/Safety.lean ====
section
/-! DEFINITION. The terms in which claims are made: the machine's invariant, the architectural view of a state and the
commands' effect on it (10_state.md R54, 20_memory.md R70), the estimator's inputs as R151 and R152 write them, the
exact value of a binary64 number, and the inverse of the hash (40_hash_mixer.md R114). -/

namespace Sys2Proof.Machine

/-- The pending ranks are ranks of R132: 1 to RMAX. -/
def State.pendingOk (s : State) : Bool := s.pending.all fun p => 1 ≤ p.rank.toNat && p.rank.toNat ≤ Config.RMAX

/-- A scan holds exactly what the registers below its position contribute (R151, R152, R168). -/
def Scan.ok (mem : Memory) (c : Scan) : Bool :=
  c.pos ≤ Config.m && c.sum.toNat = sumIn 0 c.pos mem && c.zeros.toNat = zerosIn 0 c.pos mem

/-- Estimator temporaries exist exactly while EST is in flight (R49, R52). -/
def State.scanOk (s : State) : Bool :=
  match s.phase, s.scan with
  | .running .est _, some c => c.ok s.sketch
  | .running .est _, none => false
  | _, c => c.isNone

/-- What each phase of the command stage says of the rest: the reset values (R51, R53), the stale result (R43, R44), the
operand check of RDREG (R181). -/
def State.phaseOk (s : State) : Bool :=
  match s.phase with
  | .inReset =>
    s.cells = [] && s.pending = [] && s.arg = 0#32 && s.result = 0#64 && !s.rvalid && !s.edom && !s.errIll && !s.errBusy
  | .clearing => s.cells = [] && s.pending = [] && s.result = 0#64 && !s.rvalid && !s.edom && !s.errIll
  | .running .hash _ => !s.rvalid
  | .running .est _ => !s.rvalid && !s.edom
  | .running .rdreg x => !s.rvalid && indexLegal x
  | _ => true

/-- The invariant of the machine. -/
structure State.Inv (s : State) : Prop where
  /-- The register array is in canonical form (R30, R62; assumption 1). -/
  cellsWf : s.cells.wf = true
  /-- Every register holds 0 to RMAX (R32). -/
  cellsInDomain : s.cells.inDomain = true
  pendingOk : s.pendingOk = true
  scanOk : s.scanOk = true
  phaseOk : s.phaseOk = true

/-- What programs can observe of the state, directly or through RDREG and EST, at command granularity (R54): the register
array with every accepted ADD counted, and the host registers' contents but for BUSY. -/
structure Arch where
  sketch : Memory
  arg : Word
  result : BitVec 64
  rvalid : Bool
  edom : Bool
  errIll : Bool
  errBusy : Bool
  deriving DecidableEq, Repr

/-- The architectural view of a state. -/
def State.arch (s : State) : Arch := ⟨s.sketch, s.arg, s.result, s.rvalid, s.edom, s.errIll, s.errBusy⟩

/-- S as R151 writes it: the sum over all m registers of `2^(RMAX − REG[i])`. -/
def specSum (mem : Memory) : Nat := ∑ i ∈ Finset.range Config.m, 2 ^ (Config.RMAX - (mem.read i).toNat)

/-- Z as R152 writes it: the number of registers that are 0. -/
def specZeros (mem : Memory) : Nat := ((Finset.range Config.m).filter fun i => mem.read i = 0#8).card

/-- One accepted command as one indivisible step on the architectural state (R54, R70), from the rules R180, R135, R164,
R116 and R181. -/
def Arch.perform (i : Instr) (a : Arch) : Arch :=
  match i with
  | .nop => a
  | .add => { a with sketch := a.sketch.raiseTo (pendingOf a.arg) }
  | .est =>
    let e := est64 (specSum a.sketch) (specZeros a.sketch)
    { a with result := e.1, edom := e.2, rvalid := true }
  | .hash => { a with result := 0#32 ++ hash32 a.arg, rvalid := true }
  | .rdreg =>
    if a.arg.toNat < Config.m then { a with result := (a.sketch.read a.arg.toNat).setWidth 64, rvalid := true }
    else { a with errIll := true }

/-- The register array after ADDs of the listed values, in order (R135). -/
def addAll (mem : Memory) (xs : List Word) : Memory := xs.foldl (fun mem x => mem.raiseTo (pendingOf x)) mem

/-- The exact value of a binary64 number. -/
def F64.value (x : F64) : ℚ := (x.signedNum : ℚ) / x.den

/-- The values binary64 can hold: 53 significant bits, no place below 2^-1074 (R11). -/
def F64.representable (x : F64) : Prop := x.man < 2 ^ 53 ∧ -1074 ≤ x.exp

/-- The numerator of `A64 · 2^27`: `A64 = alpha ⊗ m ⊗ m` is `estNumerator · 2^−27` (R153, R162). -/
def estNumerator : Nat := 6496037204263111

/-- The inverse of `v ^= v >> 13` (R114). -/
def unXorShift13 (v : Word) : Word := v ^^^ (v >>> 13) ^^^ (v >>> 26)

/-- The inverse of hash32, step by step backwards with the inverse multipliers of R114. -/
def unhash32 (h : Word) : Word :=
  let r := xorShift 16 (unXorShift13 (xorShift 16 h * 0x7ED1B41D#32) * 0xA5CB9243#32)
  let r := ((r ^^^ 0x00000004#32) - 0xE6546B64#32) * 0xCCCCCCCD#32
  let q := rotl32 r 19 ^^^ 0x00000139#32
  rotl32 (q * 0x56ED309B#32) 17 * 0xDEE13BB1#32

/-- The host makes no reset event next. -/
def State.noResetNext (s : State) : Prop := s.script.head? ≠ some .assertReset

/-- `n` steps. -/
def runFor : Nat → State → Result
  | 0, s => .next s
  | n + 1, s =>
    match step s with
    | .next t => runFor n t
    | .fault f => .fault f
    | .refused r => .refused r

/-- `clz32` (R10): the number of leading zero bits, 32 for 0. -/
def clz32 (a : Word) : Nat := if a = 0#32 then 32 else 31 - a.toNat.log2

/-- The register an ADD of `x` selects (R130, R135). -/
def addIndex (x : Word) : Nat := (hashIndex (hash32 x)).toNat

/-- The rank an ADD of `x` brings (R131, R132, R135). -/
def addRank (x : Word) : Nat := rank (fragment (hash32 x))

/-- The state with another list of host events to come. -/
def State.withScript (s : State) (ops : List HostOp) : State := { s with script := ops }

/-- Where the phase of the command stage stands after the acceptance of `i`: still in flight, or done (R42). -/
def State.afterAccept (s : State) (i : Instr) : Phase := if s.draw.stillBusy then .running i s.arg else .idle

/-- This step's draw lets a command in flight complete, or the clear end (R54). -/
def State.settles (s : State) : Prop := s.draw.stillBusy = false

/-- The end of a run (R238): the host has made its last access, BUSY = 0 and no ADD is pending. -/
def State.runEnded (s : State) : Bool := s.script.isEmpty && !s.busy && s.pending.isEmpty

end Sys2Proof.Machine
end

