-- ==== Sys2Proof/Certificates/Slice0/Obligations.lean ====
section
/-! DEFINITION. The statements for the provers. -/

open Sys2Proof Sys2Proof.Machine

/-! ## Encoding -/

/-- R93, R95: words written out from the opcode map, and reserved words. -/
def Obligations.WrittenWordsDecode : Prop :=
  decode 0x00000000#32 = .command .nop ∧ decode 0x00000001#32 = .command .add ∧
  decode 0x00000002#32 = .command .est ∧ decode 0x00000003#32 = .command .hash ∧
  decode 0x00000004#32 = .command .rdreg ∧ decode 0x00000005#32 = .illegal .op ∧
  decode 0x0000000F#32 = .illegal .op ∧ decode 0x00000011#32 = .illegal .rsv ∧
  decode 0x80000002#32 = .illegal .rsv

/-- R93, R94: a word decodes to a command exactly when it is that command's word; so decode of encode is the command. -/
def Obligations.DecodeAcceptsExactlyTheEncodings : Prop :=
  ∀ (w : Word) (i : Instr), decode w = .command i ↔ w = encode i

/-- R94, R95 (a) and (b): RSV ≠ 0 is exactly the words from 16 up, and the reserved opcodes exactly 5 to 15. -/
def Obligations.IllegalWordsClassified : Prop :=
  ∀ w : Word, (decode w = .illegal .rsv ↔ 16 ≤ w.toNat) ∧ (decode w = .illegal .op ↔ 5 ≤ w.toNat ∧ w.toNat ≤ 15)

/-- R64: byte lane j is bits 8j+7 : 8j, and the four lanes are the word. -/
def Obligations.ByteLanesReassemble : Prop :=
  ∀ v : Word, wordOfLanes (byteLane v 0) (byteLane v 1) (byteLane v 2) (byteLane v 3) = v ∧
    ∀ j i, j < 4 → i < 8 → (byteLane v j).getLsbD i = v.getLsbD (8 * j + i)

/-! ## The host window -/

/-- R61, R69: the window is 32 bytes from P_BASE, a multiple of 32, and holds each host register at its offset. -/
def Obligations.WindowMapIsExact : Prop :=
  Config.pBase % 32 = 0 ∧
  (∀ off j, off + j < 32 → windowOffset (busAddress off j) = some (off + j)) ∧
  (∀ addr, (windowOffset addr).isSome ↔ Config.pBase ≤ addr ∧ addr < Config.pBase + 32) ∧
  (∀ off r, hostRegAt off = some r ↔ off = r.offset) ∧
  (∀ off, off < 32 → off % 4 = 0 → (hostRegAt off).isSome)

/-- R36: CONFIG's fields and value, in every state, and its writes are ignored. -/
def Obligations.ConfigIsConstant : Prop :=
  hostRegAt 0x00 = some .config ∧
  (∀ s : State, readHostReg .config s = 0x0000140D#32 ∧
    (readHostReg .config s).extractLsb' 0 6 = BitVec.ofNat 6 13 ∧ (readHostReg .config s).extractLsb' 6 2 = 0#2 ∧
    (readHostReg .config s).extractLsb' 8 6 = BitVec.ofNat 6 20 ∧ (readHostReg .config s).extractLsb' 14 18 = 0#18) ∧
  (∀ (s : State) (v : Word) (rest : List HostOp), s.phase ≠ .inReset →
    step (s.withScript (.write 0x00 4 v :: rest)) = step (s.withScript (.idle :: rest)))

/-- R37: ARG holds the last value written, at any time; the core samples it at acceptance and never writes it; a later
write does not change an accepted command. -/
def Obligations.ArgHoldsTheLastWrite : Prop :=
  hostRegAt 0x04 = some .arg ∧ (∀ s : State, readHostReg .arg s = s.arg) ∧ State.reset.arg = 0#32 ∧
  (∀ (s t : State) (v : Word) (rest : List HostOp), s.phase ≠ .inReset → step (s.withScript (.idle :: rest)) = .next t →
    step (s.withScript (.write 0x04 4 v :: rest)) = .next { t with arg := v }) ∧
  (∀ s t : State, step s = .next t → (∀ v rest, s.script ≠ .write 0x04 4 v :: rest) → s.noResetNext → t.arg = s.arg) ∧
  (∀ (i : Instr) (s t : State), s.phase = .idle → exec i s = .next t → t.phase = .idle ∨ t.phase = .running i s.arg)

/-- R39, R42: the fields of the STATUS word, and BUSY in every phase but idle. -/
def Obligations.StatusWordLayout : Prop :=
  hostRegAt 0x0C = some .status ∧
  ∀ s : State, (readHostReg .status s).getLsbD 0 = s.busy ∧ (readHostReg .status s).getLsbD 1 = s.rvalid ∧
    (readHostReg .status s).getLsbD 2 = s.edom ∧ (readHostReg .status s).getLsbD 3 = s.errIll ∧
    (readHostReg .status s).getLsbD 4 = s.errBusy ∧ (∀ i, 5 ≤ i → (readHostReg .status s).getLsbD i = false) ∧
    (s.busy = false ↔ s.phase = .idle)

/-- R39, R198: a STATUS write clears bits 3 and 4 where the written bit is 1 and does nothing else; a set in the same step
would win (R196). -/
def Obligations.StatusWriteClearsWrittenOnes : Prop :=
  (∀ (s t : State) (v : Word) (rest : List HostOp), s.phase ≠ .inReset → step (s.withScript (.idle :: rest)) = .next t →
    step (s.withScript (.write 0x0C 4 v :: rest)) =
      .next { t with errIll := t.errIll && !v.getLsbD 3, errBusy := t.errBusy && !v.getLsbD 4 }) ∧
  (∀ old clear, stickyNext old clear true = true)

/-- R67, R71: a host read has no side effect: the step is that of a host that makes no access, and the read returns the
register's value at the time of the read. -/
def Obligations.HostReadsHaveNoSideEffect : Prop :=
  ∀ (s t : State) (r : HostReg) (rest : List HostOp), s.phase ≠ .inReset →
    step (s.withScript (.idle :: rest)) = .next t →
    step (s.withScript (.read r.offset 4 :: rest)) = .next { t with reads := s.reads ++ [readHostReg r s] }

/-- R38, R40, R41, R67: CMD reads 0, RESULT reads as its two halves, the reserved offsets read 0. -/
def Obligations.ReadValuesOfTheWindow : Prop :=
  ∀ s : State, readHostReg .cmd s = 0#32 ∧ readHostReg .resultHi s ++ readHostReg .resultLo s = s.result ∧
    hostRegAt 0x18 = some .reserved18 ∧ hostRegAt 0x1C = some .reserved1C ∧ hostRegAt 0x08 = some .cmd ∧
    hostRegAt 0x10 = some .resultLo ∧ hostRegAt 0x14 = some .resultHi ∧
    readHostReg .reserved18 s = 0#32 ∧ readHostReg .reserved1C s = 0#32

/-- R41, R67, R40: the reserved offsets read 0, and writes to them and to RESULT_LO and RESULT_HI have no effect. -/
def Obligations.ReadOnlyRegistersIgnoreWrites : Prop :=
  (∀ off, off = 0x18 ∨ off = 0x1C → ∃ r, hostRegAt off = some r ∧ ∀ s : State, readHostReg r s = 0#32) ∧
  ∀ (s : State) (off : Nat) (v : Word) (rest : List HostOp), s.phase ≠ .inReset →
    off = 0x10 ∨ off = 0x14 ∨ off = 0x18 ∨ off = 0x1C →
    step (s.withScript (.write off 4 v :: rest)) = step (s.withScript (.idle :: rest))

/-- R65, R61, R221: an access of another width or offset, outside the window, or while reset is asserted is refused under
its own name. -/
def Obligations.UnsupportedAccessesAreRefused : Prop :=
  ∀ (s : State) (off size : Nat) (v : Word) (rest : List HostOp),
    (s.phase = .inReset →
      step (s.withScript (.read off size :: rest)) = .refused .accessDuringReset ∧
      step (s.withScript (.write off size v :: rest)) = .refused .accessDuringReset ∧
      step (s.withScript (.poll :: rest)) = .refused .accessDuringReset) ∧
    (s.phase ≠ .inReset → size ≠ 4 ∨ off % 4 ≠ 0 →
      step (s.withScript (.read off size :: rest)) = .refused .unsupportedAccess ∧
      step (s.withScript (.write off size v :: rest)) = .refused .unsupportedAccess) ∧
    (s.phase ≠ .inReset → size = 4 → off % 4 = 0 → 32 ≤ off →
      step (s.withScript (.read off size :: rest)) = .refused .outsideWindow ∧
      step (s.withScript (.write off size v :: rest)) = .refused .outsideWindow)

/-- R98: `poll` reads STATUS and is repeated exactly while BUSY = 1. -/
def Obligations.PollRepeatsWhileBusy : Prop :=
  ∀ (s : State) (rest : List HostOp), s.phase ≠ .inReset →
    (s.busy = true → step (s.withScript (.poll :: rest)) = step (s.withScript (.read 0x0C 4 :: .poll :: rest))) ∧
    (s.busy = false → step (s.withScript (.poll :: rest)) = step (s.withScript (.read 0x0C 4 :: rest)))

/-! ## CMD writes -/

/-- R190, R94: an idle core performs the command a CMD write decodes to. -/
def Obligations.StepRunsTheDecodedCommand : Prop :=
  ∀ (s : State) (w : Word) (i : Instr) (rest : List HostOp), s.phase = .idle → decode w = .command i →
    step (s.withScript (.write 0x08 4 w :: rest)) = exec i (s.withScript rest)

/-- The model's loading of one word (assumption 11): the very next step runs it. -/
def Obligations.FetchedWordRuns : Prop :=
  ∀ (s : State) (nbits w : Nat) (i : Instr), decodeTableWord nbits w = some i →
    step (s.withFetchWord nbits w) = exec i { s with phase := .idle, scan := none }

/-- R192: any CMD write while BUSY = 1 sets ERR_BUSY, whatever the word, and everything else goes on as if the host had
made no access. -/
def Obligations.CmdWriteWhileBusyIsDropped : Prop :=
  ∀ (s t : State) (w : Word) (rest : List HostOp), s.busy = true → s.phase ≠ .inReset →
    step (s.withScript (.idle :: rest)) = .next t →
    step (s.withScript (.write 0x08 4 w :: rest)) = .next { t with errBusy := true }

/-- Each command's "Errors" line (R116, R135, R164, R180, R181): a command issued while BUSY = 1 is dropped with ERR_BUSY,
and the command in flight goes on. -/
def Obligations.CommandsIssuedWhileBusyAreDropped : Prop :=
  ∀ (i : Instr) (s t : State), s.busy = true → s.phase ≠ .inReset → endStep s = .next t →
    exec i s = .next { t with errBusy := true }

/-- R191: a CMD write while BUSY = 0 with RSV ≠ 0, with a reserved OP, or of RDREG with ARG ≥ m sets ERR_ILL and does
nothing else. -/
def Obligations.IllegalCmdWriteOnlySetsErrIll : Prop :=
  ∀ (s : State) (w : Word) (rest : List HostOp), s.phase = .idle →
    16 ≤ w.toNat ∨ (5 ≤ w.toNat ∧ w.toNat ≤ 15) ∨ (w = 0x00000004#32 ∧ 8192 ≤ s.arg.toNat) →
    ∃ t, step (s.withScript (.write 0x08 4 w :: rest)) = .next t ∧ t.arch = { s.arch with errIll := true } ∧
      t.phase = .idle ∧ t.script = rest ∧ t.reads = s.reads

/-! ## The commands -/

/-- R180: NOP has no effect; BUSY follows R42. -/
def Obligations.NopHasNoEffect : Prop :=
  ∀ s : State, s.phase = .idle → ∃ t, exec .nop s = .next t ∧ t.phase = s.afterAccept .nop ∧
    (∀ a, t.reg a = s.reg a) ∧ t.arg = s.arg ∧ t.result = s.result ∧ t.rvalid = s.rvalid ∧ t.edom = s.edom ∧
    t.errIll = s.errIll ∧ t.errBusy = s.errBusy ∧ t.script = s.script ∧ t.reads = s.reads

/-- R135: ADD leaves the larger of the selected register and the rank there, from its acceptance on, and nothing else
changes; BUSY follows R42. -/
def Obligations.AddRaisesOneRegister : Prop :=
  ∀ s : State, s.phase = .idle → (s.reg (addIndex s.arg)).toNat ≤ 20 →
    ∃ t, exec .add s = .next t ∧ t.phase = s.afterAccept .add ∧
      (t.reg (addIndex s.arg)).toNat = max (s.reg (addIndex s.arg)).toNat (addRank s.arg) ∧
      (∀ a, a ≠ addIndex s.arg → t.reg a = s.reg a) ∧ t.arg = s.arg ∧ t.result = s.result ∧ t.rvalid = s.rvalid ∧
      t.edom = s.edom ∧ t.errIll = s.errIll ∧ t.errBusy = s.errBusy ∧ t.script = s.script ∧ t.reads = s.reads

/-- R116: HASH that is done before the next access leaves `{0, hash32(ARG)}` in RESULT and RVALID = 1, and changes nothing
else. -/
def Obligations.HashPutsTheHashInResult : Prop :=
  ∀ s : State, s.phase = .idle → s.settles → ∃ t, exec .hash s = .next t ∧ t.phase = .idle ∧
    t.result = 0#32 ++ hash32 s.arg ∧ t.rvalid = true ∧ (∀ a, t.reg a = s.reg a) ∧ t.arg = s.arg ∧ t.edom = s.edom ∧
    t.errIll = s.errIll ∧ t.errBusy = s.errBusy ∧ t.script = s.script ∧ t.reads = s.reads

/-- R164, R150 to R152, R161: EST that is done before the next access leaves est64 of S and Z, taken over all registers with
every earlier ADD counted, in RESULT and EDOM, and RVALID = 1; REG and everything else are unchanged. -/
def Obligations.EstPutsTheEstimateInResult : Prop :=
  ∀ s : State, s.Inv → s.phase = .idle → s.settles → ∃ t, exec .est s = .next t ∧ t.phase = .idle ∧
    t.result = (est64 (specSum s.sketch) (specZeros s.sketch)).1 ∧
    t.edom = (est64 (specSum s.sketch) (specZeros s.sketch)).2 ∧ t.rvalid = true ∧ t.scan = none ∧
    (∀ a, t.reg a = s.reg a) ∧ t.arg = s.arg ∧ t.errIll = s.errIll ∧ t.errBusy = s.errBusy ∧
    t.script = s.script ∧ t.reads = s.reads

/-- R150: EST's result depends on the registers alone, and EST changes none. -/
def Obligations.EstDependsOnRegistersOnly : Prop :=
  ∀ s s' : State, s.Inv → s'.Inv → s.phase = .idle → s'.phase = .idle → s.settles → s'.settles → s'.sketch = s.sketch →
    ∃ t t', exec .est s = .next t ∧ exec .est s' = .next t' ∧ t'.result = t.result ∧ t'.edom = t.edom ∧
      t.rvalid = true ∧ t'.rvalid = true ∧ t.sketch = s.sketch ∧ t'.sketch = s'.sketch

/-- R181: RDREG with ARG < m that is done before the next access leaves the zero-extended register in RESULT and RVALID = 1;
with ARG ≥ m it sets ERR_ILL and does nothing else. -/
def Obligations.RdregReadsOneRegister : Prop :=
  (∀ s : State, s.phase = .idle → s.settles → s.arg.toNat < 8192 → (s.reg s.arg.toNat).toNat ≤ 20 →
    ∃ t, exec .rdreg s = .next t ∧ t.phase = .idle ∧ t.result.toNat = (s.reg s.arg.toNat).toNat ∧ t.rvalid = true ∧
      (∀ a, t.reg a = s.reg a) ∧ t.arg = s.arg ∧ t.edom = s.edom ∧ t.errIll = s.errIll ∧ t.errBusy = s.errBusy ∧
      t.script = s.script ∧ t.reads = s.reads) ∧
  (∀ s : State, s.phase = .idle → 8192 ≤ s.arg.toNat →
    ∃ t, exec .rdreg s = .next t ∧ t.phase = .idle ∧ t.errIll = true ∧ t.result = s.result ∧ t.rvalid = s.rvalid ∧
      (∀ a, t.reg a = s.reg a) ∧ t.arg = s.arg ∧ t.edom = s.edom ∧ t.errBusy = s.errBusy ∧ t.script = s.script ∧
      t.reads = s.reads)

/-- R42, R43, R44, R47, "on accept" of R116, R164, R181: HASH, EST and RDREG that are still in flight at the next access have
cleared RVALID, and EST has cleared EDOM; RESULT still holds the last completed result, and the command stage holds the
command with ARG's value. -/
def Obligations.ResultCommandsInFlight : Prop :=
  ∀ (i : Instr) (s : State), i = .hash ∨ i = .est ∨ i = .rdreg → s.Inv → s.phase = .idle → s.draw.stillBusy = true →
    (i = .rdreg → s.arg.toNat < 8192) →
    ∃ t, exec i s = .next t ∧ t.phase = .running i s.arg ∧ t.rvalid = false ∧ t.result = s.result ∧
      t.edom = (if i = .est then false else s.edom) ∧ (∀ a, t.reg a = s.reg a) ∧ t.arg = s.arg ∧
      t.errIll = s.errIll ∧ t.errBusy = s.errBusy

/-- R42, R47, R116, R164, R181: the command in flight completes on the operand latched at its acceptance, whatever ARG holds
now. An ADD's register write counted from its acceptance (R50), so its completion, like NOP's, only lets BUSY fall. -/
def Obligations.InFlightCommandCompletes : Prop :=
  ∀ (i : Instr) (x : Word) (s : State), s.Inv → s.phase = .running i x → s.script = [] → s.settles →
    ∃ t, step s = .next t ∧ t.phase = .idle ∧ t.scan = none ∧
      t.arch = if i = .nop ∨ i = .add then s.arch else { ({ s.arch with arg := x }).perform i with arg := s.arg }

/-- 93_implementation_defined.md I2 (refuse): ADD, EST and RDREG on a register that holds 21 to 255, which no run reaches. -/
def Obligations.OutOfDomainRegistersAreRefused : Prop :=
  ∀ s : State, s.phase = .idle →
    (20 < (s.reg (addIndex s.arg)).toNat → exec .add s = .refused .registerOutOfDomain) ∧
    (s.cells.wf = true → ∀ a, 20 < (s.reg a).toNat → exec .est s = .refused .registerOutOfDomain) ∧
    (s.arg.toNat < 8192 → 20 < (s.reg s.arg.toNat).toNat → exec .rdreg s = .refused .registerOutOfDomain)

/-! ## The Hash Mixer -/

/-- R111: the rule's pseudocode, line by line. -/
def Obligations.HashIsTheStatedComputation : Prop :=
  ∀ x : Word, hash32 x =
    let q := x
    let q := q * 0xCC9E2D51#32
    let q := (q <<< 15) ||| (q >>> 17)
    let q := q * 0x1B873593#32
    let res := 0x00000139#32
    let res := res ^^^ q
    let res := (res <<< 13) ||| (res >>> 19)
    let res := res * 5#32 + 0xE6546B64#32
    let res := res ^^^ 0x00000004#32
    let res := res ^^^ (res >>> 16)
    let res := res * 0x85EBCA6B#32
    let res := res ^^^ (res >>> 13)
    let res := res * 0xC2B2AE35#32
    let res := res ^^^ (res >>> 16)
    res

/-- R114: hash32 is a bijection with the stated inverse steps, so every index and fragment has exactly one input. -/
def Obligations.HashIsBijective : Prop :=
  (∀ x, unhash32 (hash32 x) = x) ∧ (∀ h, hash32 (unhash32 h) = h) ∧
  (∀ v, xorShift 16 (xorShift 16 v) = v) ∧
  (∀ v, xorShift 13 v ^^^ (xorShift 13 v >>> 13) ^^^ (xorShift 13 v >>> 26) = v) ∧
  0xCC9E2D51#32 * 0xDEE13BB1#32 = 1#32 ∧ 0x1B873593#32 * 0x56ED309B#32 = 1#32 ∧ 5#32 * 0xCCCCCCCD#32 = 1#32 ∧
  0x85EBCA6B#32 * 0xA5CB9243#32 = 1#32 ∧ 0xC2B2AE35#32 * 0x7ED1B41D#32 = 1#32 ∧
  (∀ (i : BitVec 13) (f : BitVec 19), ∃ x, hash32 x = i ++ f ∧ ∀ y, hash32 y = i ++ f → y = x)

/-- R114: the kinds of steps hash32 is made of are invertible on 32-bit words. -/
def Obligations.HashStepsAreInvertible : Prop :=
  (∀ c : Word, c.getLsbD 0 = true → Function.Bijective fun v : Word => v * c) ∧
  (∀ n, 0 < n → n < 32 → Function.Bijective fun v : Word => rotl32 v n) ∧
  (∀ c : Word, Function.Bijective fun v : Word => v ^^^ c) ∧
  (∀ k, 1 ≤ k → Function.Bijective fun v : Word => xorShift k v) ∧
  (∀ c : Word, Function.Bijective fun v : Word => v * 5#32 + c)

/-! ## The Update Pipeline -/

/-- R130, R131: the index is the top 13 bits of the hash and the fragment the low 19 bits, left-aligned. -/
def Obligations.IndexAndFragmentSplitTheHash : Prop :=
  ∀ h : Word, hashIndex h = h.extractLsb' 19 13 ∧ (hashIndex h).toNat = h.toNat / 2 ^ 19 ∧ (hashIndex h).toNat < 8192 ∧
    fragment h = h.extractLsb' 0 19 ++ 0#13

/-- R132: the loop's rank is one more than the leading zeros, capped; 1 exactly when the top bit is 1, RMAX exactly when all
19 fragment bits are 0. -/
def Obligations.RankIsCappedLeadingZeroCount : Prop :=
  ∀ f : Word, rank f = 1 + min (clz32 f) 19 ∧ 1 ≤ rank f ∧ rank f ≤ 20 ∧
    (rank f = 1 ↔ f.getLsbD 31 = true) ∧ (rank f = 20 ↔ f.extractLsb' 13 19 = 0#19)

/-- R133: the rank from the 19 fragment bits of the hash alone. -/
def Obligations.RankFromTheFragmentBits : Prop :=
  ∀ h : Word,
    (∀ k, 1 ≤ k → k ≤ 19 → (rank (fragment h) = k ↔
      (∀ j, 19 - k < j → j < 19 → h.getLsbD j = false) ∧ h.getLsbD (19 - k) = true)) ∧
    (rank (fragment h) = 20 ↔ ∀ j, j < 19 → h.getLsbD j = false)

/-- R137: ADD is idempotent, and the register array after ADDs from reset depends only on the set of values: each register
is the largest rank sent to it. -/
def Obligations.RegistersAreMaximaOverTheValuesAdded : Prop :=
  (∀ s t : State, s.phase = .idle → exec .add s = .next t → t.sketch = addAll s.sketch [s.arg]) ∧
  (∀ mem x, addAll mem [x, x] = addAll mem [x]) ∧
  (∀ xs a, ((addAll [] xs).read a).toNat = ((xs.filter fun x => addIndex x = a).map addRank).foldr max 0) ∧
  (∀ xs ys : List Word, (∀ x, x ∈ xs ↔ x ∈ ys) → addAll [] xs = addAll [] ys)

/-- R31, R136: no register ever decreases except at hardware reset, and the array's length never changes. -/
def Obligations.RegistersNeverDecrease : Prop :=
  ∀ s t : State, s.Inv → step s = .next t → t.cells.wf = true ∧ (∀ a, 8192 ≤ a → t.reg a = 0#8) ∧
    (s.noResetNext → ∀ a, (s.reg a).toNat ≤ (t.reg a).toNat)

/-- R34, R62, R136: outside reset, a register changes only in a step that accepts an ADD, and only the register that ADD
selects. -/
def Obligations.OnlyAddChangesRegisters : Prop :=
  ∀ (s t : State) (a : Nat), s.Inv → step s = .next t → s.noResetNext → t.reg a ≠ s.reg a →
    s.phase = .idle ∧ a = addIndex s.arg ∧ ∃ rest, s.script = .write 0x08 4 0x00000001#32 :: rest

/-- R50, R70, R232: two machines that differ only in which accepted ADDs have already written their registers take the same
steps, and differ only in that afterwards. -/
def Obligations.PendingWritesAreInvisible : Prop :=
  ∀ s s' t : State, s'.sketch = s.sketch → { s' with cells := s.cells, pending := s.pending } = s → step s = .next t →
    ∃ t', step s' = .next t' ∧ t'.sketch = t.sketch ∧ { t' with cells := t.cells, pending := t.pending } = t

/-! ## The Estimator -/

/-- R151, R152, R168: a scan that holds what the registers below its position contribute keeps doing so as it goes on, and ends
with S and Z of all m registers; EST's scan starts so. S is in [m, m · 2^RMAX] and Z at most m. -/
def Obligations.ScanComputesSumAndZeros : Prop :=
  ∀ mem : Memory, mem.wf = true → harmonicSum mem = specSum mem ∧ zeroCount mem = specZeros mem ∧
    8192 ≤ specSum mem ∧ specSum mem ≤ 2 ^ 33 ∧ specZeros mem ≤ 8192 ∧ Scan.start.ok mem = true ∧
    ∀ c : Scan, c.ok mem = true → (∀ n, (c.advance n mem).ok mem = true) ∧ (c.complete mem).pos = 8192 ∧
      (c.complete mem).sum.toNat = specSum mem ∧ (c.complete mem).zeros.toNat = specZeros mem ∧
      (c.complete mem).estimate = est64 (specSum mem) (specZeros mem)

/-- R153, R156, R157: the constants of the estimator, bit for bit. -/
def Obligations.EstimatorConstants : Prop :=
  (fl64 false 7213 10000).toBits = 0x3FE714E3BCD35A86#64 ∧ (fl64 false 1079 1000).toBits = 0x3FF14395810624DD#64 ∧
  ((fl64 false 1079 1000).div (F64.ofNat 8192)).toBits = 0x3F214395810624DD#64 ∧
  ((F64.ofNat 1).add ((fl64 false 1079 1000).div (F64.ofNat 8192))).toBits = 0x3FF0008A1CAC0831#64 ∧
  alpha64.toBits = 0x3FE7141C860200C7#64 ∧
  ((alpha64.mul (F64.ofNat 8192)).mul (F64.ofNat 8192)).toBits = 0x4187141C860200C7#64 ∧
  smallLimit.toBits = 0x40D4000000000000#64 ∧ largeLimit.toBits = 0x41A1111111111111#64

/-- R11: `fl64` gives the binary64 value nearest to the exact rational, ties to even (finite values). -/
def Obligations.Fl64RoundsToNearestEven : Prop :=
  ∀ (neg : Bool) (n d : Nat), 0 < d → (fl64 neg n d).representable ∧
    ∀ y : F64, y.representable →
      |(fl64 neg n d).value - (if neg then -(n : ℚ) / d else (n : ℚ) / d)| ≤
        |y.value - (if neg then -(n : ℚ) / d else (n : ℚ) / d)| ∧
      (|(fl64 neg n d).value - (if neg then -(n : ℚ) / d else (n : ℚ) / d)| =
          |y.value - (if neg then -(n : ℚ) / d else (n : ℚ) / d)| →
        y.value = (fl64 neg n d).value ∨ (fl64 neg n d).man % 2 = 0)

/-- Assumption 14, for R11's `lnCR64`: the fixed-point logarithm that `lnCR64` rounds, the model's own algorithm, is within
2^-160 of the real logarithm, for every positive normal binary64 value. -/
def Obligations.LogarithmIsAccurate : Prop :=
  ∀ x : F64, x.neg = false → 2 ^ 52 ≤ x.man → x.man < 2 ^ 53 → -1074 ≤ x.exp → x.exp ≤ 971 →
    |(lnFixed x : ℝ) / 2 ^ lnBits - Real.log (x.value : ℝ)| < 1 / 2 ^ 160

/-- R158, R162 (b), R155: where E is raw (the mid range, and the small range with Z = 0), the binary64 computation gives
exactly the floor of the rational `6496037204263111 / (128 · S)`. -/
def Obligations.RawEstimateIsExactFloor : Prop :=
  ∀ S Z, 354487 ≤ S → S ≤ 2 ^ 33 → S ≤ 2478041536 ∨ Z = 0 →
    est64 S Z = (BitVec.ofNat 64 (estNumerator / (128 * S)), false)

/-- R162 (c), R163: in the small range with Z > 0 the result is the floor of the real `8192 · ln(8192 / Z)`. -/
def Obligations.LinearCountingIsFloorOfRealLog : Prop :=
  ∀ S Z, 2478041537 ≤ S → S ≤ 2 ^ 33 → 1 ≤ Z → Z ≤ 8192 →
    (est64 S Z).2 = false ∧ ((est64 S Z).1.toNat : ℤ) = ⌊(8192 : ℝ) * Real.log (8192 / (Z : ℝ))⌋

/-- R155, R160, R162 (d): in the large range without a domain error the result is the real
`−2^32 · ln(1 − 6496037204263111 / (2^39 · S))` truncated, to within 1/64 before truncation. -/
def Obligations.LargeRangeFollowsTheRealLog : Prop :=
  ∀ S Z, 11817 ≤ S → S ≤ 354486 → (est64 S Z).2 = false ∧
    ((est64 S Z).1.toNat : ℝ) - 1 / 64 ≤ -(2 ^ 32 : ℝ) * Real.log (1 - (estNumerator : ℝ) / (2 ^ 39 * S)) ∧
    -(2 ^ 32 : ℝ) * Real.log (1 - (estNumerator : ℝ) / (2 ^ 39 * S)) < ((est64 S Z).1.toNat : ℝ) + 1 + 1 / 64

/-- R160, R162: the domain error happens exactly when S ≤ 11816, and then RESULT is all ones. -/
def Obligations.DomainErrorExactlyUpTo11816 : Prop :=
  ∀ S Z, 8192 ≤ S → S ≤ 2 ^ 33 →
    ((est64 S Z).2 = true ↔ S ≤ 11816) ∧ (S ≤ 11816 → (est64 S Z).1 = 0xFFFFFFFFFFFFFFFF#64)

/-- R167, R163, R166: the estimates at the branch edges; and an ADD that raises the last register from 0 to 1, where all the
others hold 1, lowers the estimate of the register array from 73817 to 11816. -/
def Obligations.EstimateEdges : Prop :=
  est64 (2 ^ 20 + 8191 * 2 ^ 19) 1 = (73817#64, false) ∧ est64 (2 ^ 32) 0 = (11816#64, false) ∧
  est64 354487 0 = (143165449#64, false) ∧ est64 354486 0 = (145606341#64, false) ∧
  est64 2478041537 0 = (20479#64, false) ∧ est64 2478041536 0 = (20480#64, false) ∧
  est64 11817 0 = (41357970789#64, false) ∧ est64 11816 0 = (0xFFFFFFFFFFFFFFFF#64, true) ∧
  ∀ s : State, s.phase = .idle → (∀ a, a < 8192 → s.reg a = if a = addIndex s.arg then 0#8 else 1#8) →
    addRank s.arg = 1 → est64 (specSum s.sketch) (specZeros s.sketch) = (73817#64, false) ∧
    ∃ t, exec .add s = .next t ∧ (∀ a, a < 8192 → t.reg a = 1#8) ∧
      est64 (specSum t.sketch) (specZeros t.sketch) = (11816#64, false)

/-- R165: EST on the empty sketch gives 0, with Z = m and S = m · 2^RMAX in the small range. -/
def Obligations.ZeroStateEstimatesZero : Prop :=
  harmonicSum [] = 2 ^ 33 ∧ zeroCount [] = 8192 ∧ (raw64 (2 ^ 33)).le smallLimit = true ∧ (raw64 (2 ^ 33)).trunc = 5908 ∧
  ∀ s : State, s.sketch = [] → s.phase = .idle → s.settles →
    ∃ t, exec .est s = .next t ∧ t.result = 0#64 ∧ t.edom = false ∧ t.rvalid = true

/-! ## The whole machine -/

/-- The invariant holds right after reset. -/
def Obligations.InvariantHoldsAtReset : Prop := State.reset.Inv

/-- R30 to R32, R43, R44, R47, R51 to R53: every step keeps the invariant. -/
def Obligations.EveryStepKeepsTheInvariant : Prop := ∀ s t : State, s.Inv → step s = .next t → t.Inv

/-- R76, R110, R194, R197: in a state that meets the invariant, a step goes on, unless the host makes an access the spec gives
no meaning (R65, R221). -/
def Obligations.StopsOnlyOnUnsupportedAccesses : Prop :=
  ∀ s : State, s.Inv → (∃ t, step s = .next t) ∨
    (∃ off size rest, (s.script = .read off size :: rest ∨ ∃ v, s.script = .write off size v :: rest) ∧
      (s.phase = .inReset ∨ accessWellFormed off size = false)) ∨
    (s.phase = .inReset ∧ ∃ rest, s.script = .poll :: rest)

/-- R54, R70, R42, R236: an accepted command answers, completes, and has exactly the effect of one indivisible step, whatever
the draws. The bound on the steps, the number of draws left, is the model's (assumption 3): R236 gives finite completion and
no bound. -/
def Obligations.CommandsTakeEffectAsOneStep : Prop :=
  ∀ (i : Instr) (s : State), s.Inv → s.phase = .idle → s.script = [] →
    ∃ t, exec i s = .next t ∧
      (∃ n u, n ≤ s.draws.length ∧ runFor n t = .next u ∧ u.phase = .idle) ∧
      ∀ (n : Nat) (u : State), runFor n t = .next u → u.phase = .idle → u.arch = s.arch.perform i

/-- The model's form (assumption 3) of R236, R51 and R238: with no further host access and no reset, the run ends: one step
after the listed draws are used up BUSY is 0, no ADD is pending, and the cells hold what every accepted ADD left. The bound
and the drain rest on assumption 3, by which draws are finitely many and then everything settles. -/
def Obligations.BusyFallsAndPendingDrains : Prop :=
  ∀ s : State, s.Inv → s.phase ≠ .inReset → s.script = [] →
    ∃ t, runFor (s.draws.length + 1) s = .next t ∧ t.runEnded = true ∧ t.phase = .idle ∧ t.cells = s.sketch

/-- R220, R223, R53, with reset as two events (assumption 8) and the registers at 0 from its assertion on (assumption 7): an
asserted reset abandons the command in flight and leaves every piece of the hardware's state at its reset value; when it is
released the values are the same, and the core is clearing, or idle where the draw lets the clear end at once. -/
def Obligations.ResetAbandonsTheCommandInFlight : Prop :=
  ∀ (s : State) (rest : List HostOp), ∃ t, step (s.withScript (.assertReset :: rest)) = .next t ∧
    t.arch = ⟨[], 0#32, 0#64, false, false, false, false⟩ ∧ t.pending = [] ∧ t.scan = none ∧ t.phase = .inReset ∧
    ∀ (u : State) (rest' : List HostOp), t.script = .releaseReset :: rest' → step t = .next u →
      u.arch = ⟨[], 0#32, 0#64, false, false, false, false⟩ ∧ u.phase = if t.draw.stillBusy then .clearing else .idle

/-- R53, R51, R221, R222: the state right after reset, and the clear, for every list of draws: whatever the host does short of
a reset, a step of the clear leaves the reset values (ARG and ERR_BUSY are the host's to change), and BUSY falls exactly where
the draw lets the clear end; with no host event it does fall, on the reset state. That the registers read 0 during the clear
is assumption 7, that a list of draws says when it ends assumptions 3 and 10. -/
def Obligations.ResetState : Prop :=
  (State.reset.arch = ⟨[], 0#32, 0#64, false, false, false, false⟩ ∧ State.reset.phase = .clearing ∧
    State.reset.busy = true ∧ State.reset.pending = [] ∧ State.reset.scan = none ∧ State.reset.status = 0x00000001#32 ∧
    (∀ a, State.reset.reg a = 0#8) ∧ readHostReg .config State.reset = 0x0000140D#32) ∧
  (∀ s t : State, s.Inv → s.phase = .clearing → s.noResetNext → step s = .next t →
    t.phase = (if s.draw.stillBusy then .clearing else .idle) ∧ t.cells = [] ∧ t.pending = [] ∧ t.scan = none ∧
    (∀ a, t.reg a = 0#8) ∧ t.result = 0#64 ∧ t.rvalid = false ∧ t.edom = false ∧ t.errIll = false ∧
    readHostReg .config t = 0x0000140D#32) ∧
  ∀ ds : List Draw, ∃ n t, runFor n { State.reset with draws := ds } = .next t ∧ t.phase = .idle ∧
    t.status = 0x00000000#32 ∧ t.arch = State.reset.arch ∧ t.pending = [] ∧ t.scan = none

/-- R45, R46, R198: what sets and what clears the sticky error bits. -/
def Obligations.ErrorBitsAreSticky : Prop :=
  ∀ s t : State, step s = .next t →
    (s.errIll = true → t.errIll = false → ∃ rest, s.script = .assertReset :: rest ∨
      ∃ v, s.script = .write 0x0C 4 v :: rest ∧ v.getLsbD 3 = true) ∧
    (s.errBusy = true → t.errBusy = false → ∃ rest, s.script = .assertReset :: rest ∨
      ∃ v, s.script = .write 0x0C 4 v :: rest ∧ v.getLsbD 4 = true) ∧
    (s.errIll = false → t.errIll = true → s.phase = .idle ∧ ∃ w rest, s.script = .write 0x08 4 w :: rest ∧
      (5 ≤ w.toNat ∨ (w = 0x00000004#32 ∧ 8192 ≤ s.arg.toNat))) ∧
    (s.errBusy = false → t.errBusy = true → s.busy = true ∧ ∃ w rest, s.script = .write 0x08 4 w :: rest)

/-- R40, R43, R66: outside reset, RESULT changes only in a step that completes HASH, EST or RDREG: one in flight, or one the
host's CMD write has just issued to an idle core. The step leaves RVALID = 1 and the core idle. -/
def Obligations.ResultChangesOnlyAtCompletion : Prop :=
  ∀ s t : State, step s = .next t → s.noResetNext → t.result ≠ s.result →
    (∃ i, (i = .hash ∨ i = .est ∨ i = .rdreg) ∧ ((∃ x, s.phase = .running i x) ∨
      (s.phase = .idle ∧ ∃ w rest, s.script = .write 0x08 4 w :: rest ∧ decode w = .command i))) ∧
    t.rvalid = true ∧ t.phase = .idle

/-- R44, R193, R194: EDOM is set only by the completion of an EST, in flight or just issued, whose S is at most 11816, with
RESULT all ones and RVALID = 1; and it is cleared only by EST's acceptance or reset. -/
def Obligations.EdomOnlyFromEst : Prop :=
  ∀ s t : State, s.Inv → step s = .next t →
    (s.edom = false → t.edom = true →
      ((∃ x, s.phase = .running .est x) ∨ (s.phase = .idle ∧ ∃ rest, s.script = .write 0x08 4 0x00000002#32 :: rest)) ∧
      t.phase = .idle ∧ t.rvalid = true ∧ t.result = 0xFFFFFFFFFFFFFFFF#64 ∧ specSum t.sketch ≤ 11816) ∧
    (s.edom = true → t.edom = false → (∃ rest, s.script = .assertReset :: rest) ∨
      (s.phase = .idle ∧ ∃ rest, s.script = .write 0x08 4 0x00000002#32 :: rest))

/-- R155, R161, R162 (d): in the large range without a domain error the binary64 computation gives exactly the floor of the
real `−2^32 · ln(1 − 6496037204263111 / (2^39 · S))`. -/
def Obligations.LargeRangeIsFloorOfRealLog : Prop :=
  ∀ S Z, 11817 ≤ S → S ≤ 354486 → (est64 S Z).2 = false ∧
    ((est64 S Z).1.toNat : ℤ) = ⌊-(2 ^ 32 : ℝ) * Real.log (1 - (estNumerator : ℝ) / (2 ^ 39 * S))⌋
end

