-- ==== Sys2Proof/Laws/State.lean ====
section
/-! SUPPORT. What each update of the state leaves in each field, one lemma per field per update, so that no proof unfolds a
record update. (Where the update holds a computed value, the state is taken apart first: comparing the updated state with the
old one field by field would make the kernel run that computation.) -/

namespace Sys2Proof.Machine

@[simp] theorem retire_cells (k : Nat) (s : State) : (s.retire k).cells = s.cells.raiseAll (s.pending.take (s.pending.length - k)) := by cases s; rfl
@[simp] theorem retire_pending (k : Nat) (s : State) : (s.retire k).pending = s.pending.drop (s.pending.length - k) := by cases s; rfl
@[simp] theorem retire_arg (k : Nat) (s : State) : (s.retire k).arg = s.arg := by cases s; rfl
@[simp] theorem retire_result (k : Nat) (s : State) : (s.retire k).result = s.result := by cases s; rfl
@[simp] theorem retire_rvalid (k : Nat) (s : State) : (s.retire k).rvalid = s.rvalid := by cases s; rfl
@[simp] theorem retire_edom (k : Nat) (s : State) : (s.retire k).edom = s.edom := by cases s; rfl
@[simp] theorem retire_errIll (k : Nat) (s : State) : (s.retire k).errIll = s.errIll := by cases s; rfl
@[simp] theorem retire_errBusy (k : Nat) (s : State) : (s.retire k).errBusy = s.errBusy := by cases s; rfl
@[simp] theorem retire_phase (k : Nat) (s : State) : (s.retire k).phase = s.phase := by cases s; rfl
@[simp] theorem retire_scan (k : Nat) (s : State) : (s.retire k).scan = s.scan := by cases s; rfl
@[simp] theorem retire_script (k : Nat) (s : State) : (s.retire k).script = s.script := by cases s; rfl
@[simp] theorem retire_reads (k : Nat) (s : State) : (s.retire k).reads = s.reads := by cases s; rfl
@[simp] theorem retire_draws (k : Nat) (s : State) : (s.retire k).draws = s.draws := by cases s; rfl

@[simp] theorem tick_cells (s : State) : s.tick.cells = s.cells.raiseAll (s.pending.take (s.pending.length - s.draw.keep)) := by cases s; rfl
@[simp] theorem tick_pending (s : State) : s.tick.pending = s.pending.drop (s.pending.length - s.draw.keep) := by cases s; rfl
@[simp] theorem tick_arg (s : State) : s.tick.arg = s.arg := by cases s; rfl
@[simp] theorem tick_result (s : State) : s.tick.result = s.result := by cases s; rfl
@[simp] theorem tick_rvalid (s : State) : s.tick.rvalid = s.rvalid := by cases s; rfl
@[simp] theorem tick_edom (s : State) : s.tick.edom = s.edom := by cases s; rfl
@[simp] theorem tick_errIll (s : State) : s.tick.errIll = s.errIll := by cases s; rfl
@[simp] theorem tick_errBusy (s : State) : s.tick.errBusy = s.errBusy := by cases s; rfl
@[simp] theorem tick_phase (s : State) : s.tick.phase = s.phase := by cases s; rfl
@[simp] theorem tick_scan (s : State) : s.tick.scan = s.scan := by cases s; rfl
@[simp] theorem tick_script (s : State) : s.tick.script = s.script := by cases s; rfl
@[simp] theorem tick_reads (s : State) : s.tick.reads = s.reads := by cases s; rfl
@[simp] theorem tick_draws (s : State) : s.tick.draws = s.draws.tail := by cases s; rfl

@[simp] theorem raiseErrIll_cells (s : State) : s.raiseErrIll.cells = s.cells := rfl
@[simp] theorem raiseErrIll_pending (s : State) : s.raiseErrIll.pending = s.pending := rfl
@[simp] theorem raiseErrIll_arg (s : State) : s.raiseErrIll.arg = s.arg := rfl
@[simp] theorem raiseErrIll_result (s : State) : s.raiseErrIll.result = s.result := rfl
@[simp] theorem raiseErrIll_rvalid (s : State) : s.raiseErrIll.rvalid = s.rvalid := rfl
@[simp] theorem raiseErrIll_edom (s : State) : s.raiseErrIll.edom = s.edom := rfl
@[simp] theorem raiseErrIll_errIll (s : State) : s.raiseErrIll.errIll = stickyNext s.errIll false true := rfl
@[simp] theorem raiseErrIll_errBusy (s : State) : s.raiseErrIll.errBusy = s.errBusy := rfl
@[simp] theorem raiseErrIll_phase (s : State) : s.raiseErrIll.phase = s.phase := rfl
@[simp] theorem raiseErrIll_scan (s : State) : s.raiseErrIll.scan = s.scan := rfl
@[simp] theorem raiseErrIll_script (s : State) : s.raiseErrIll.script = s.script := rfl
@[simp] theorem raiseErrIll_reads (s : State) : s.raiseErrIll.reads = s.reads := rfl
@[simp] theorem raiseErrIll_draws (s : State) : s.raiseErrIll.draws = s.draws := rfl

@[simp] theorem raiseErrBusy_cells (s : State) : s.raiseErrBusy.cells = s.cells := rfl
@[simp] theorem raiseErrBusy_pending (s : State) : s.raiseErrBusy.pending = s.pending := rfl
@[simp] theorem raiseErrBusy_arg (s : State) : s.raiseErrBusy.arg = s.arg := rfl
@[simp] theorem raiseErrBusy_result (s : State) : s.raiseErrBusy.result = s.result := rfl
@[simp] theorem raiseErrBusy_rvalid (s : State) : s.raiseErrBusy.rvalid = s.rvalid := rfl
@[simp] theorem raiseErrBusy_edom (s : State) : s.raiseErrBusy.edom = s.edom := rfl
@[simp] theorem raiseErrBusy_errIll (s : State) : s.raiseErrBusy.errIll = s.errIll := rfl
@[simp] theorem raiseErrBusy_errBusy (s : State) : s.raiseErrBusy.errBusy = stickyNext s.errBusy false true := rfl
@[simp] theorem raiseErrBusy_phase (s : State) : s.raiseErrBusy.phase = s.phase := rfl
@[simp] theorem raiseErrBusy_scan (s : State) : s.raiseErrBusy.scan = s.scan := rfl
@[simp] theorem raiseErrBusy_script (s : State) : s.raiseErrBusy.script = s.script := rfl
@[simp] theorem raiseErrBusy_reads (s : State) : s.raiseErrBusy.reads = s.reads := rfl
@[simp] theorem raiseErrBusy_draws (s : State) : s.raiseErrBusy.draws = s.draws := rfl

@[simp] theorem accept_cells (c : Instr) (s : State) : (s.accept c).cells = s.cells := rfl
@[simp] theorem accept_pending (c : Instr) (s : State) : (s.accept c).pending = s.pending := rfl
@[simp] theorem accept_arg (c : Instr) (s : State) : (s.accept c).arg = s.arg := rfl
@[simp] theorem accept_result (c : Instr) (s : State) : (s.accept c).result = s.result := rfl
@[simp] theorem accept_rvalid (c : Instr) (s : State) : (s.accept c).rvalid = s.rvalid := rfl
@[simp] theorem accept_edom (c : Instr) (s : State) : (s.accept c).edom = s.edom := rfl
@[simp] theorem accept_errIll (c : Instr) (s : State) : (s.accept c).errIll = s.errIll := rfl
@[simp] theorem accept_errBusy (c : Instr) (s : State) : (s.accept c).errBusy = s.errBusy := rfl
@[simp] theorem accept_phase (c : Instr) (s : State) : (s.accept c).phase = .running c s.arg := rfl
@[simp] theorem accept_scan (c : Instr) (s : State) : (s.accept c).scan = s.scan := rfl
@[simp] theorem accept_script (c : Instr) (s : State) : (s.accept c).script = s.script := rfl
@[simp] theorem accept_reads (c : Instr) (s : State) : (s.accept c).reads = s.reads := rfl
@[simp] theorem accept_draws (c : Instr) (s : State) : (s.accept c).draws = s.draws := rfl

@[simp] theorem hardReset_cells (s : State) : s.hardReset.cells = [] := rfl
@[simp] theorem hardReset_pending (s : State) : s.hardReset.pending = [] := rfl
@[simp] theorem hardReset_arg (s : State) : s.hardReset.arg = 0#32 := rfl
@[simp] theorem hardReset_result (s : State) : s.hardReset.result = 0#64 := rfl
@[simp] theorem hardReset_rvalid (s : State) : s.hardReset.rvalid = false := rfl
@[simp] theorem hardReset_edom (s : State) : s.hardReset.edom = false := rfl
@[simp] theorem hardReset_errIll (s : State) : s.hardReset.errIll = false := rfl
@[simp] theorem hardReset_errBusy (s : State) : s.hardReset.errBusy = false := rfl
@[simp] theorem hardReset_phase (s : State) : s.hardReset.phase = .inReset := rfl
@[simp] theorem hardReset_scan (s : State) : s.hardReset.scan = none := rfl
@[simp] theorem hardReset_script (s : State) : s.hardReset.script = s.script := rfl
@[simp] theorem hardReset_reads (s : State) : s.hardReset.reads = s.reads := rfl
@[simp] theorem hardReset_draws (s : State) : s.hardReset.draws = s.draws := rfl

@[simp] theorem writeStatus_cells (v : Word) (s : State) : (s.writeStatus v).cells = s.cells := rfl
@[simp] theorem writeStatus_pending (v : Word) (s : State) : (s.writeStatus v).pending = s.pending := rfl
@[simp] theorem writeStatus_arg (v : Word) (s : State) : (s.writeStatus v).arg = s.arg := rfl
@[simp] theorem writeStatus_result (v : Word) (s : State) : (s.writeStatus v).result = s.result := rfl
@[simp] theorem writeStatus_rvalid (v : Word) (s : State) : (s.writeStatus v).rvalid = s.rvalid := rfl
@[simp] theorem writeStatus_edom (v : Word) (s : State) : (s.writeStatus v).edom = s.edom := rfl
@[simp] theorem writeStatus_errIll (v : Word) (s : State) : (s.writeStatus v).errIll = stickyNext s.errIll (v.getLsbD 3) false := rfl
@[simp] theorem writeStatus_errBusy (v : Word) (s : State) : (s.writeStatus v).errBusy = stickyNext s.errBusy (v.getLsbD 4) false := rfl
@[simp] theorem writeStatus_phase (v : Word) (s : State) : (s.writeStatus v).phase = s.phase := rfl
@[simp] theorem writeStatus_scan (v : Word) (s : State) : (s.writeStatus v).scan = s.scan := rfl
@[simp] theorem writeStatus_script (v : Word) (s : State) : (s.writeStatus v).script = s.script := rfl
@[simp] theorem writeStatus_reads (v : Word) (s : State) : (s.writeStatus v).reads = s.reads := rfl
@[simp] theorem writeStatus_draws (v : Word) (s : State) : (s.writeStatus v).draws = s.draws := rfl

@[simp] theorem logRead_cells (v : Word) (s : State) : (s.logRead v).cells = s.cells := rfl
@[simp] theorem logRead_pending (v : Word) (s : State) : (s.logRead v).pending = s.pending := rfl
@[simp] theorem logRead_arg (v : Word) (s : State) : (s.logRead v).arg = s.arg := rfl
@[simp] theorem logRead_result (v : Word) (s : State) : (s.logRead v).result = s.result := rfl
@[simp] theorem logRead_rvalid (v : Word) (s : State) : (s.logRead v).rvalid = s.rvalid := rfl
@[simp] theorem logRead_edom (v : Word) (s : State) : (s.logRead v).edom = s.edom := rfl
@[simp] theorem logRead_errIll (v : Word) (s : State) : (s.logRead v).errIll = s.errIll := rfl
@[simp] theorem logRead_errBusy (v : Word) (s : State) : (s.logRead v).errBusy = s.errBusy := rfl
@[simp] theorem logRead_phase (v : Word) (s : State) : (s.logRead v).phase = s.phase := rfl
@[simp] theorem logRead_scan (v : Word) (s : State) : (s.logRead v).scan = s.scan := rfl
@[simp] theorem logRead_script (v : Word) (s : State) : (s.logRead v).script = s.script := rfl
@[simp] theorem logRead_reads (v : Word) (s : State) : (s.logRead v).reads = s.reads ++ [v] := rfl
@[simp] theorem logRead_draws (v : Word) (s : State) : (s.logRead v).draws = s.draws := rfl

@[simp] theorem completeHash_cells (h : Word) (s : State) : (completeHash h s).cells = s.cells := by cases s; rfl
@[simp] theorem completeHash_pending (h : Word) (s : State) : (completeHash h s).pending = s.pending := by cases s; rfl
@[simp] theorem completeHash_arg (h : Word) (s : State) : (completeHash h s).arg = s.arg := by cases s; rfl
@[simp] theorem completeHash_result (h : Word) (s : State) : (completeHash h s).result = 0#32 ++ h := by cases s; rfl
@[simp] theorem completeHash_rvalid (h : Word) (s : State) : (completeHash h s).rvalid = true := by cases s; rfl
@[simp] theorem completeHash_edom (h : Word) (s : State) : (completeHash h s).edom = s.edom := by cases s; rfl
@[simp] theorem completeHash_errIll (h : Word) (s : State) : (completeHash h s).errIll = s.errIll := by cases s; rfl
@[simp] theorem completeHash_errBusy (h : Word) (s : State) : (completeHash h s).errBusy = s.errBusy := by cases s; rfl
@[simp] theorem completeHash_phase (h : Word) (s : State) : (completeHash h s).phase = .idle := by cases s; rfl
@[simp] theorem completeHash_scan (h : Word) (s : State) : (completeHash h s).scan = s.scan := by cases s; rfl
@[simp] theorem completeHash_script (h : Word) (s : State) : (completeHash h s).script = s.script := by cases s; rfl
@[simp] theorem completeHash_reads (h : Word) (s : State) : (completeHash h s).reads = s.reads := by cases s; rfl
@[simp] theorem completeHash_draws (h : Word) (s : State) : (completeHash h s).draws = s.draws := by cases s; rfl

@[simp] theorem completeEst_cells (e : BitVec 64 × Bool) (s : State) : (completeEst e s).cells = s.cells := by cases s; rfl
@[simp] theorem completeEst_pending (e : BitVec 64 × Bool) (s : State) : (completeEst e s).pending = s.pending := by cases s; rfl
@[simp] theorem completeEst_arg (e : BitVec 64 × Bool) (s : State) : (completeEst e s).arg = s.arg := by cases s; rfl
@[simp] theorem completeEst_result (e : BitVec 64 × Bool) (s : State) : (completeEst e s).result = e.1 := by cases s; rfl
@[simp] theorem completeEst_rvalid (e : BitVec 64 × Bool) (s : State) : (completeEst e s).rvalid = true := by cases s; rfl
@[simp] theorem completeEst_edom (e : BitVec 64 × Bool) (s : State) : (completeEst e s).edom = e.2 := by cases s; rfl
@[simp] theorem completeEst_errIll (e : BitVec 64 × Bool) (s : State) : (completeEst e s).errIll = s.errIll := by cases s; rfl
@[simp] theorem completeEst_errBusy (e : BitVec 64 × Bool) (s : State) : (completeEst e s).errBusy = s.errBusy := by cases s; rfl
@[simp] theorem completeEst_phase (e : BitVec 64 × Bool) (s : State) : (completeEst e s).phase = .idle := by cases s; rfl
@[simp] theorem completeEst_scan (e : BitVec 64 × Bool) (s : State) : (completeEst e s).scan = none := by cases s; rfl
@[simp] theorem completeEst_script (e : BitVec 64 × Bool) (s : State) : (completeEst e s).script = s.script := by cases s; rfl
@[simp] theorem completeEst_reads (e : BitVec 64 × Bool) (s : State) : (completeEst e s).reads = s.reads := by cases s; rfl
@[simp] theorem completeEst_draws (e : BitVec 64 × Bool) (s : State) : (completeEst e s).draws = s.draws := by cases s; rfl

@[simp] theorem completeRdreg_cells (i : Nat) (s : State) : (completeRdreg i s).cells = s.cells := by cases s; rfl
@[simp] theorem completeRdreg_pending (i : Nat) (s : State) : (completeRdreg i s).pending = s.pending := by cases s; rfl
@[simp] theorem completeRdreg_arg (i : Nat) (s : State) : (completeRdreg i s).arg = s.arg := by cases s; rfl
@[simp] theorem completeRdreg_result (i : Nat) (s : State) : (completeRdreg i s).result = (s.reg i).setWidth 64 := by cases s; rfl
@[simp] theorem completeRdreg_rvalid (i : Nat) (s : State) : (completeRdreg i s).rvalid = true := by cases s; rfl
@[simp] theorem completeRdreg_edom (i : Nat) (s : State) : (completeRdreg i s).edom = s.edom := by cases s; rfl
@[simp] theorem completeRdreg_errIll (i : Nat) (s : State) : (completeRdreg i s).errIll = s.errIll := by cases s; rfl
@[simp] theorem completeRdreg_errBusy (i : Nat) (s : State) : (completeRdreg i s).errBusy = s.errBusy := by cases s; rfl
@[simp] theorem completeRdreg_phase (i : Nat) (s : State) : (completeRdreg i s).phase = .idle := by cases s; rfl
@[simp] theorem completeRdreg_scan (i : Nat) (s : State) : (completeRdreg i s).scan = s.scan := by cases s; rfl
@[simp] theorem completeRdreg_script (i : Nat) (s : State) : (completeRdreg i s).script = s.script := by cases s; rfl
@[simp] theorem completeRdreg_reads (i : Nat) (s : State) : (completeRdreg i s).reads = s.reads := by cases s; rfl
@[simp] theorem completeRdreg_draws (i : Nat) (s : State) : (completeRdreg i s).draws = s.draws := by cases s; rfl

@[simp] theorem goOn_cells (n : Nat) (s : State) : (goOn n s).cells = s.cells := by cases s; rfl
@[simp] theorem goOn_pending (n : Nat) (s : State) : (goOn n s).pending = s.pending := by cases s; rfl
@[simp] theorem goOn_arg (n : Nat) (s : State) : (goOn n s).arg = s.arg := by cases s; rfl
@[simp] theorem goOn_result (n : Nat) (s : State) : (goOn n s).result = s.result := by cases s; rfl
@[simp] theorem goOn_rvalid (n : Nat) (s : State) : (goOn n s).rvalid = s.rvalid := by cases s; rfl
@[simp] theorem goOn_edom (n : Nat) (s : State) : (goOn n s).edom = s.edom := by cases s; rfl
@[simp] theorem goOn_errIll (n : Nat) (s : State) : (goOn n s).errIll = s.errIll := by cases s; rfl
@[simp] theorem goOn_errBusy (n : Nat) (s : State) : (goOn n s).errBusy = s.errBusy := by cases s; rfl
@[simp] theorem goOn_phase (n : Nat) (s : State) : (goOn n s).phase = s.phase := by cases s; rfl
@[simp] theorem goOn_scan (n : Nat) (s : State) : (goOn n s).scan = s.scan.map (Scan.advance n s.sketch) := by cases s; rfl
@[simp] theorem goOn_script (n : Nat) (s : State) : (goOn n s).script = s.script := by cases s; rfl
@[simp] theorem goOn_reads (n : Nat) (s : State) : (goOn n s).reads = s.reads := by cases s; rfl
@[simp] theorem goOn_draws (n : Nat) (s : State) : (goOn n s).draws = s.draws := by cases s; rfl

@[simp] theorem acceptHash_cells (s : State) : (acceptHash s).cells = s.cells := rfl
@[simp] theorem acceptHash_pending (s : State) : (acceptHash s).pending = s.pending := rfl
@[simp] theorem acceptHash_arg (s : State) : (acceptHash s).arg = s.arg := rfl
@[simp] theorem acceptHash_result (s : State) : (acceptHash s).result = s.result := rfl
@[simp] theorem acceptHash_rvalid (s : State) : (acceptHash s).rvalid = false := rfl
@[simp] theorem acceptHash_edom (s : State) : (acceptHash s).edom = s.edom := rfl
@[simp] theorem acceptHash_errIll (s : State) : (acceptHash s).errIll = s.errIll := rfl
@[simp] theorem acceptHash_errBusy (s : State) : (acceptHash s).errBusy = s.errBusy := rfl
@[simp] theorem acceptHash_phase (s : State) : (acceptHash s).phase = .running .hash s.arg := rfl
@[simp] theorem acceptHash_scan (s : State) : (acceptHash s).scan = s.scan := rfl
@[simp] theorem acceptHash_script (s : State) : (acceptHash s).script = s.script := rfl
@[simp] theorem acceptHash_reads (s : State) : (acceptHash s).reads = s.reads := rfl
@[simp] theorem acceptHash_draws (s : State) : (acceptHash s).draws = s.draws := rfl

@[simp] theorem acceptAdd_cells (s : State) : (acceptAdd s).cells = s.cells := by cases s; rfl
@[simp] theorem acceptAdd_pending (s : State) : (acceptAdd s).pending = s.pending ++ [pendingOf (valueOperand s.arg)] := by cases s; rfl
@[simp] theorem acceptAdd_arg (s : State) : (acceptAdd s).arg = s.arg := by cases s; rfl
@[simp] theorem acceptAdd_result (s : State) : (acceptAdd s).result = s.result := by cases s; rfl
@[simp] theorem acceptAdd_rvalid (s : State) : (acceptAdd s).rvalid = s.rvalid := by cases s; rfl
@[simp] theorem acceptAdd_edom (s : State) : (acceptAdd s).edom = s.edom := by cases s; rfl
@[simp] theorem acceptAdd_errIll (s : State) : (acceptAdd s).errIll = s.errIll := by cases s; rfl
@[simp] theorem acceptAdd_errBusy (s : State) : (acceptAdd s).errBusy = s.errBusy := by cases s; rfl
@[simp] theorem acceptAdd_phase (s : State) : (acceptAdd s).phase = .running .add s.arg := by cases s; rfl
@[simp] theorem acceptAdd_scan (s : State) : (acceptAdd s).scan = s.scan := by cases s; rfl
@[simp] theorem acceptAdd_script (s : State) : (acceptAdd s).script = s.script := by cases s; rfl
@[simp] theorem acceptAdd_reads (s : State) : (acceptAdd s).reads = s.reads := by cases s; rfl
@[simp] theorem acceptAdd_draws (s : State) : (acceptAdd s).draws = s.draws := by cases s; rfl

@[simp] theorem acceptEst_cells (s : State) : (acceptEst s).cells = s.cells := rfl
@[simp] theorem acceptEst_pending (s : State) : (acceptEst s).pending = s.pending := rfl
@[simp] theorem acceptEst_arg (s : State) : (acceptEst s).arg = s.arg := rfl
@[simp] theorem acceptEst_result (s : State) : (acceptEst s).result = s.result := rfl
@[simp] theorem acceptEst_rvalid (s : State) : (acceptEst s).rvalid = false := rfl
@[simp] theorem acceptEst_edom (s : State) : (acceptEst s).edom = false := rfl
@[simp] theorem acceptEst_errIll (s : State) : (acceptEst s).errIll = s.errIll := rfl
@[simp] theorem acceptEst_errBusy (s : State) : (acceptEst s).errBusy = s.errBusy := rfl
@[simp] theorem acceptEst_phase (s : State) : (acceptEst s).phase = .running .est s.arg := rfl
@[simp] theorem acceptEst_scan (s : State) : (acceptEst s).scan = some Scan.start := rfl
@[simp] theorem acceptEst_script (s : State) : (acceptEst s).script = s.script := rfl
@[simp] theorem acceptEst_reads (s : State) : (acceptEst s).reads = s.reads := rfl
@[simp] theorem acceptEst_draws (s : State) : (acceptEst s).draws = s.draws := rfl

@[simp] theorem acceptRdreg_cells (s : State) : (acceptRdreg s).cells = s.cells := rfl
@[simp] theorem acceptRdreg_pending (s : State) : (acceptRdreg s).pending = s.pending := rfl
@[simp] theorem acceptRdreg_arg (s : State) : (acceptRdreg s).arg = s.arg := rfl
@[simp] theorem acceptRdreg_result (s : State) : (acceptRdreg s).result = s.result := rfl
@[simp] theorem acceptRdreg_rvalid (s : State) : (acceptRdreg s).rvalid = false := rfl
@[simp] theorem acceptRdreg_edom (s : State) : (acceptRdreg s).edom = s.edom := rfl
@[simp] theorem acceptRdreg_errIll (s : State) : (acceptRdreg s).errIll = s.errIll := rfl
@[simp] theorem acceptRdreg_errBusy (s : State) : (acceptRdreg s).errBusy = s.errBusy := rfl
@[simp] theorem acceptRdreg_phase (s : State) : (acceptRdreg s).phase = .running .rdreg s.arg := rfl
@[simp] theorem acceptRdreg_scan (s : State) : (acceptRdreg s).scan = s.scan := rfl
@[simp] theorem acceptRdreg_script (s : State) : (acceptRdreg s).script = s.script := rfl
@[simp] theorem acceptRdreg_reads (s : State) : (acceptRdreg s).reads = s.reads := rfl
@[simp] theorem acceptRdreg_draws (s : State) : (acceptRdreg s).draws = s.draws := rfl

@[simp] theorem withFetchWord_cells (s : State) (nbits w : Nat) : (s.withFetchWord nbits w).cells = s.cells := rfl
@[simp] theorem withFetchWord_pending (s : State) (nbits w : Nat) : (s.withFetchWord nbits w).pending = s.pending := rfl
@[simp] theorem withFetchWord_arg (s : State) (nbits w : Nat) : (s.withFetchWord nbits w).arg = s.arg := rfl
@[simp] theorem withFetchWord_result (s : State) (nbits w : Nat) : (s.withFetchWord nbits w).result = s.result := rfl
@[simp] theorem withFetchWord_rvalid (s : State) (nbits w : Nat) : (s.withFetchWord nbits w).rvalid = s.rvalid := rfl
@[simp] theorem withFetchWord_edom (s : State) (nbits w : Nat) : (s.withFetchWord nbits w).edom = s.edom := rfl
@[simp] theorem withFetchWord_errIll (s : State) (nbits w : Nat) : (s.withFetchWord nbits w).errIll = s.errIll := rfl
@[simp] theorem withFetchWord_errBusy (s : State) (nbits w : Nat) : (s.withFetchWord nbits w).errBusy = s.errBusy := rfl
@[simp] theorem withFetchWord_phase (s : State) (nbits w : Nat) : (s.withFetchWord nbits w).phase = .idle := rfl
@[simp] theorem withFetchWord_scan (s : State) (nbits w : Nat) : (s.withFetchWord nbits w).scan = none := rfl
@[simp] theorem withFetchWord_script (s : State) (nbits w : Nat) : (s.withFetchWord nbits w).script = wr .cmd (tableWord nbits w) :: s.script := rfl
@[simp] theorem withFetchWord_reads (s : State) (nbits w : Nat) : (s.withFetchWord nbits w).reads = s.reads := rfl
@[simp] theorem withFetchWord_draws (s : State) (nbits w : Nat) : (s.withFetchWord nbits w).draws = s.draws := rfl

end Sys2Proof.Machine
end

