-- ==== Sys2Proof/Laws/Memory.lean ====
section
/-! SUPPORT. The laws of the sketch space: read after write, the canonical form and the register domain, and what pending
writes do to them. -/

namespace Sys2Proof.Machine

namespace Memory

theorem read_write_same (mem : Memory) (a : Nat) (v : Byte) (hv : v ≠ 0#8) : (mem.write a v).read a = v := by
  induction mem with
  | nil => simp [write, read, hv]
  | cons c rest ih =>
    obtain ⟨k, w⟩ := c
    by_cases h1 : a < k
    · simp [write, h1, hv, read]
    · by_cases h2 : a = k
      · simp [write, h2, hv, read]
      · simp [write, h1, h2, read, ih]

theorem read_write_other (mem : Memory) (a b : Nat) (v : Byte) (hv : v ≠ 0#8) (hb : b ≠ a) :
    (mem.write a v).read b = mem.read b := by
  induction mem with
  | nil => simp [write, read, hv, hb]
  | cons c rest ih =>
    obtain ⟨k, w⟩ := c
    by_cases h1 : a < k
    · simp [write, h1, hv, read, hb]
    · by_cases h2 : a = k
      · subst h2
        simp [write, hv, read, hb]
      · simp [write, h1, h2, read, ih]

/-- The canonical form bounds every listed index from below. -/
theorem read_below (mem : Memory) (lo a : Nat) (h : wfFrom lo mem = true) (ha : a < lo) : mem.read a = 0#8 := by
  induction mem generalizing lo with
  | nil => rfl
  | cons c rest ih =>
    obtain ⟨k, w⟩ := c
    simp only [wfFrom, Bool.and_eq_true, decide_eq_true_eq] at h
    rw [read, if_neg (by omega)]
    exact ih (k + 1) h.2 (by omega)

/-- Outside SK nothing is listed. -/
theorem read_outside (mem : Memory) (lo a : Nat) (h : wfFrom lo mem = true) (ha : Config.m ≤ a) : mem.read a = 0#8 := by
  induction mem generalizing lo with
  | nil => rfl
  | cons c rest ih =>
    obtain ⟨k, w⟩ := c
    simp only [wfFrom, Bool.and_eq_true, decide_eq_true_eq] at h
    rw [read, if_neg (by omega)]
    exact ih (k + 1) h.2

theorem wfFrom_mono (mem : Memory) (lo lo' : Nat) (h : wfFrom lo mem = true) (hl : lo' ≤ lo) : wfFrom lo' mem = true := by
  cases mem with
  | nil => rfl
  | cons c rest =>
    simp only [wfFrom, Bool.and_eq_true, decide_eq_true_eq] at h ⊢
    exact ⟨⟨⟨by omega, h.1.1.2⟩, h.1.2⟩, h.2⟩

theorem write_wfFrom (mem : Memory) (lo a : Nat) (v : Byte) (h : wfFrom lo mem = true) (hlo : lo ≤ a)
    (ha : a < Config.m) : wfFrom lo (mem.write a v) = true := by
  induction mem generalizing lo with
  | nil => by_cases hv : v = 0#8 <;> simp_all [write, wfFrom]
  | cons c rest ih =>
    obtain ⟨k, w⟩ := c
    have h' := h
    simp only [wfFrom, Bool.and_eq_true, decide_eq_true_eq, decide_not, Bool.not_eq_true'] at h
    by_cases h1 : a < k
    · by_cases hv : v = 0#8
      · simp only [write, h1, hv, if_true]
        exact h'
      · have hk : wfFrom (a + 1) ((k, w) :: rest) = true := by
          simp only [wfFrom, Bool.and_eq_true, decide_eq_true_eq, decide_not, Bool.not_eq_true']
          exact ⟨⟨⟨by omega, h.1.1.2⟩, h.1.2⟩, h.2⟩
        simp only [write, h1, hv, if_true, if_false]
        rw [wfFrom, hk]
        simp [hlo, ha, hv]
    · by_cases h2 : a = k
      · by_cases hv : v = 0#8
        · simp only [write, h2, hv, if_true, if_false, lt_irrefl]
          exact wfFrom_mono _ _ _ h.2 (by omega)
        · subst h2
          simp only [write, hv, if_true, if_false, lt_irrefl]
          rw [wfFrom, h.2]
          simp [hlo, ha, hv]
      · simp only [write, h1, h2, if_false]
        rw [wfFrom, ih (k + 1) h.2 (by omega)]
        simp [h.1.1.1, h.1.1.2, h.1.2]

/-- A write to a register of SK keeps the canonical form. -/
theorem write_wf (mem : Memory) (a : Nat) (v : Byte) (h : mem.wf = true) (ha : a < Config.m) :
    (mem.write a v).wf = true :=
  write_wfFrom mem 0 a v h (Nat.zero_le a) ha

theorem write_inDomain (mem : Memory) (a : Nat) (v : Byte) (h : mem.inDomain = true) (hv : Machine.inDomain v = true) :
    (mem.write a v).inDomain = true := by
  induction mem with
  | nil =>
    unfold write
    split
    · rfl
    · simp [inDomain, hv]
  | cons c rest ih =>
    obtain ⟨k, w⟩ := c
    have hc : Machine.inDomain w = true ∧ Memory.inDomain rest = true := by
      simpa only [inDomain, List.all_cons, Bool.and_eq_true] using h
    have cons_inDomain : ∀ (b : Nat) (u : Byte) (r : Memory), Machine.inDomain u = true → Memory.inDomain r = true →
        Memory.inDomain ((b, u) :: r) = true := by
      intro b u r hu hr
      simp only [inDomain, List.all_cons, Bool.and_eq_true] at hr ⊢
      exact ⟨hu, hr⟩
    unfold write
    split_ifs
    · exact h
    · exact cons_inDomain _ _ _ hv h
    · exact hc.2
    · exact cons_inDomain _ _ _ hv hc.2
    · exact cons_inDomain _ _ _ hc.1 (ih hc.2)

/-- The memory right after reset is in canonical form. -/
theorem reset_wf : State.reset.cells.wf = true := rfl

/-- Equal reads are equal memories: the form is canonical. -/
theorem ext_of_read (mem mem' : Memory) (lo : Nat) (h : wfFrom lo mem = true) (h' : wfFrom lo mem' = true)
    (hr : ∀ a, mem.read a = mem'.read a) : mem = mem' := by
  induction mem generalizing lo mem' with
  | nil =>
    cases mem' with
    | nil => rfl
    | cons c rest =>
      obtain ⟨k, w⟩ := c
      have hk := hr k
      simp only [wfFrom, Bool.and_eq_true, decide_eq_true_eq, decide_not, Bool.not_eq_true'] at h'
      simp only [read, if_true] at hk
      simp [← hk] at h'
  | cons c rest ih =>
    obtain ⟨k, w⟩ := c
    simp only [wfFrom, Bool.and_eq_true, decide_eq_true_eq, decide_not, Bool.not_eq_true', decide_eq_false_iff_not] at h
    cases mem' with
    | nil =>
      have hk := hr k
      simp only [read, if_true] at hk
      exact absurd hk h.1.2
    | cons c' rest' =>
      obtain ⟨k', w'⟩ := c'
      simp only [wfFrom, Bool.and_eq_true, decide_eq_true_eq, decide_not, Bool.not_eq_true', decide_eq_false_iff_not] at h'
      have hk : k = k' := by
        rcases Nat.lt_trichotomy k k' with hlt | heq | hgt
        · have := hr k
          rw [read, if_pos rfl, read, if_neg (by omega), read_below rest' (k' + 1) k h'.2 (by omega)] at this
          exact absurd this h.1.2
        · exact heq
        · have := hr k'
          rw [read, if_neg (by omega), read_below rest (k + 1) k' h.2 (by omega), read, if_pos rfl] at this
          exact absurd this.symm h'.1.2
      subst hk
      have hw : w = w' := by simpa [read] using hr k
      subst hw
      have hrest : rest = rest' := by
        refine ih rest' (k + 1) h.2 h'.2 fun a => ?_
        by_cases ha : a = k
        · subst ha
          rw [read_below rest (a + 1) a h.2 (by omega), read_below rest' (a + 1) a h'.2 (by omega)]
        · simpa [read, ha] using hr a
      rw [hrest]

theorem read_inDomain (mem : Memory) (h : mem.inDomain = true) (a : Nat) : Machine.inDomain (mem.read a) = true := by
  induction mem with
  | nil => simp [read, Machine.inDomain]
  | cons c rest ih =>
    simp only [inDomain, List.all_cons, Bool.and_eq_true] at h
    by_cases ha : a = c.1
    · simpa [read, ha] using h.1
    · simpa [read, ha] using ih h.2

/-! Pending writes. -/

/-- A raise leaves the larger of the register and the rank (R73, R135). -/
theorem read_raiseTo (mem : Memory) (p : PendingAdd) (a : Nat) :
    (mem.raiseTo p).read a = if a = p.index.toNat ∧ mem.read a < p.rank then p.rank else mem.read a := by
  unfold raiseTo
  by_cases h : mem.read p.index.toNat < p.rank
  · have h0 : p.rank ≠ 0#8 := by
      intro h0
      simp [h0] at h
    rw [if_pos h]
    by_cases ha : a = p.index.toNat
    · subst ha
      rw [if_pos ⟨rfl, h⟩, read_write_same mem _ _ h0]
    · rw [if_neg (fun hc => ha hc.1), read_write_other mem _ _ _ h0 ha]
  · rw [if_neg h, if_neg]
    rintro ⟨rfl, hc⟩
    exact h hc

theorem raiseTo_wf (mem : Memory) (p : PendingAdd) (h : mem.wf = true) : (mem.raiseTo p).wf = true := by
  unfold raiseTo
  split
  · exact write_wf mem _ _ h p.index.isLt
  · exact h

theorem raiseTo_inDomain (mem : Memory) (p : PendingAdd) (h : mem.inDomain = true) (hp : Machine.inDomain p.rank = true) :
    (mem.raiseTo p).inDomain = true := by
  unfold raiseTo
  split
  · exact write_inDomain mem _ _ h hp
  · exact h

@[simp] theorem raiseAll_nil (mem : Memory) : mem.raiseAll [] = mem := rfl

theorem raiseAll_singleton (mem : Memory) (p : PendingAdd) : mem.raiseAll [p] = mem.raiseTo p := rfl

theorem raiseAll_append (mem : Memory) (ps qs : List PendingAdd) :
    mem.raiseAll (ps ++ qs) = (mem.raiseAll ps).raiseAll qs := List.foldl_append

theorem raiseAll_wf (mem : Memory) (ps : List PendingAdd) (h : mem.wf = true) : (mem.raiseAll ps).wf = true := by
  induction ps generalizing mem with
  | nil => exact h
  | cons p ps ih => exact ih (mem.raiseTo p) (raiseTo_wf mem p h)

theorem raiseAll_inDomain (mem : Memory) (ps : List PendingAdd) (h : mem.inDomain = true)
    (hp : ∀ p ∈ ps, Machine.inDomain p.rank = true) : (mem.raiseAll ps).inDomain = true := by
  induction ps generalizing mem with
  | nil => exact h
  | cons p ps ih =>
    exact ih (mem.raiseTo p) (raiseTo_inDomain mem p h (hp p (by simp))) fun q hq => hp q (by simp [hq])

end Memory

end Sys2Proof.Machine
end

