-- ==== Sys2Proof/Laws/Cycle.lean ====
section
/-! SUPPORT. What the end of a step can do, said once: pending writes are invisible in the sketch, and a step that ends in a
next state is one of the cases of `endStep_cases` and `finish_cases`. -/

namespace Sys2Proof.Machine

/-! The sketch under each update: only an ADD's acceptance changes it. -/

theorem State.reg_def (s : State) (a : Nat) : s.reg a = s.sketch.read a := rfl

theorem State.sketch_congr {s t : State} (hc : t.cells = s.cells) (hp : t.pending = s.pending) : t.sketch = s.sketch := by
  unfold State.sketch
  rw [hc, hp]

/-- Writing some of the pending ADDs changes no register as later commands see it (R50, R232). -/
@[simp] theorem retire_sketch (k : Nat) (s : State) : (s.retire k).sketch = s.sketch := by
  unfold State.sketch
  rw [retire_cells, retire_pending, ← Memory.raiseAll_append, List.take_append_drop]

@[simp] theorem tick_sketch (s : State) : s.tick.sketch = s.sketch := by
  unfold State.sketch
  rw [tick_cells, tick_pending, ← Memory.raiseAll_append, List.take_append_drop]

@[simp] theorem goOn_sketch (n : Nat) (s : State) : (goOn n s).sketch = s.sketch := State.sketch_congr (by simp) (by simp)
@[simp] theorem raiseErrIll_sketch (s : State) : s.raiseErrIll.sketch = s.sketch := State.sketch_congr (by simp) (by simp)
@[simp] theorem raiseErrBusy_sketch (s : State) : s.raiseErrBusy.sketch = s.sketch := State.sketch_congr (by simp) (by simp)
@[simp] theorem accept_sketch (c : Instr) (s : State) : (s.accept c).sketch = s.sketch :=
  State.sketch_congr (by simp) (by simp)
@[simp] theorem acceptHash_sketch (s : State) : (acceptHash s).sketch = s.sketch := State.sketch_congr (by simp) (by simp)
@[simp] theorem acceptEst_sketch (s : State) : (acceptEst s).sketch = s.sketch := State.sketch_congr (by simp) (by simp)
@[simp] theorem acceptRdreg_sketch (s : State) : (acceptRdreg s).sketch = s.sketch :=
  State.sketch_congr (by simp) (by simp)
@[simp] theorem completeHash_sketch (h : Word) (s : State) : (completeHash h s).sketch = s.sketch :=
  State.sketch_congr (by simp) (by simp)
@[simp] theorem completeEst_sketch (e : BitVec 64 × Bool) (s : State) : (completeEst e s).sketch = s.sketch :=
  State.sketch_congr (by simp) (by simp)
@[simp] theorem completeRdreg_sketch (i : Nat) (s : State) : (completeRdreg i s).sketch = s.sketch :=
  State.sketch_congr (by simp) (by simp)
@[simp] theorem writeStatus_sketch (v : Word) (s : State) : (s.writeStatus v).sketch = s.sketch :=
  State.sketch_congr (by simp) (by simp)
@[simp] theorem logRead_sketch (v : Word) (s : State) : (s.logRead v).sketch = s.sketch :=
  State.sketch_congr (by simp) (by simp)
@[simp] theorem hardReset_sketch (s : State) : s.hardReset.sketch = [] := rfl

/-- An accepted ADD counts at once (R50, R70, R135). -/
@[simp] theorem acceptAdd_sketch (s : State) :
    (acceptAdd s).sketch = s.sketch.raiseTo (pendingOf (valueOperand s.arg)) := by
  unfold State.sketch
  rw [acceptAdd_cells, acceptAdd_pending, Memory.raiseAll_append, Memory.raiseAll_singleton]

@[simp] theorem tick_reg (s : State) (a : Nat) : s.tick.reg a = s.reg a := by rw [State.reg_def, tick_sketch, State.reg_def]

/-! The end of a step. -/

theorem finish_inReset {s : State} (hp : s.phase = .inReset) : finish s = .next s := by unfold finish; rw [hp]
theorem finish_idle {s : State} (hp : s.phase = .idle) : finish s = .next s := by unfold finish; rw [hp]
theorem finish_clearing {s : State} (hp : s.phase = .clearing) :
    finish s = .next { s with cells := [], pending := [], phase := .idle } := by unfold finish; rw [hp]
theorem finish_nop {s : State} {x : Word} (hp : s.phase = .running .nop x) :
    finish s = .next { s with phase := .idle } := by unfold finish; rw [hp]
theorem finish_add {s : State} {x : Word} (hp : s.phase = .running .add x) :
    finish s = .next { s with phase := .idle } := by unfold finish; rw [hp]
theorem finish_hash {s : State} {x : Word} (hp : s.phase = .running .hash x) :
    finish s = .next (completeHash (hash32 (valueOperand x)) s) := by unfold finish; rw [hp]
theorem finish_est {s : State} {x : Word} (hp : s.phase = .running .est x) :
    finish s = if s.sketch.inDomain then .next (completeEst ((s.scan.getD Scan.start).complete s.sketch).estimate s)
      else .refused .registerOutOfDomain := by unfold finish; rw [hp]
theorem finish_rdreg {s : State} {x : Word} (hp : s.phase = .running .rdreg x) :
    finish s = if indexLegal x then
        if inDomain (s.reg (indexOperand x)) then .next (completeRdreg (indexOperand x) s)
        else .refused .registerOutOfDomain
      else .fault .noSuchCell := by unfold finish; rw [hp]

/-- How a command in flight, or the clear, ends. -/
inductive Finished (s t : State) : Prop where
  | stays (hp : s.phase = .inReset ∨ s.phase = .idle) (ht : t = s)
  | cleared (hp : s.phase = .clearing) (ht : t = { s with cells := [], pending := [], phase := .idle })
  | silent (x : Word) (hp : s.phase = .running .nop x ∨ s.phase = .running .add x) (ht : t = { s with phase := .idle })
  | hashed (x : Word) (hp : s.phase = .running .hash x) (ht : t = completeHash (hash32 x) s)
  | estimated (x : Word) (hp : s.phase = .running .est x) (hd : s.sketch.inDomain = true)
      (ht : t = completeEst ((s.scan.getD Scan.start).complete s.sketch).estimate s)
  | readReg (x : Word) (hp : s.phase = .running .rdreg x) (hi : indexLegal x = true)
      (hd : inDomain (s.reg x.toNat) = true) (ht : t = completeRdreg x.toNat s)

theorem finish_cases {s t : State} (h : finish s = .next t) : Finished s t := by
  unfold finish at h
  split at h
  · next hp => exact .stays (.inl hp) (by simpa using h.symm)
  · next hp => exact .stays (.inr hp) (by simpa using h.symm)
  · next hp => exact .cleared hp (by simpa using h.symm)
  · next x hp => exact .silent x (.inl hp) (by simpa using h.symm)
  · next x hp => exact .silent x (.inr hp) (by simpa using h.symm)
  · next x hp => exact .hashed x hp (Host.Outcome.next.inj h).symm
  · next x hp =>
    split at h
    · next hd => exact .estimated x hp hd (Host.Outcome.next.inj h).symm
    · cases h
  · next x hp =>
    split at h
    · next hi =>
      split at h
      · next hd => exact .readReg x hp hi hd (Host.Outcome.next.inj h).symm
      · cases h
    · cases h

/-- A step ends with the command in flight going on, or with its end. -/
theorem endStep_cases {s t : State} (h : endStep s = .next t) :
    (s.draw.stillBusy = true ∧ t = goOn s.draw.scanned s.tick) ∨
    (s.draw.stillBusy = false ∧ Finished s.tick t) := by
  unfold endStep at h
  split at h
  · next hb => exact .inl ⟨hb, (Host.Outcome.next.inj h).symm⟩
  · next hb => exact .inr ⟨by simpa using hb, finish_cases h⟩

/-! The end of a step neither reads nor writes ARG, the error bits, the script or the log: it commutes with setting them. -/

/-- Apply a function to a next state. -/
def mapNext (f : State → State) : Result → Result
  | .next t => .next (f t)
  | .fault r => .fault r
  | .refused r => .refused r

/-- The fields the end of a step has nothing to do with, set together. -/
def State.setHost (a : Word) (ei eb : Bool) (sc : List HostOp) (rd : List Word) (t : State) : State :=
  { t with arg := a, errIll := ei, errBusy := eb, script := sc, reads := rd }

section
variable (a : Word) (ei eb : Bool) (sc : List HostOp) (rd : List Word)

theorem setHost_tick (s : State) : (s.setHost a ei eb sc rd).tick = s.tick.setHost a ei eb sc rd := by cases s; rfl

theorem setHost_goOn (n : Nat) (s : State) : goOn n (s.setHost a ei eb sc rd) = (goOn n s).setHost a ei eb sc rd := by
  cases s; rfl

theorem setHost_completeHash (h : Word) (s : State) :
    completeHash h (s.setHost a ei eb sc rd) = (completeHash h s).setHost a ei eb sc rd := by cases s; rfl

theorem setHost_completeEst (e : BitVec 64 × Bool) (s : State) :
    completeEst e (s.setHost a ei eb sc rd) = (completeEst e s).setHost a ei eb sc rd := by cases s; rfl

theorem setHost_completeRdreg (i : Nat) (s : State) :
    completeRdreg i (s.setHost a ei eb sc rd) = (completeRdreg i s).setHost a ei eb sc rd := by cases s; rfl

theorem finish_setHost (s : State) :
    finish (s.setHost a ei eb sc rd) = mapNext (State.setHost a ei eb sc rd) (finish s) := by
  have hsk : (s.setHost a ei eb sc rd).sketch = s.sketch := rfl
  have hrg : ∀ i, (s.setHost a ei eb sc rd).reg i = s.reg i := fun _ => rfl
  have hsc : (s.setHost a ei eb sc rd).scan = s.scan := rfl
  have hph : (s.setHost a ei eb sc rd).phase = s.phase := rfl
  cases hp : s.phase with
  | inReset => rw [finish_inReset hp, finish_inReset (hph.trans hp)]; rfl
  | idle => rw [finish_idle hp, finish_idle (hph.trans hp)]; rfl
  | clearing => rw [finish_clearing hp, finish_clearing (hph.trans hp)]; rfl
  | running c x =>
    cases c with
    | nop => rw [finish_nop hp, finish_nop (hph.trans hp)]; rfl
    | add => rw [finish_add hp, finish_add (hph.trans hp)]; rfl
    | hash => rw [finish_hash hp, finish_hash (hph.trans hp), setHost_completeHash, mapNext]
    | est =>
      rw [finish_est hp, finish_est (hph.trans hp), hsk, hsc, setHost_completeEst]
      split <;> simp only [mapNext]
    | rdreg =>
      rw [finish_rdreg hp, finish_rdreg (hph.trans hp), hrg, setHost_completeRdreg]
      split_ifs <;> simp only [mapNext]

/-- The end of a step commutes with setting the fields it has nothing to do with. -/
theorem endStep_setHost (s : State) :
    endStep (s.setHost a ei eb sc rd) = mapNext (State.setHost a ei eb sc rd) (endStep s) := by
  have hd : (s.setHost a ei eb sc rd).draw = s.draw := rfl
  unfold endStep
  rw [hd, setHost_tick, setHost_goOn, finish_setHost]
  split <;> simp only [mapNext]

end

/-- Outside the clear, the end of a step changes no register, operand, error bit, script or log. -/
theorem endStep_frame {s t : State} (h : endStep s = .next t) (hp : s.phase ≠ .clearing) :
    t.sketch = s.sketch ∧ t.arg = s.arg ∧ t.errIll = s.errIll ∧ t.errBusy = s.errBusy ∧ t.script = s.script ∧
      t.reads = s.reads ∧ t.draws = s.draws.tail := by
  rcases endStep_cases h with ⟨-, rfl⟩ | ⟨-, hf⟩
  · simp
  · cases hf with
    | stays _ ht => subst ht; simp
    | cleared hc => simp [hp] at hc
    | silent x _ ht => subst ht; exact ⟨(State.sketch_congr rfl rfl).trans (tick_sketch s), by simp⟩
    | hashed x _ ht => subst ht; simp
    | estimated x _ _ ht => subst ht; simp
    | readReg x _ _ _ ht => subst ht; simp

/-- An idle core only takes its draw and writes pending ADDs. -/
theorem endStep_idle {s : State} (hp : s.phase = .idle) (hs : s.scan = none) : endStep s = .next s.tick := by
  have hg : goOn s.draw.scanned s.tick = s.tick := by
    have : s.tick.scan = none := by simp [hs]
    unfold goOn
    rw [this]
    generalize s.tick = u at *
    cases u
    simp_all
  unfold endStep
  rw [hg]
  split
  · rfl
  · simp [finish, hp]

end Sys2Proof.Machine
end

