-- ==== Sys2Proof/Laws/Estimator.lean ====
section
/-! SUPPORT. The scan of the registers: on a register array in canonical form, the parts of S and Z that a range of registers
contributes are the sum and the count over that range, so a scan can stop and go on anywhere. -/

namespace Sys2Proof.Machine

open Finset

/-- A listed cell takes the place of a 0 in the rest of the array. -/
theorem read_cons_of_ne (k : Nat) (w : Byte) (rest : Memory) (i : Nat) (h : i ≠ k) :
    Memory.read ((k, w) :: rest) i = Memory.read rest i := by rw [Memory.read, if_neg h]

theorem read_cons_self (k : Nat) (w : Byte) (rest : Memory) : Memory.read ((k, w) :: rest) k = w := by
  rw [Memory.read, if_pos rfl]

/-- The registers that are 0 and those that are listed make up the range. -/
theorem card_zeros_add_listed (lo hi b : Nat) (mem : Memory) (h : Memory.wfFrom b mem = true) :
    ((Ico lo hi).filter fun i => mem.read i = 0#8).card + (listedIn lo hi mem).length = hi - lo := by
  induction mem generalizing b with
  | nil => simp [Memory.read, listedIn]
  | cons c rest ih =>
    obtain ⟨k, w⟩ := c
    simp only [Memory.wfFrom, Bool.and_eq_true, decide_eq_true_eq, decide_not, Bool.not_eq_true',
      decide_eq_false_iff_not] at h
    have ih := ih (k + 1) h.2
    have hk : Memory.read rest k = 0#8 := Memory.read_below rest (k + 1) k h.2 (by omega)
    by_cases hin : lo ≤ k ∧ k < hi
    · have hl : listedIn lo hi ((k, w) :: rest) = (k, w) :: listedIn lo hi rest := by
        simp [listedIn, hin.1, hin.2]
      have hz : (Ico lo hi).filter (fun i => Memory.read rest i = 0#8) =
          insert k ((Ico lo hi).filter fun i => Memory.read ((k, w) :: rest) i = 0#8) := by
        ext i
        simp only [mem_filter, mem_insert, mem_Ico]
        by_cases hi' : i = k
        · subst hi'
          simp [hk, hin]
        · rw [read_cons_of_ne k w rest i hi']
          simp [hi']
      have hn : k ∉ (Ico lo hi).filter fun i => Memory.read ((k, w) :: rest) i = 0#8 := by
        simp [read_cons_self, h.1.2]
      rw [hz, card_insert_of_notMem hn] at ih
      rw [hl, List.length_cons]
      omega
    · have hl : listedIn lo hi ((k, w) :: rest) = listedIn lo hi rest := by
        simp [listedIn, hin]
      have hz : (Ico lo hi).filter (fun i => Memory.read ((k, w) :: rest) i = 0#8) =
          (Ico lo hi).filter fun i => Memory.read rest i = 0#8 := by
        refine filter_congr fun i hi' => ?_
        rw [read_cons_of_ne]
        rintro rfl
        exact hin (mem_Ico.1 hi')
      rw [hl, hz]
      exact ih

/-- `zerosIn` counts the registers of the range that are 0 (R152). -/
theorem zerosIn_eq_card (lo hi : Nat) (mem : Memory) (h : mem.wf = true) :
    zerosIn lo hi mem = ((Ico lo hi).filter fun i => mem.read i = 0#8).card := by
  have := card_zeros_add_listed lo hi 0 mem h
  unfold zerosIn
  omega

/-- `sumIn` is the harmonic sum of the range (R151). -/
theorem sumIn_eq_sum (lo hi : Nat) (mem : Memory) (h : mem.wf = true) :
    sumIn lo hi mem = ∑ i ∈ Ico lo hi, harmonicTerm (mem.read i) := by
  unfold sumIn
  rw [zerosIn_eq_card lo hi mem h]
  have : ∀ b, Memory.wfFrom b mem = true →
      ((listedIn lo hi mem).map fun c => harmonicTerm c.2).sum +
        ((Ico lo hi).filter fun i => mem.read i = 0#8).card * harmonicTerm 0#8 =
      ∑ i ∈ Ico lo hi, harmonicTerm (mem.read i) := by
    clear h
    induction mem with
    | nil =>
      intro b _
      simp [Memory.read, listedIn]
    | cons c rest ih =>
      intro b h
      obtain ⟨k, w⟩ := c
      simp only [Memory.wfFrom, Bool.and_eq_true, decide_eq_true_eq, decide_not, Bool.not_eq_true',
        decide_eq_false_iff_not] at h
      have ih := ih (k + 1) h.2
      have hk : Memory.read rest k = 0#8 := Memory.read_below rest (k + 1) k h.2 (by omega)
      by_cases hin : lo ≤ k ∧ k < hi
      · have hmem : k ∈ Ico lo hi := mem_Ico.2 hin
        have hl : listedIn lo hi ((k, w) :: rest) = (k, w) :: listedIn lo hi rest := by
          simp [listedIn, hin.1, hin.2]
        have hz : (Ico lo hi).filter (fun i => Memory.read rest i = 0#8) =
            insert k ((Ico lo hi).filter fun i => Memory.read ((k, w) :: rest) i = 0#8) := by
          ext i
          simp only [mem_filter, mem_insert, mem_Ico]
          by_cases hi' : i = k
          · subst hi'
            simp [hk, hin]
          · rw [read_cons_of_ne k w rest i hi']
            simp [hi']
        have hn : k ∉ (Ico lo hi).filter fun i => Memory.read ((k, w) :: rest) i = 0#8 := by
          simp [read_cons_self, h.1.2]
        rw [hz, card_insert_of_notMem hn, ← add_sum_erase _ _ hmem, hk] at ih
        rw [hl, List.map_cons, List.sum_cons, ← add_sum_erase _ _ hmem, read_cons_self]
        have hrest : ∑ i ∈ (Ico lo hi).erase k, harmonicTerm (Memory.read ((k, w) :: rest) i) =
            ∑ i ∈ (Ico lo hi).erase k, harmonicTerm (Memory.read rest i) :=
          sum_congr rfl fun i hi' => by rw [read_cons_of_ne k w rest i (ne_of_mem_erase hi')]
        rw [hrest]
        linarith
      · have hl : listedIn lo hi ((k, w) :: rest) = listedIn lo hi rest := by
          simp [listedIn, hin]
        have hne : ∀ i ∈ Ico lo hi, i ≠ k := by
          rintro i hi' rfl
          exact hin (mem_Ico.1 hi')
        have hz : (Ico lo hi).filter (fun i => Memory.read ((k, w) :: rest) i = 0#8) =
            (Ico lo hi).filter fun i => Memory.read rest i = 0#8 :=
          filter_congr fun i hi' => by rw [read_cons_of_ne k w rest i (hne i hi')]
        rw [hl, hz, ih]
        exact sum_congr rfl fun i hi' => by rw [read_cons_of_ne k w rest i (hne i hi')]
  exact this 0 h

/-- A scan may stop at `mid` and go on from there. -/
theorem sumIn_add (lo mid hi : Nat) (mem : Memory) (h : mem.wf = true) (h1 : lo ≤ mid) (h2 : mid ≤ hi) :
    sumIn lo mid mem + sumIn mid hi mem = sumIn lo hi mem := by
  rw [sumIn_eq_sum _ _ _ h, sumIn_eq_sum _ _ _ h, sumIn_eq_sum _ _ _ h, sum_Ico_consecutive _ h1 h2]

theorem zerosIn_add (lo mid hi : Nat) (mem : Memory) (h : mem.wf = true) (h1 : lo ≤ mid) (h2 : mid ≤ hi) :
    zerosIn lo mid mem + zerosIn mid hi mem = zerosIn lo hi mem := by
  rw [zerosIn_eq_card _ _ _ h, zerosIn_eq_card _ _ _ h, zerosIn_eq_card _ _ _ h, ← card_union_of_disjoint,
    ← filter_union, Ico_union_Ico_eq_Ico h1 h2]
  exact disjoint_filter_filter (Ico_disjoint_Ico_consecutive lo mid hi)

theorem harmonicTerm_le (v : Byte) : harmonicTerm v ≤ 2 ^ Config.RMAX :=
  Nat.pow_le_pow_right (by norm_num) (Nat.sub_le _ _)

/-- S of a range fits the 34-bit adder, Z the 14-bit counter (R7). -/
theorem sumIn_le (lo hi : Nat) (mem : Memory) (h : mem.wf = true) : sumIn lo hi mem ≤ (hi - lo) * 2 ^ Config.RMAX := by
  rw [sumIn_eq_sum _ _ _ h]
  calc ∑ i ∈ Ico lo hi, harmonicTerm (mem.read i) ≤ ∑ _i ∈ Ico lo hi, 2 ^ Config.RMAX :=
        sum_le_sum fun i _ => harmonicTerm_le _
    _ = (hi - lo) * 2 ^ Config.RMAX := by simp

theorem zerosIn_le (lo hi : Nat) (mem : Memory) : zerosIn lo hi mem ≤ hi - lo := Nat.sub_le _ _

/-- An accumulator that holds `a` and adds `b` holds `a + b`, while that fits. -/
theorem accumulate {n : Nat} (s : BitVec n) (a b c : Nat) (ha : s.toNat = a) (hc : a + b = c) (hlt : c < 2 ^ n) :
    (s + BitVec.ofNat n b).toNat = c := by
  rw [BitVec.toNat_add, BitVec.toNat_ofNat, ha, Nat.add_mod_mod, hc, Nat.mod_eq_of_lt hlt]

theorem Scan.ok_iff (mem : Memory) (c : Scan) : c.ok mem = true ↔
    c.pos ≤ Config.m ∧ c.sum.toNat = sumIn 0 c.pos mem ∧ c.zeros.toNat = zerosIn 0 c.pos mem := by
  simp only [Scan.ok, Bool.and_eq_true, decide_eq_true_eq, and_assoc]

/-- Scanning on keeps what a scan says of the registers below its position. -/
theorem advance_ok (n : Nat) (mem : Memory) (c : Scan) (h : mem.wf = true) (hc : c.ok mem = true) :
    (c.advance n mem).ok mem = true := by
  rw [Scan.ok_iff] at hc ⊢
  obtain ⟨hpos, hsum, hzeros⟩ := hc
  have hlo : c.pos ≤ min Config.m (c.pos + n) := le_min hpos (Nat.le_add_right _ _)
  have hhi : min Config.m (c.pos + n) ≤ 8192 := min_le_left _ _
  have hsb := sumIn_le 0 (min Config.m (c.pos + n)) mem h
  have hzb := zerosIn_le 0 (min Config.m (c.pos + n)) mem
  refine ⟨hhi, accumulate _ _ _ _ hsum (sumIn_add 0 c.pos _ mem h (Nat.zero_le _) hlo) ?_,
    accumulate _ _ _ _ hzeros (zerosIn_add 0 c.pos _ mem h (Nat.zero_le _) hlo) ?_⟩
  · calc _ ≤ _ := hsb
      _ ≤ 8192 * 2 ^ 20 := Nat.mul_le_mul_right _ (by omega)
      _ < 2 ^ 34 := by norm_num
  · calc _ ≤ _ := hzb
      _ ≤ 8192 := by omega
      _ < 2 ^ 14 := by norm_num

theorem start_ok (mem : Memory) : Scan.start.ok mem = true := by
  have h : listedIn 0 0 mem = [] := by simp [listedIn]
  simp [Scan.ok, Scan.start, sumIn, zerosIn, h]

/-- A finished scan holds S and Z of the whole array. -/
theorem complete_totals (mem : Memory) (c : Scan) (h : mem.wf = true) (hc : c.ok mem = true) :
    (c.complete mem).sum.toNat = harmonicSum mem ∧ (c.complete mem).zeros.toNat = zeroCount mem := by
  have hok := advance_ok Config.m mem c h hc
  have hpos : (c.complete mem).pos = Config.m := Nat.min_eq_left (Nat.le_add_left _ _)
  rw [Scan.ok_iff] at hok
  rw [harmonicSum, zeroCount, ← hpos]
  exact hok.2

end Sys2Proof.Machine
end

