-- ==== Sys2Proof/Laws/Step.lean ====
section
/-! SUPPORT. What a host event does to the state before the end of the step, and what the end of the step leaves alone. -/

namespace Sys2Proof.Machine

@[simp] theorem withScript_phase (s : State) (l : List HostOp) : (s.withScript l).phase = s.phase := rfl
@[simp] theorem withScript_script (s : State) (l : List HostOp) : (s.withScript l).script = l := rfl
@[simp] theorem withScript_arg (s : State) (l : List HostOp) : (s.withScript l).arg = s.arg := rfl
@[simp] theorem withScript_draw (s : State) (l : List HostOp) : (s.withScript l).draw = s.draw := rfl
@[simp] theorem withScript_sketch (s : State) (l : List HostOp) : (s.withScript l).sketch = s.sketch := rfl

/-- The end of a command in flight, or of the clear, leaves ARG, the error bits, the script, the log and the draws. -/
theorem finish_host {s t : State} (h : finish s = .next t) :
    t.arg = s.arg ∧ t.errIll = s.errIll ∧ t.errBusy = s.errBusy ∧ t.script = s.script ∧ t.reads = s.reads ∧
      t.draws = s.draws := by
  cases finish_cases h with
  | stays _ ht => subst ht; simp
  | cleared _ ht => subst ht; simp
  | silent x _ ht => subst ht; simp
  | hashed x _ ht => subst ht; simp
  | estimated x _ _ ht => subst ht; simp
  | readReg x _ _ _ ht => subst ht; simp

/-- The end of a step leaves ARG, the error bits, the script and the log, and takes one draw. -/
theorem endStep_host {s t : State} (h : endStep s = .next t) :
    t.arg = s.arg ∧ t.errIll = s.errIll ∧ t.errBusy = s.errBusy ∧ t.script = s.script ∧ t.reads = s.reads ∧
      t.draws = s.draws.tail := by
  unfold endStep at h
  split at h
  · cases h
    simp
  · simpa using finish_host h

/-- If `u` is `s` with other contents of ARG, the error bits, the script and the log, so are the states after the end of
the step. -/
theorem endStep_of_host_update {s u t : State} (hu : s.setHost u.arg u.errIll u.errBusy u.script u.reads = u)
    (h : endStep s = .next t) : endStep u = .next (t.setHost u.arg u.errIll u.errBusy u.script u.reads) := by
  rw [← hu, endStep_setHost, h]
  rfl

/-- Outside the clear and reset, the end of a step leaves the command stage as it is or idle. -/
theorem endStep_phase {s t : State} (h : endStep s = .next t) (hc : s.phase ≠ .clearing) :
    t.phase = .idle ∨ t.phase = s.phase := by
  rcases endStep_cases h with ⟨-, rfl⟩ | ⟨-, hf⟩
  · simp
  · cases hf with
    | stays hp ht => subst ht; simp
    | cleared hp ht => simp at hp; exact absurd hp hc
    | silent x _ ht => subst ht; simp
    | hashed x _ ht => subst ht; simp
    | estimated x _ _ ht => subst ht; simp
    | readReg x _ _ _ ht => subst ht; simp

/-- An idle core goes on, stays idle, and keeps everything a program can observe. -/
theorem endStep_of_idle {s : State} (hp : s.phase = .idle) :
    ∃ t, endStep s = .next t ∧ t.arch = s.arch ∧ t.phase = .idle ∧ t.script = s.script ∧ t.reads = s.reads := by
  have hex : ∃ t, endStep s = .next t := by
    unfold endStep
    split
    · exact ⟨_, rfl⟩
    · exact ⟨_, finish_idle (by simp [hp])⟩
  obtain ⟨t, ht⟩ := hex
  have hh := endStep_host ht
  refine ⟨t, ht, ?_, ?_, hh.2.2.2.1, hh.2.2.2.2.1⟩
  · rcases endStep_cases ht with ⟨-, rfl⟩ | ⟨-, hf⟩
    · simp [State.arch]
    · cases hf with
      | stays _ ht => subst ht; simp [State.arch]
      | cleared h => simp [hp] at h
      | silent x h => simp [hp] at h
      | hashed x h => simp [hp] at h
      | estimated x h => simp [hp] at h
      | readReg x h => simp [hp] at h
  · simpa [hp] using endStep_phase ht (by simp [hp])

/-! Host events. -/

theorem hostRegAt_offset (r : HostReg) : hostRegAt r.offset = some r := by cases r <;> rfl

theorem hostRegAt_eq {off : Nat} {r : HostReg} (h : hostRegAt off = some r) : off = r.offset := by
  unfold hostRegAt at h
  split_ifs at h <;> simp at h <;> subst h <;> simpa [HostReg.offset]

/-- A supported access reaches its register. -/
theorem access_reg {off : Nat} {r : HostReg} (h : hostRegAt off = some r) (s : State) (hp : s.phase ≠ .inReset)
    (k : HostReg → Result) : access off 4 s k = k r := by
  have ho : off % 4 = 0 := by
    rw [hostRegAt_eq h]
    cases r <;> rfl
  simp [access, hp, ho, h]

theorem step_write {off : Nat} {r : HostReg} (h : hostRegAt off = some r) (s : State) (hp : s.phase ≠ .inReset)
    (v : Word) (rest : List HostOp) :
    step (s.withScript (.write off 4 v :: rest)) = hostWrite r v (s.withScript rest) :=
  access_reg h (s.withScript rest) hp _

theorem step_read {off : Nat} {r : HostReg} (h : hostRegAt off = some r) (s : State) (hp : s.phase ≠ .inReset)
    (rest : List HostOp) :
    step (s.withScript (.read off 4 :: rest)) =
      endStep ((s.withScript rest).logRead (readHostReg r (s.withScript rest))) :=
  access_reg h (s.withScript rest) hp _

theorem step_idle (s : State) (rest : List HostOp) :
    step (s.withScript (.idle :: rest)) = endStep (s.withScript rest) := rfl

theorem step_nil {s : State} (h : s.script = []) : step s = endStep s := by
  unfold step
  rw [h]

theorem withScript_self {s : State} {l : List HostOp} (h : s.script = l) : s.withScript l = s := by
  cases s
  simp_all [State.withScript]

/-! The acceptance of a command. -/

theorem issue_idle {s : State} (hp : s.phase = .idle) (k : State → Result) : issue s k = k s := by
  unfold issue
  rw [hp]

theorem issue_busy {s : State} (hb : s.busy = true) (hp : s.phase ≠ .inReset) (k : State → Result) :
    issue s k = endStep s.raiseErrBusy := by
  unfold issue
  split
  · simp_all [State.busy]
  · contradiction
  · rfl
  · rfl

theorem issue_inReset {s : State} (hp : s.phase = .inReset) (k : State → Result) :
    issue s k = .refused .accessDuringReset := by
  unfold issue
  rw [hp]

theorem indexLegal_iff (x : Word) : indexLegal x = true ↔ x.toNat < 8192 := decide_eq_true_iff

theorem inDomain_iff (v : Byte) : inDomain v = true ↔ v.toNat ≤ 20 := decide_eq_true_iff

end Sys2Proof.Machine
end

