-- ==== Sys2Proof/Laws/Update.lean ====
section
/-! SUPPORT. The ranks and registers an ADD brings to the Update Pipeline. -/

namespace Sys2Proof.Machine

theorem rankLoop_bounds (left r : Nat) (f : Word) : r ≤ rankLoop left r f ∧ rankLoop left r f ≤ r + left := by
  induction left generalizing r f with
  | zero => exact ⟨Nat.le_refl r, Nat.le_refl r⟩
  | succ left ih =>
    unfold rankLoop
    split
    · omega
    · have := ih (r + 1) (f <<< 1)
      omega

theorem addRank_bounds (x : Word) : 1 ≤ addRank x ∧ addRank x ≤ 20 := rankLoop_bounds Config.FW 1 _

/-- The rank fits the cell (R135: the 8-bit cell never overflows). -/
theorem pendingOf_rank (x : Word) : (pendingOf x).rank.toNat = addRank x := by
  have h := addRank_bounds x
  show (BitVec.ofNat 8 (addRank x)).toNat = addRank x
  rw [BitVec.toNat_ofNat, Nat.mod_eq_of_lt (by omega)]

theorem pendingOf_index (x : Word) : (pendingOf x).index.toNat = addIndex x := rfl

theorem valueOperand_eq (x : Word) : valueOperand x = x := rfl

theorem addAll_nil (mem : Memory) : addAll mem [] = mem := rfl

theorem addAll_cons (mem : Memory) (x : Word) (xs : List Word) :
    addAll mem (x :: xs) = addAll (mem.raiseTo (pendingOf x)) xs := rfl

/-- What one more ADD does to each register (R135). -/
theorem read_raise_pendingOf (mem : Memory) (x : Word) (a : Nat) :
    ((mem.raiseTo (pendingOf x)).read a).toNat =
      if a = addIndex x then max (mem.read a).toNat (addRank x) else (mem.read a).toNat := by
  rw [Memory.read_raiseTo, pendingOf_index]
  by_cases ha : a = addIndex x
  · rw [if_pos ha, ← pendingOf_rank x]
    split
    · next h => exact (max_eq_right (Nat.le_of_lt (BitVec.lt_def.1 h.2))).symm
    · next h => exact (max_eq_left (Nat.le_of_not_lt fun hc => h ⟨ha, BitVec.lt_def.2 hc⟩)).symm
  · rw [if_neg (fun hc => ha hc.1), if_neg ha]

end Sys2Proof.Machine
end

