-- ==== Sys2Proof/Laws/Commands.lean ====
section
/-! SUPPORT. The commands against their one-step effect `Arch.perform`, and what the invariant gives a proof. A proof that lets
the kernel compare two states field by field runs the estimator on variables; these lemmas keep the estimate and the hash
as a variable instead. -/

namespace Sys2Proof.Machine

/-! What the invariant gives. -/

theorem State.Inv.sketch_wf {s : State} (h : s.Inv) : s.sketch.wf = true := Memory.raiseAll_wf _ _ h.cellsWf

theorem State.Inv.pending_inDomain {s : State} (h : s.Inv) : ∀ p ∈ s.pending, inDomain p.rank = true := by
  intro p hp
  have hk := h.pendingOk
  simp only [State.pendingOk, List.all_eq_true, Bool.and_eq_true, decide_eq_true_eq] at hk
  exact decide_eq_true (hk p hp).2

theorem State.Inv.sketch_inDomain {s : State} (h : s.Inv) : s.sketch.inDomain = true :=
  Memory.raiseAll_inDomain _ _ h.cellsInDomain h.pending_inDomain

theorem State.Inv.scan_of_est {s : State} {x : Word} (h : s.Inv) (hp : s.phase = .running .est x) :
    ∃ c, s.scan = some c ∧ c.ok s.sketch = true := by
  have hk := h.scanOk
  unfold State.scanOk at hk
  rw [hp] at hk
  cases hs : s.scan with
  | none => rw [hs] at hk; simp at hk
  | some c => rw [hs] at hk; exact ⟨c, rfl, hk⟩

theorem State.Inv.scan_none {s : State} (h : s.Inv) (hp : ∀ x, s.phase ≠ .running .est x) : s.scan = none := by
  have hk := h.scanOk
  unfold State.scanOk at hk
  split at hk
  · next hq _ => exact absurd hq (hp _)
  · simp at hk
  · simpa using hk

theorem State.Inv.index_legal {s : State} {x : Word} (h : s.Inv) (hp : s.phase = .running .rdreg x) :
    indexLegal x = true := by
  have hk := h.phaseOk
  unfold State.phaseOk at hk
  rw [hp] at hk
  exact (Bool.and_eq_true _ _ ▸ hk : _ ∧ _).2

/-! The architectural view of each completion and of each one-step effect. -/

theorem completeHash_arch (h : Word) (s : State) :
    (completeHash h s).arch = { s.arch with result := 0#32 ++ h, rvalid := true } := by cases s; rfl

theorem completeEst_arch (e : BitVec 64 × Bool) (s : State) :
    (completeEst e s).arch = { s.arch with result := e.1, edom := e.2, rvalid := true } := by cases s; rfl

theorem completeRdreg_arch (i : Nat) (s : State) :
    (completeRdreg i s).arch = { s.arch with result := (s.reg i).setWidth 64, rvalid := true } := by cases s; rfl

theorem perform_hash (a : Arch) : a.perform .hash = { a with result := 0#32 ++ hash32 a.arg, rvalid := true } := rfl

theorem perform_est (a : Arch) {mem : Memory} {e : BitVec 64 × Bool} (h : a.sketch = mem)
    (he : est64 (specSum mem) (specZeros mem) = e) :
    a.perform .est = { a with result := e.1, edom := e.2, rvalid := true } := by subst h; subst he; rfl

theorem perform_rdreg (a : Arch) (h : a.arg.toNat < 8192) :
    a.perform .rdreg = { a with result := (a.sketch.read a.arg.toNat).setWidth 64, rvalid := true } := if_pos h

theorem specSum_eq (mem : Memory) (h : mem.wf = true) : harmonicSum mem = specSum mem := by
  unfold harmonicSum specSum
  rw [sumIn_eq_sum _ _ _ h, Finset.range_eq_Ico]
  rfl

theorem specZeros_eq (mem : Memory) (h : mem.wf = true) : zeroCount mem = specZeros mem := by
  unfold zeroCount specZeros
  rw [zerosIn_eq_card _ _ _ h, Finset.range_eq_Ico]

/-- A scan that is right so far ends in the estimate of the whole array. -/
theorem complete_estimate {mem : Memory} {c : Scan} (h : mem.wf = true) (hc : c.ok mem = true) :
    (c.complete mem).estimate = est64 (specSum mem) (specZeros mem) := by
  unfold Scan.estimate
  rw [(complete_totals mem c h hc).1, (complete_totals mem c h hc).2, specSum_eq mem h, specZeros_eq mem h]

theorem finish_est_of_ok {s : State} {x : Word} {c : Scan} {e : BitVec 64 × Bool} (hp : s.phase = .running .est x)
    (hw : s.sketch.wf = true) (hd : s.sketch.inDomain = true) (hs : s.scan = some c) (hc : c.ok s.sketch = true)
    (he : est64 (specSum s.sketch) (specZeros s.sketch) = e) : finish s = .next (completeEst e s) := by
  rw [finish_est hp, hd, if_pos rfl, hs, Option.getD_some, complete_estimate hw hc, he]

/-- How a command in flight ends: the command stage is idle, the registers, the script and the draws are as before, and the
program sees the command's one-step effect on the operand latched at its acceptance. -/
theorem finish_running {s : State} {i : Instr} {x : Word} (hp : s.phase = .running i x)
    (hw : s.sketch.wf = true) (hd : s.sketch.inDomain = true)
    (hsc : i = .est → ∃ c, s.scan = some c ∧ c.ok s.sketch = true) (hsn : i ≠ .est → s.scan = none)
    (hix : i = .rdreg → indexLegal x = true) :
    ∃ t, finish s = .next t ∧ t.phase = .idle ∧ t.scan = none ∧ t.pending = s.pending ∧ t.cells = s.cells ∧
      t.draws = s.draws ∧ t.script = s.script ∧
      t.arch = if i = .nop ∨ i = .add then s.arch else { ({ s.arch with arg := x }).perform i with arg := s.arg } := by
  cases i with
  | nop =>
    exact ⟨_, finish_nop hp, rfl, hsn (by decide), rfl, rfl, rfl, rfl, by rw [if_pos (by decide)]; rfl⟩
  | add =>
    exact ⟨_, finish_add hp, rfl, hsn (by decide), rfl, rfl, rfl, rfl, by rw [if_pos (by decide)]; rfl⟩
  | hash =>
    refine ⟨_, finish_hash hp, by simp, by simpa using hsn (by decide), by simp, by simp, by simp, by simp, ?_⟩
    rw [if_neg (by decide), perform_hash, completeHash_arch]
    simp only [valueOperand]
    generalize hash32 x = h
    rfl
  | est =>
    obtain ⟨c, hc, hok⟩ := hsc rfl
    obtain ⟨e, he⟩ : ∃ e, est64 (specSum s.sketch) (specZeros s.sketch) = e := ⟨_, rfl⟩
    refine ⟨_, finish_est_of_ok hp hw hd hc hok he, by simp, by simp, by simp, by simp, by simp, by simp, ?_⟩
    rw [if_neg (by decide), perform_est _ (mem := s.sketch) rfl he, completeEst_arch]
    rfl
  | rdreg =>
    have hl := hix rfl
    have hlt := (indexLegal_iff _).1 hl
    have hdom : inDomain (s.reg (indexOperand x)) = true := Memory.read_inDomain _ hd _
    refine ⟨_, (finish_rdreg hp).trans (by rw [if_pos hl, if_pos hdom]), by simp, by simpa using hsn (by decide),
      by simp, by simp, by simp, by simp, ?_⟩
    rw [if_neg (by decide), perform_rdreg _ hlt, completeRdreg_arch]
    rfl

/-- The invariant survives this step's draw and pending writes. -/
theorem State.Inv.tick {s : State} (h : s.Inv) : s.tick.Inv := by
  have hsub : ∀ l : List PendingAdd, (∀ p ∈ l, p ∈ s.pending) → ∀ p ∈ l, inDomain p.rank = true :=
    fun l hl p hp => h.pending_inDomain p (hl p hp)
  constructor
  · rw [tick_cells]
    exact Memory.raiseAll_wf _ _ h.cellsWf
  · rw [tick_cells]
    exact Memory.raiseAll_inDomain _ _ h.cellsInDomain (hsub _ fun p hp => List.mem_of_mem_take hp)
  · have hk := h.pendingOk
    simp only [State.pendingOk, List.all_eq_true] at hk ⊢
    intro p hp
    rw [tick_pending] at hp
    exact hk p (List.mem_of_mem_drop hp)
  · have hk := h.scanOk
    unfold State.scanOk at hk ⊢
    rw [tick_phase, tick_scan, tick_sketch]
    exact hk
  · have hk := h.phaseOk
    unfold State.phaseOk at hk ⊢
    rw [tick_phase, tick_cells, tick_pending, tick_arg, tick_result, tick_rvalid, tick_edom, tick_errIll, tick_errBusy]
    cases hp : s.phase with
    | inReset =>
      rw [hp] at hk
      simp only [Bool.and_eq_true, decide_eq_true_eq] at hk ⊢
      simp [hk]
    | clearing =>
      rw [hp] at hk
      simp only [Bool.and_eq_true, decide_eq_true_eq] at hk ⊢
      simp [hk]
    | idle => rfl
    | running c x =>
      rw [hp] at hk
      cases c <;> exact hk

end Sys2Proof.Machine
end

