-- ==== Sys2Proof/Laws/Decode.lean ====
section
/-! SUPPORT. Decoding the encoder's words, and the fields of a word as numbers. -/

namespace Sys2Proof

theorem decode_encode (i : Instr) : decode (encode i) = .command i := by cases i <;> decide

theorem rsvField_toNat (w : Word) : (rsvField w).toNat = w.toNat / 16 := by
  have := w.isLt
  simp only [rsvField, BitVec.extractLsb'_toNat, Nat.shiftRight_eq_div_pow]
  omega

theorem opField_toNat (w : Word) : (opField w).toNat = w.toNat % 16 := by
  simp [opField, BitVec.extractLsb'_toNat]

/-- RSV is 0 exactly in the sixteen words below 16. -/
theorem rsvField_eq_zero_iff (w : Word) : rsvField w = 0#28 ↔ w.toNat < 16 := by
  rw [← BitVec.toNat_inj, rsvField_toNat]
  simp

end Sys2Proof
end

