-- ==== Sys2Proof/Laws/Inversion.lean ====
section
/-! SUPPORT. Everything a step can do, said once: `step_cases`. A step that ends in a next state is an asserted reset, or the
end of a step (`endStep_cases`, `finish_cases`) from one of the states that `Entered` lists. -/

namespace Sys2Proof.Machine

/-- What the host's event makes of `s` before the end of the step. -/
inductive Entered (s u : State) : Prop where
  /-- No access, a read, a poll, or a write that has no effect. -/
  | quiet (sc : List HostOp) (rd : List Word) (hr : s.noResetNext)
      (hu : u = s.setHost s.arg s.errIll s.errBusy sc rd)
  /-- A write of ARG. -/
  | wroteArg (v : Word) (rest : List HostOp) (hs : s.script = .write 0x04 4 v :: rest) (hp : s.phase ≠ .inReset)
      (hu : u = s.setHost v s.errIll s.errBusy rest s.reads)
  /-- A write of STATUS. -/
  | wroteStatus (v : Word) (rest : List HostOp) (hs : s.script = .write 0x0C 4 v :: rest) (hp : s.phase ≠ .inReset)
      (hu : u = s.setHost s.arg (stickyNext s.errIll (v.getLsbD 3) false) (stickyNext s.errBusy (v.getLsbD 4) false)
        rest s.reads)
  /-- A CMD write while BUSY = 1. -/
  | dropped (w : Word) (rest : List HostOp) (hs : s.script = .write 0x08 4 w :: rest) (hp : s.phase ≠ .inReset)
      (hb : s.busy = true) (hu : u = s.setHost s.arg s.errIll true rest s.reads)
  /-- A CMD write of an illegal word, or of RDREG with an illegal index. -/
  | illegal (w : Word) (rest : List HostOp) (hs : s.script = .write 0x08 4 w :: rest) (hp : s.phase = .idle)
      (hw : (∃ why, decode w = .illegal why) ∨ decode w = .command .rdreg ∧ indexLegal s.arg = false)
      (hu : u = s.setHost s.arg true s.errBusy rest s.reads)
  /-- The reset input is released. -/
  | released (rest : List HostOp) (hs : s.script = .releaseReset :: rest) (hu : u = (s.withScript rest).release)
  | acceptedNop (w : Word) (rest : List HostOp) (hs : s.script = .write 0x08 4 w :: rest) (hp : s.phase = .idle)
      (hw : decode w = .command .nop) (hu : u = (s.withScript rest).accept .nop)
  | acceptedAdd (w : Word) (rest : List HostOp) (hs : s.script = .write 0x08 4 w :: rest) (hp : s.phase = .idle)
      (hw : decode w = .command .add) (hd : inDomain (s.reg (addIndex s.arg)) = true)
      (hu : u = acceptAdd (s.withScript rest))
  | acceptedEst (w : Word) (rest : List HostOp) (hs : s.script = .write 0x08 4 w :: rest) (hp : s.phase = .idle)
      (hw : decode w = .command .est) (hd : s.sketch.inDomain = true) (hu : u = acceptEst (s.withScript rest))
  | acceptedHash (w : Word) (rest : List HostOp) (hs : s.script = .write 0x08 4 w :: rest) (hp : s.phase = .idle)
      (hw : decode w = .command .hash) (hu : u = acceptHash (s.withScript rest))
  | acceptedRdreg (w : Word) (rest : List HostOp) (hs : s.script = .write 0x08 4 w :: rest) (hp : s.phase = .idle)
      (hw : decode w = .command .rdreg) (hi : indexLegal s.arg = true) (hd : inDomain (s.reg s.arg.toNat) = true)
      (hu : u = acceptRdreg (s.withScript rest))

theorem access_cases {off size : Nat} {s : State} {k : HostReg → Result} {t : State} (h : access off size s k = .next t) :
    s.phase ≠ .inReset ∧ size = 4 ∧ ∃ r, hostRegAt off = some r ∧ k r = .next t := by
  unfold access at h
  split at h
  · cases h
  · next hp =>
    split at h
    · next hs =>
      split at h
      · next r hr => exact ⟨hp, hs.1, r, hr, h⟩
      · cases h
    · cases h

theorem noResetNext_of {s : State} {op : HostOp} {rest : List HostOp} (hs : s.script = op :: rest)
    (hne : op ≠ .assertReset) : s.noResetNext := by
  unfold State.noResetNext
  rw [hs]
  simpa using hne

/-- The acceptance of a command by a core that was idle before the access. -/
theorem exec_cases {s t : State} {i : Instr} {w : Word} {rest : List HostOp}
    (hs : s.script = .write 0x08 4 w :: rest) (hp : s.phase = .idle) (hw : decode w = .command i)
    (h : exec i (s.withScript rest) = .next t) : ∃ u, Entered s u ∧ endStep u = .next t := by
  have hp' : (s.withScript rest).phase = .idle := hp
  cases i with
  | nop =>
    simp only [exec, execNop] at h
    rw [issue_idle hp'] at h
    exact ⟨_, .acceptedNop w rest hs hp hw rfl, h⟩
  | add =>
    simp only [exec, execAdd] at h
    rw [issue_idle hp'] at h
    split at h
    · next hd => exact ⟨_, .acceptedAdd w rest hs hp hw hd rfl, h⟩
    · cases h
  | est =>
    simp only [exec, execEst] at h
    rw [issue_idle hp'] at h
    split at h
    · next hd => exact ⟨_, .acceptedEst w rest hs hp hw hd rfl, h⟩
    · cases h
  | hash =>
    simp only [exec, execHash] at h
    rw [issue_idle hp'] at h
    exact ⟨_, .acceptedHash w rest hs hp hw rfl, h⟩
  | rdreg =>
    simp only [exec, execRdreg] at h
    rw [issue_idle hp'] at h
    split at h
    · next hi =>
      split at h
      · next hd => exact ⟨_, .acceptedRdreg w rest hs hp hw hi hd rfl, h⟩
      · cases h
    · next hi =>
      refine ⟨_, .illegal w rest hs hp (.inr ⟨hw, by simpa using hi⟩) rfl, ?_⟩
      rw [← h]
      congr 1
      simp [State.raiseErrIll, State.setHost, State.withScript, stickyNext]

theorem hostWrite_cases {s t : State} {off : Nat} {v : Word} {r : HostReg} {rest : List HostOp}
    (hs : s.script = .write off 4 v :: rest) (hp : s.phase ≠ .inReset) (hr : hostRegAt off = some r)
    (h : hostWrite r v (s.withScript rest) = .next t) : ∃ u, Entered s u ∧ endStep u = .next t := by
  have ho := hostRegAt_eq hr
  subst ho
  have hn : s.noResetNext := noResetNext_of hs (by simp)
  have hq : endStep (s.withScript rest) = .next t → ∃ u, Entered s u ∧ endStep u = .next t :=
    fun hh => ⟨_, .quiet rest s.reads hn rfl, hh⟩
  cases r with
  | config => exact hq h
  | arg => exact ⟨_, .wroteArg v rest hs hp rfl, h⟩
  | status => exact ⟨_, .wroteStatus v rest hs hp rfl, h⟩
  | resultLo => exact hq h
  | resultHi => exact hq h
  | reserved18 => exact hq h
  | reserved1C => exact hq h
  | cmd =>
    simp only [hostWrite, hostWriteCmd] at h
    split at h
    · next hb =>
      refine ⟨_, .dropped v rest hs hp hb rfl, ?_⟩
      rw [← h]
      congr 1
      simp [State.raiseErrBusy, State.setHost, State.withScript, stickyNext]
    · next hb =>
      have hi : s.phase = .idle := by
        have hb' : s.busy = false := Bool.eq_false_iff.2 hb
        simpa only [State.busy, ne_eq, decide_not, Bool.not_eq_false', decide_eq_true_eq] using hb'
      split at h
      · next why hd =>
        refine ⟨_, .illegal v rest hs hi (.inl ⟨why, hd⟩) rfl, ?_⟩
        rw [← h]
        congr 1
        simp [State.raiseErrIll, State.setHost, State.withScript, stickyNext]
      · next i hd => exact exec_cases hs hi hd h

/-- Everything a step can do. -/
theorem step_cases {s t : State} (h : step s = .next t) :
    (∃ rest, s.script = .assertReset :: rest ∧ t = (s.withScript rest).hardReset) ∨
    (∃ u, Entered s u ∧ endStep u = .next t) := by
  unfold step at h
  split at h
  · next hs => exact .inr ⟨s, .quiet s.script s.reads (by simp [State.noResetNext, hs]) rfl, h⟩
  · next op rest hs =>
    cases op with
    | read off size =>
      obtain ⟨-, -, r, -, h⟩ := access_cases h
      exact .inr ⟨_, .quiet rest _ (noResetNext_of hs (by simp)) rfl, h⟩
    | write off size v =>
      obtain ⟨hp, rfl, r, hr, h⟩ := access_cases h
      exact .inr (hostWrite_cases hs hp hr h)
    | poll =>
      simp only [hostEvent] at h
      obtain ⟨-, -, r, -, h⟩ := access_cases h
      split at h
      · exact .inr ⟨_, .quiet _ _ (noResetNext_of hs (by simp)) rfl, h⟩
      · exact .inr ⟨_, .quiet rest _ (noResetNext_of hs (by simp)) rfl, h⟩
    | idle => exact .inr ⟨_, .quiet rest s.reads (noResetNext_of hs (by simp)) rfl, h⟩
    | assertReset => exact .inl ⟨rest, hs, (Host.Outcome.next.inj h).symm⟩
    | releaseReset => exact .inr ⟨_, .released rest hs rfl, h⟩

end Sys2Proof.Machine
end

