-- ==== Sys2Proof/Laws/PerInstr.lean ====
section
/-! SUPPORT. Statements about every command, one lemma per constructor of `Instr`. -/

namespace Sys2Proof.Laws.RoundTrip

/-- R93, R94: the command's word decodes to it, has RSV = 0, and its OP is the opcode map's entry. -/
def Statement (i : Instr) : Prop :=
  decode (encode i) = .command i ∧ rsvField (encode i) = 0#28 ∧ opcode (opField (encode i)) = some i

theorem nop : Statement .nop := by unfold Statement; decide
theorem add : Statement .add := by unfold Statement; decide
theorem est : Statement .est := by unfold Statement; decide
theorem hash : Statement .hash := by unfold Statement; decide
theorem rdreg : Statement .rdreg := by unfold Statement; decide

end Sys2Proof.Laws.RoundTrip
end

