-- ==== Sys2Proof/Tests/Slice0.lean ====
section
/-! SUPPORT. The model's own tests, with values from spec/95_test_vectors.md and the rules' examples, each about one step or one
function, and for every obligation with hypotheses a witness that they can all be met. -/

namespace Sys2Proof.Tests

open Sys2Proof.Machine

/-! ## WellFormed: the ill-formed terms each check refuses -/

/-- 30_encoding.md R92, 43_auxiliary.md R181: 8191 is the highest legal index. -/
theorem test_rdreg_index_checked :
    Instr.rdreg.operandLegal 8191#32 = true ∧ Instr.rdreg.operandLegal 8192#32 = false ∧
      Instr.rdreg.operandLegal 0xFFFFFFFF#32 = false := by decide

/-- R65, R61: another width, an offset that is no multiple of 4, and an offset outside the window. -/
theorem test_ill_formed_access :
    accessWellFormed 0x1C 4 = true ∧ accessWellFormed 0x08 1 = false ∧ accessWellFormed 0x08 8 = false ∧
      accessWellFormed 0x0A 4 = false ∧ accessWellFormed 0x20 4 = false := by decide

/-! ## Decode: words written out from the opcode map (R90, R93, R94) -/

theorem test_decode_nop : decode 0b00000000000000000000000000000000#32 = .command .nop := by decide
theorem test_decode_add : decode 0b00000000000000000000000000000001#32 = .command .add := by decide
theorem test_decode_est : decode 0b00000000000000000000000000000010#32 = .command .est := by decide
theorem test_decode_hash : decode 0b00000000000000000000000000000011#32 = .command .hash := by decide
theorem test_decode_rdreg : decode 0b00000000000000000000000000000100#32 = .command .rdreg := by decide

/-- R94: RSV is checked before OP; the reserved opcodes are 0x5 to 0xF. -/
theorem test_decode_illegal :
    decode 0x00000005#32 = .illegal .op ∧ decode 0x0000000F#32 = .illegal .op ∧ decode 0x00000011#32 = .illegal .rsv ∧
      decode 0x80000002#32 = .illegal .rsv ∧ decode 0x0000001F#32 = .illegal .rsv := by decide

theorem test_table_words :
    decodeTableWord 32 1 = some .add ∧ decodeTableWord 32 4 = some .rdreg ∧ decodeTableWord 32 5 = none ∧
      decodeTableWord 8 3 = some .hash := by decide

/-! ## The Hash Mixer (40_hash_mixer.md section 3, 95_test_vectors.md section 2) -/

theorem test_hash_trace :
    mixKey 0x00000001#32 = 0xC3539A5D#32 ∧ mixSeed 0xC3539A5D#32 = 0x27736572#32 ∧
      avalanche 0x27736572#32 = 0xDDA7E30F#32 := by decide

theorem test_hash_vectors :
    hash32 0x00000000#32 = 0xD61909AD#32 ∧ hash32 0x00000002#32 = 0xE51A9C33#32 ∧ hash32 0x12345678#32 = 0x2B75F1FD#32 ∧
      hash32 0x80000000#32 = 0x9D82CB8E#32 ∧ hash32 0xFFFFFFFF#32 = 0xA5273A3A#32 ∧ hash32 0xC7FEA29C#32 = 0#32 := by decide

/-! ## The Update Pipeline (95_test_vectors.md section 3) -/

theorem test_index_fragment_rank :
    addIndex 0x00000000#32 = 6851 ∧ fragment 0xD61909AD#32 = 0x2135A000#32 ∧ addRank 0x00000000#32 = 3 ∧
      addIndex 0x7DF75762#32 = 8191 ∧ addRank 0x7DF75762#32 = 20 ∧ addRank 0x00000001#32 = 1 := by decide

/-- 90_conflicts.md C1: the all-zero fragment has rank 20, eighteen zeros and a 1 rank 19. -/
theorem test_rank_cap : addRank 0xC7FEA29C#32 = 20 ∧ addRank 0x0619DD4F#32 = 19 ∧ addRank 0x6103AEA6#32 = 18 := by decide

/-! ## The Estimator (95_test_vectors.md section 4, 42_estimate.md R163) -/

theorem test_est_small :
    est64 8588918784 8191 = (1#64, false) ∧ est64 6442450944 4096 = (5678#64, false) ∧
      est64 2478041537 2000 = (11550#64, false) ∧ est64 (2 ^ 33) 902 = (18073#64, false) := by decide +kernel

theorem test_est_mid_large :
    est64 2147483648 0 = (23632#64, false) ∧ est64 524288 0 = (96798497#64, false) ∧
      est64 262144 0 = (198095931#64, false) ∧ est64 308454 0 = (167765436#64, false) ∧
      est64 8192 0 = (0xFFFFFFFFFFFFFFFF#64, true) := by decide +kernel

/-! ## One step on a small state -/

/-- Reset, with the clear done. -/
def ready : State := { State.reset with phase := .idle }

/-- `ready` with the host about to make these accesses. -/
def hostDoes (ops : List HostOp) (s : State) : State := s.withScript ops

/-- The state after the next step meets `f`. -/
def next (s : State) (f : State → Bool) : Bool :=
  match step s with
  | .next t => f t
  | _ => false

/-- STATUS, RESULT and the last value read. -/
def sees (status : Word) (result : BitVec 64) (t : State) : Bool := t.status = status && t.result = result

/-- A CMD write of `w` with ARG = x. -/
def command (w x : Word) (s : State) : State := hostDoes [wr .cmd w] { s with arg := x }

/-- 95_test_vectors.md section 6: with STATUS = 0x02, NOP leaves STATUS = 0x02 and RESULT. -/
theorem test_nop : next (command 0#32 7#32 { ready with rvalid := true, result := 9#64 }) (sees 0x02#32 9#64) = true := by decide

/-- 41_update.md R135: ADD 0 puts 3 in REG[6851]. -/
theorem test_add : next (command 1#32 0#32 ready) (fun t => t.reg 6851 = 3#8 && t.status = 0#32) = true := by decide

/-- Section 3.3: a lower rank to the same register changes nothing; one still pending counts (R232). -/
theorem test_add_lower :
    next (command 1#32 0x7C66137F#32 { ready with pending := [⟨0, 19#8⟩], draws := [⟨true, 2, 0⟩] })
      (fun t => t.reg 0 = 19#8 && t.pending.length = 2 && t.busy) = true := by decide

/-- 40_hash_mixer.md R116: HASH 1. -/
theorem test_hash : next (command 3#32 1#32 ready) (sees 0x02#32 0x00000000DDA7E30F#64) = true := by decide

/-- Section 6: EDOM stays 1 after HASH; while it is in flight RVALID is 0 and RESULT the last one (R40). -/
theorem test_hash_in_flight :
    next (command 3#32 1#32 { ready with edom := true, rvalid := true, result := 5#64, draws := [⟨true, 0, 0⟩] })
      (sees 0x05#32 5#64) = true := by decide

/-- S2 and section 4.1: one register 5, the rest 0, estimates 1; a pending ADD is read through (R232). -/
theorem test_est : next (command 2#32 0#32 { ready with pending := [⟨17, 5#8⟩] }) (sees 0x02#32 1#64) = true := by decide +kernel

/-- 42_estimate.md R165: EST on the reset state gives 0; EDOM of an earlier EST is cleared (R44). -/
theorem test_est_empty : next (command 2#32 0#32 { ready with edom := true }) (sees 0x02#32 0#64) = true := by decide +kernel

/-- Section 6: RDREG 6851 with REG[6851] = 3. -/
theorem test_rdreg : next (command 4#32 6851#32 { ready with cells := [(6851, 3#8)] }) (sees 0x02#32 3#64) = true := by decide

/-- Section 6: RDREG of 0xFFFFFFFF with STATUS = 0x02 and RESULT = 5 leaves STATUS = 0x0A and RESULT = 5. -/
theorem test_rdreg_illegal :
    next (command 4#32 0xFFFFFFFF#32 { ready with rvalid := true, result := 5#64 }) (sees 0x0A#32 5#64) = true := by decide

/-- Section 6: illegal words. -/
theorem test_illegal_words :
    next (command 0x5#32 0#32 ready) (sees 0x08#32 0#64) = true ∧ next (command 0x11#32 0#32 ready) (sees 0x08#32 0#64) = true ∧
      next (command 0x80000002#32 0#32 ready) (sees 0x08#32 0#64) = true := by decide

/-- An EST in flight that has scanned nothing yet and goes on. -/
def estRunning : State := { ready with phase := .running .est 0#32, scan := some Scan.start, draws := [⟨true, 0, 5⟩] }

/-- Section 6: a word written while EST is in flight is dropped undecoded; ARG may be written. -/
theorem test_dropped :
    next (hostDoes [wr .cmd 5#32] estRunning) (fun t => t.status = 0x11#32 && t.scan = some ⟨5, 5242880#34, 5#14⟩) = true ∧
      next (hostDoes [wr .arg 7#32] estRunning) (fun t => t.arg = 7#32 && t.busy) = true := by decide

/-- Section 6: the W1C bits. -/
theorem test_status_write :
    next (hostDoes [wr .status 0x08#32] { ready with errIll := true, errBusy := true }) (sees 0x10#32 0#64) = true ∧
      next (hostDoes [wr .status 0xFFFFFFFF#32] { ready with rvalid := true, edom := true, errIll := true, errBusy := true })
        (sees 0x06#32 0#64) = true ∧
      next (hostDoes [wr .status 0#32] { ready with errIll := true }) (sees 0x08#32 0#64) = true := by decide

/-- Section 6: read-only and reserved registers. -/
theorem test_ignored_writes :
    next (hostDoes [wr .resultLo 0x12345678#32] { ready with result := 1#64 }) (sees 0#32 1#64) = true ∧
      readHostReg .config ready = 0x0000140D#32 ∧ readHostReg .resultHi { ready with result := 0x9A1208D65#64 } = 9#32 := by decide

/-- 70_reset_and_hazards.md R221, 10_state.md R51: BUSY = 1 right after reset, a CMD write then is dropped, and the clear
ends. -/
theorem test_reset_clear :
    State.reset.status = 0x01#32 ∧ next (hostDoes [wr .cmd 2#32] State.reset) (sees 0x10#32 0#64) = true ∧
      next (hostDoes [.poll] State.reset) (fun t => t.reads = [1#32] && t.script = [.poll] && !t.busy) = true := by decide

/-- 30_encoding.md R98, R99: negative operands and an expansion. -/
theorem test_host_program :
    signedOperand (-1) = 0xFFFFFFFF#32 ∧
      Pseudo.expand (.add 7#32) = [.read 0x0C 4, .write 0x04 4 7#32, .write 0x08 4 1#32].set 0 .poll := by decide

/-- 20_memory.md R62: the write keeps the canonical form, and writing 0 removes the cell. -/
theorem test_memory :
    Memory.write [(5, 3#8)] 2 1#8 = [(2, 1#8), (5, 3#8)] ∧ Memory.write [(2, 1#8), (5, 3#8)] 5 0#8 = [(2, 1#8)] ∧
      Memory.wf [(5, 3#8), (2, 1#8)] = false ∧ Memory.wf [(8192, 1#8)] = false := by decide

/-! ## Witnesses: states and operands that meet the hypotheses of each obligation, at the edges of each clause -/

/-- The draw keeps BUSY = 1 for one more step. -/
def slow : State := { ready with draws := [⟨true, 0, 0⟩] }

/-- The reset input is asserted. -/
def held : State := State.reset.hardReset

theorem ready_inv : ready.Inv := ⟨rfl, rfl, rfl, rfl, rfl⟩
theorem slow_inv : slow.Inv := ⟨rfl, rfl, rfl, rfl, rfl⟩
theorem estRunning_inv : estRunning.Inv := ⟨rfl, rfl, rfl, by decide +kernel, rfl⟩

theorem witness_ByteLanesReassemble : 3 < 4 ∧ 7 < 8 ∧ (byteLane 0x80000000#32 3).getLsbD 7 = true := by decide

theorem witness_WindowMapIsExact : 0x1C + 3 < 32 ∧ 0x1C < 32 ∧ 0x1C % 4 = 0 ∧ hostRegAt 0x1C = some .reserved1C := by decide

/-- The host accesses of this obligation and of the next four: an idle step goes on. -/
theorem witness_idle_step : ready.phase ≠ .inReset ∧ ∃ t, step (ready.withScript [.idle]) = .next t :=
  ⟨by decide, _, rfl⟩

theorem witness_ConfigIsConstant : ready.phase ≠ .inReset := by decide

theorem witness_ArgHoldsTheLastWrite :
    (ready.phase ≠ .inReset ∧ ∃ t, step (ready.withScript [.idle]) = .next t) ∧
      ((∃ t, step (ready.withScript [wr .cmd 1#32]) = .next t) ∧
        (∀ v rest, (ready.withScript [wr .cmd 1#32]).script ≠ .write 0x04 4 v :: rest) ∧
        (ready.withScript [wr .cmd 1#32]).noResetNext) ∧
      (slow.phase = .idle ∧ ∃ t, exec .hash slow = .next t) :=
  ⟨witness_idle_step, ⟨⟨_, rfl⟩, by simp [wr, State.withScript, HostReg.offset], by simp [State.noResetNext, wr, State.withScript]⟩,
    rfl, _, rfl⟩

theorem witness_StatusWordLayout :
    (readHostReg .status { slow with rvalid := true, edom := true, errIll := true, errBusy := true }) = 0x1E#32 := by decide

theorem witness_StatusWriteClearsWrittenOnes :
    ready.phase ≠ .inReset ∧ ∃ t, step (ready.withScript [.idle]) = .next t := witness_idle_step

theorem witness_HostReadsHaveNoSideEffect :
    estRunning.phase ≠ .inReset ∧ ∃ t, step (estRunning.withScript [.idle]) = .next t := ⟨by decide, _, rfl⟩

theorem witness_ReadOnlyRegistersIgnoreWrites :
    ready.phase ≠ .inReset ∧ ∀ off, off ∈ [0x10, 0x14, 0x18, 0x1C] → off = 0x10 ∨ off = 0x14 ∨ off = 0x18 ∨ off = 0x1C := by
  decide

theorem witness_UnsupportedAccessesAreRefused :
    held.phase = .inReset ∧ (ready.phase ≠ .inReset ∧ ((1 ≠ 4 ∨ 0 % 4 ≠ 0) ∧ (4 ≠ 4 ∨ 2 % 4 ≠ 0))) ∧
      (ready.phase ≠ .inReset ∧ 32 % 4 = 0 ∧ 32 ≤ 32) := by decide

theorem witness_PollRepeatsWhileBusy :
    estRunning.phase ≠ .inReset ∧ estRunning.busy = true ∧ ready.phase ≠ .inReset ∧ ready.busy = false := by decide

theorem witness_StepRunsTheDecodedCommand : ready.phase = .idle ∧ decode 4#32 = .command .rdreg := by decide

theorem witness_FetchedWordRuns : decodeTableWord 32 0 = some .nop ∧ decodeTableWord 32 4 = some .rdreg := by decide

theorem witness_CmdWriteWhileBusyIsDropped :
    estRunning.busy = true ∧ estRunning.phase ≠ .inReset ∧ ∃ t, step (estRunning.withScript [.idle]) = .next t :=
  ⟨by decide, by decide, _, rfl⟩

theorem witness_CommandsIssuedWhileBusyAreDropped :
    State.reset.busy = true ∧ State.reset.phase ≠ .inReset ∧ ∃ t, endStep State.reset = .next t :=
  ⟨by decide, by decide, _, rfl⟩

theorem witness_IllegalCmdWriteOnlySetsErrIll :
    ready.phase = .idle ∧ 16 ≤ (16#32).toNat ∧ 16 ≤ (0xFFFFFFFF#32).toNat ∧ (5 ≤ (5#32).toNat ∧ (5#32).toNat ≤ 15) ∧
      (5 ≤ (15#32).toNat ∧ (15#32).toNat ≤ 15) ∧ 8192 ≤ ({ ready with arg := 8192#32 } : State).arg.toNat := by decide

theorem witness_NopHasNoEffect : ready.phase = .idle ∧ slow.phase = .idle := by decide

/-- An ADD of 0 selects register 6851, which holds the largest rank. -/
theorem witness_AddRaisesOneRegister :
    ({ ready with cells := [(6851, 20#8)] } : State).phase = .idle ∧
      (({ ready with cells := [(6851, 20#8)] } : State).reg (addIndex 0#32)).toNat ≤ 20 := by decide

theorem witness_HashPutsTheHashInResult : ready.phase = .idle ∧ ready.settles := ⟨rfl, rfl⟩

theorem witness_EstPutsTheEstimateInResult : ready.Inv ∧ ready.phase = .idle ∧ ready.settles := ⟨ready_inv, rfl, rfl⟩

/-- Two states that differ in ARG, the flags and which ADDs have written. -/
theorem witness_EstDependsOnRegistersOnly :
    ({ ready with cells := [(0, 3#8)] } : State).Inv ∧
      ({ ready with pending := [⟨0, 3#8⟩], arg := 1#32, edom := true } : State).Inv ∧
      ({ ready with pending := [⟨0, 3#8⟩], arg := 1#32, edom := true } : State).settles ∧
      ({ ready with pending := [⟨0, 3#8⟩], arg := 1#32, edom := true } : State).sketch =
        ({ ready with cells := [(0, 3#8)] } : State).sketch :=
  ⟨⟨rfl, rfl, rfl, rfl, rfl⟩, ⟨rfl, rfl, rfl, rfl, rfl⟩, rfl, rfl⟩

theorem witness_RdregReadsOneRegister :
    (({ ready with arg := 8191#32 } : State).phase = .idle ∧ ({ ready with arg := 8191#32 } : State).settles ∧
      (8191#32).toNat < 8192 ∧ (({ ready with arg := 8191#32 } : State).reg 8191).toNat ≤ 20) ∧
      (({ ready with arg := 8192#32 } : State).phase = .idle ∧ 8192 ≤ (8192#32).toNat) :=
  ⟨⟨rfl, rfl, by decide, by decide⟩, rfl, by decide⟩

theorem witness_ResultCommandsInFlight :
    slow.Inv ∧ slow.phase = .idle ∧ slow.draw.stillBusy = true ∧ ({ slow with arg := 8191#32 } : State).Inv ∧
      ({ slow with arg := 8191#32 } : State).arg.toNat < 8192 :=
  ⟨slow_inv, rfl, rfl, ⟨rfl, rfl, rfl, rfl, rfl⟩, by decide⟩

/-- A command in flight, with its operand, in a state that meets the invariant: one of each. -/
def runs (i : Instr) (x : Word) (sc : Option Scan) : State := { ready with phase := .running i x, scan := sc }

theorem witness_InFlightCommandCompletes :
    ((runs .nop 0#32 none).Inv ∧ (runs .add 0#32 none).Inv ∧ (runs .hash 1#32 none).Inv ∧
      (runs .est 0#32 (some Scan.start)).Inv ∧ (runs .rdreg 8191#32 none).Inv) ∧
      (runs .rdreg 8191#32 none).script = [] ∧ (runs .rdreg 8191#32 none).settles :=
  ⟨⟨⟨rfl, rfl, rfl, rfl, rfl⟩, ⟨rfl, rfl, rfl, rfl, rfl⟩, ⟨rfl, rfl, rfl, rfl, rfl⟩,
    ⟨rfl, rfl, rfl, by decide +kernel, rfl⟩, ⟨rfl, rfl, rfl, rfl, rfl⟩⟩, rfl, rfl⟩

/-- A register at 21, the first value outside the domain. -/
def outOfDomain : State := { ready with cells := [(6851, 21#8)], arg := 0#32 }

theorem witness_OutOfDomainRegistersAreRefused :
    outOfDomain.phase = .idle ∧ 20 < (outOfDomain.reg (addIndex outOfDomain.arg)).toNat ∧ outOfDomain.cells.wf = true ∧
      20 < (outOfDomain.reg 6851).toNat ∧ (6851#32).toNat < 8192 := by decide

theorem witness_HashStepsAreInvertible :
    (0xC2B2AE35#32).getLsbD 0 = true ∧ (0 < 1 ∧ 1 < 32) ∧ (0 < 31 ∧ 31 < 32) ∧ 1 ≤ 1 := by decide

theorem witness_RankFromTheFragmentBits :
    rank (fragment 0x00040000#32) = 1 ∧ rank (fragment 0x00000001#32) = 19 ∧ rank (fragment 0#32) = 20 := by decide

theorem witness_RegistersAreMaximaOverTheValuesAdded :
    (ready.phase = .idle ∧ ∃ t, exec .add ready = .next t) ∧ ∀ x : Word, x ∈ [0#32, 1#32] ↔ x ∈ [1#32, 0#32, 1#32] :=
  ⟨⟨rfl, _, rfl⟩, by simp [or_comm]⟩

theorem witness_RegistersNeverDecrease :
    ready.Inv ∧ (∃ t, step ready = .next t) ∧ ready.noResetNext ∧ 8192 ≤ 8192 :=
  ⟨ready_inv, ⟨_, rfl⟩, by simp [State.noResetNext, ready, State.reset], le_refl _⟩

theorem witness_OnlyAddChangesRegisters :
    (ready.withScript [wr .cmd 1#32]).Inv ∧ (ready.withScript [wr .cmd 1#32]).noResetNext ∧
      next (ready.withScript [wr .cmd 1#32]) (fun t => t.reg 6851 ≠ (ready.withScript [wr .cmd 1#32]).reg 6851) = true :=
  ⟨⟨rfl, rfl, rfl, rfl, rfl⟩, by simp [State.noResetNext, State.withScript, wr], by decide⟩

/-- An ADD that has written its register, and the same ADD still pending. -/
theorem witness_PendingWritesAreInvisible :
    ({ ready with pending := [⟨0, 3#8⟩] } : State).sketch = ({ ready with cells := [(0, 3#8)] } : State).sketch ∧
      { ({ ready with pending := [⟨0, 3#8⟩] } : State) with cells := [(0, 3#8)], pending := [] } =
        ({ ready with cells := [(0, 3#8)] } : State) ∧ ∃ t, step { ready with cells := [(0, 3#8)] } = .next t :=
  ⟨rfl, rfl, _, rfl⟩

/-- A scan at its start, past the first register, and at the end. -/
theorem witness_ScanComputesSumAndZeros :
    Memory.wf [(0, 20#8), (8191, 1#8)] = true ∧ Scan.start.ok [(0, 20#8), (8191, 1#8)] = true ∧
      Scan.ok [(0, 20#8), (8191, 1#8)] ⟨1, 1#34, 0#14⟩ = true ∧
      Scan.ok [(0, 20#8), (8191, 1#8)] ⟨8192, 8588361729#34, 8190#14⟩ = true := by decide +kernel

theorem witness_Fl64RoundsToNearestEven : 0 < 3 ∧ (F64.mk false 6004799503160661 (-54)).representable :=
  ⟨by norm_num, by norm_num [F64.representable]⟩

/-- 1, and the largest and smallest normal values. -/
theorem witness_LogarithmIsAccurate :
    ∀ x ∈ [F64.mk false (2 ^ 52) (-52), F64.mk false (2 ^ 53 - 1) 971, F64.mk false (2 ^ 52) (-1074)],
      x.neg = false ∧ 2 ^ 52 ≤ x.man ∧ x.man < 2 ^ 53 ∧ -1074 ≤ x.exp ∧ x.exp ≤ 971 := by decide

theorem witness_RawEstimateIsExactFloor :
    (354487 ≤ 354487 ∧ 354487 ≤ 2 ^ 33 ∧ 354487 ≤ 2478041536) ∧
      (354487 ≤ 2478041536 ∧ 2478041536 ≤ 2 ^ 33 ∧ 2478041536 ≤ 2478041536) ∧
      (354487 ≤ 2478041537 ∧ 2478041537 ≤ 2 ^ 33 ∧ 0 = 0) ∧ (354487 ≤ 2 ^ 33 ∧ 2 ^ 33 ≤ 2 ^ 33 ∧ 0 = 0) := by decide

theorem witness_LinearCountingIsFloorOfRealLog :
    2478041537 ≤ 2478041537 ∧ 2478041537 ≤ 2 ^ 33 ∧ 1 ≤ 1 ∧ 1 ≤ 8192 ∧ 8192 ≤ 8192 := by decide

theorem witness_LargeRangeFollowsTheRealLog : 11817 ≤ 11817 ∧ 11817 ≤ 354486 ∧ 354486 ≤ 354486 := by decide

theorem witness_LargeRangeIsFloorOfRealLog : 11817 ≤ 11817 ∧ 11817 ≤ 354486 ∧ 354486 ≤ 354486 := by decide

theorem read_ones (n lo a : Nat) :
    Memory.read ((List.range' lo n).map fun i => (i, 1#8)) a = if lo ≤ a ∧ a < lo + n then 1#8 else 0#8 := by
  induction n generalizing lo with
  | zero => rw [if_neg (by omega)]; rfl
  | succ n ih =>
    rw [List.range'_succ, List.map_cons, Memory.read, ih]
    split_ifs <;> first | rfl | omega

/-- Every register at 1 but the last, which an ADD of 0x338CB9D2 raises to 1 (95_test_vectors.md P7). -/
def allButLast : State := { ready with cells := (List.range' 0 8191).map fun i => (i, 1#8), arg := 0x338CB9D2#32 }

theorem witness_EstimateEdges :
    allButLast.phase = .idle ∧ addRank allButLast.arg = 1 ∧
      ∀ a, a < 8192 → allButLast.reg a = if a = addIndex allButLast.arg then 0#8 else 1#8 := by
  refine ⟨rfl, by decide, fun a ha => ?_⟩
  rw [show addIndex allButLast.arg = 8191 by decide]
  exact (read_ones 8191 0 a).trans (by split_ifs <;> first | rfl | omega)

theorem witness_DomainErrorExactlyUpTo11816 : 8192 ≤ 8192 ∧ 8192 ≤ 11816 ∧ 8192 ≤ 11817 ∧ 11817 ≤ 2 ^ 33 := by decide

theorem witness_ZeroStateEstimatesZero : ready.sketch = [] ∧ ready.phase = .idle ∧ ready.settles := ⟨rfl, rfl, rfl⟩

theorem witness_EveryStepKeepsTheInvariant :
    (ready.withScript [wr .cmd 2#32]).Inv ∧ (∃ t, step (ready.withScript [wr .cmd 2#32]) = .next t) ∧
      (ready.withScript [.assertReset]).Inv ∧ ∃ t, step (ready.withScript [.assertReset]) = .next t :=
  ⟨⟨rfl, rfl, rfl, rfl, rfl⟩, ⟨_, rfl⟩, ⟨rfl, rfl, rfl, rfl, rfl⟩, _, rfl⟩

theorem witness_StopsOnlyOnUnsupportedAccesses : held.Inv ∧ ready.Inv := ⟨⟨rfl, rfl, rfl, rfl, rfl⟩, ready_inv⟩

/-- A HASH that one draw keeps in flight. -/
theorem witness_CommandsTakeEffectAsOneStep :
    slow.Inv ∧ slow.phase = .idle ∧ slow.script = [] ∧ ∃ t u, exec .hash slow = .next t ∧ runFor 1 t = .next u ∧ u.phase = .idle :=
  ⟨slow_inv, rfl, rfl, _, _, rfl, rfl, rfl⟩

theorem witness_BusyFallsAndPendingDrains : estRunning.Inv ∧ estRunning.phase ≠ .inReset ∧ estRunning.script = [] :=
  ⟨estRunning_inv, by decide, rfl⟩

/-- The release of reset with a draw that lets the clear go on, and with one that lets it end. -/
theorem witness_ResetAbandonsTheCommandInFlight :
    (∃ t u, step (estRunning.withScript [.assertReset, .releaseReset]) = .next t ∧ t.script = [.releaseReset] ∧
      step t = .next u ∧ t.draw.stillBusy = true) ∧
      ∃ t u, step (ready.withScript [.assertReset, .releaseReset]) = .next t ∧ t.script = [.releaseReset] ∧
        step t = .next u ∧ t.draw.stillBusy = false :=
  ⟨⟨_, _, rfl, rfl, rfl, rfl⟩, _, _, rfl, rfl, rfl, rfl⟩

/-- A clear that goes on and one that ends, with a dropped CMD write in the second. -/
theorem witness_ResetState :
    (({ State.reset with draws := [⟨true, 0, 0⟩] } : State).Inv ∧
      ∃ t, step { State.reset with draws := [⟨true, 0, 0⟩] } = .next t) ∧
      ((State.reset.withScript [wr .cmd 1#32]).Inv ∧ (State.reset.withScript [wr .cmd 1#32]).phase = .clearing ∧
        (State.reset.withScript [wr .cmd 1#32]).noResetNext ∧ ∃ t, step (State.reset.withScript [wr .cmd 1#32]) = .next t) :=
  ⟨⟨⟨rfl, rfl, rfl, rfl, rfl⟩, _, rfl⟩, ⟨rfl, rfl, rfl, rfl, rfl⟩, rfl,
    by simp [State.noResetNext, State.withScript, wr], _, rfl⟩

theorem witness_ErrorBitsAreSticky :
    next (hostDoes [wr .status 0x18#32] { ready with errIll := true, errBusy := true }) (fun t => !t.errIll && !t.errBusy) = true ∧
      next (hostDoes [wr .cmd 5#32] ready) (fun t => t.errIll) = true ∧
      next (hostDoes [wr .cmd 0#32] estRunning) (fun t => t.errBusy) = true := by decide

/-- Each of the three commands, just issued, and a HASH in flight. -/
theorem witness_ResultChangesOnlyAtCompletion :
    (command 3#32 1#32 ready).noResetNext ∧ next (command 3#32 1#32 ready) (fun t => t.result ≠ ready.result) = true ∧
      next (command 2#32 0#32 { ready with result := 5#64 }) (fun t => t.result ≠ 5#64) = true ∧
      next (command 4#32 8191#32 { ready with result := 5#64 }) (fun t => t.result ≠ 5#64) = true ∧
      (runs .hash 1#32 none).noResetNext ∧ next (runs .hash 1#32 none) (fun t => t.result ≠ ready.result) = true :=
  ⟨by simp [State.noResetNext, command, hostDoes, State.withScript, wr], by decide, by decide +kernel, by decide,
    by simp [State.noResetNext, runs, ready, State.reset], by decide⟩

/-- Every register at 20 (95_test_vectors.md P5). -/
def saturated : State := { ready with cells := (List.range 8192).map fun i => (i, 20#8), script := [wr .cmd 2#32] }

theorem saturated_inv : saturated.Inv := ⟨by decide +kernel, by decide +kernel, rfl, rfl, rfl⟩

theorem witness_EdomOnlyFromEst :
    (saturated.Inv ∧ saturated.edom = false ∧
      next saturated (fun t => t.edom && t.result = 0xFFFFFFFFFFFFFFFF#64) = true) ∧
      (command 2#32 0#32 { ready with edom := true }).Inv ∧
      next (command 2#32 0#32 { ready with edom := true }) (fun t => !t.edom) = true ∧
      ({ ready with edom := true, script := [.assertReset] } : State).Inv ∧
      next { ready with edom := true, script := [.assertReset] } (fun t => !t.edom) = true :=
  ⟨⟨saturated_inv, rfl, by decide +kernel⟩, ⟨rfl, rfl, rfl, rfl, rfl⟩, by decide +kernel, ⟨rfl, rfl, rfl, rfl, rfl⟩,
    by decide⟩

end Sys2Proof.Tests
end

section
/-! What `fl64` does (00_scope.md R11): a value as sign, significand and exponent; the exponent `ratioExponent` finds; the integer
`roundEven` finds; and from them that no representable value is nearer than the one `fl64` gives. -/

namespace Sys2Proof.Machine

/-! ### Values -/

/-- The factor a sign bit stands for. -/
def signFactor (neg : Bool) : ℚ := if neg then -1 else 1

@[simp] theorem abs_signFactor (neg : Bool) : |signFactor neg| = 1 := by cases neg <;> simp [signFactor]

/-- Multiplying by `2^(-k)` on top and by `2^k` below, each where it is a natural power, divides the ratio by `2^k`. -/
theorem scaled_ratio (n d : ℚ) (k : ℤ) :
    n * 2 ^ (-k).toNat / (d * 2 ^ k.toNat) = n / d / (2 : ℚ) ^ k := by
  obtain ⟨m, rfl | rfl⟩ := k.eq_nat_or_neg
  · simp [div_div]
  · simp [div_mul_eq_mul_div]

theorem F64.value_eq (x : F64) : x.value = signFactor x.neg * x.man * (2 : ℚ) ^ x.exp := by
  have magnitude : (x.num : ℚ) / x.den = x.man * (2 : ℚ) ^ x.exp := by
    have h := scaled_ratio x.man 1 (-x.exp)
    simpa [F64.num, F64.den] using h
  have sign : (x.signedNum : ℚ) = signFactor x.neg * x.num := by
    cases h : x.neg <;> simp [F64.signedNum, signFactor, h]
  rw [F64.value, sign, mul_div_assoc, magnitude, mul_assoc]

theorem F64.abs_value (x : F64) : |x.value| = x.man * (2 : ℚ) ^ x.exp := by
  rw [x.value_eq, abs_mul, abs_mul, abs_signFactor, one_mul, Nat.abs_cast, abs_of_pos (by positivity)]

/-- A value whose last place is `2^k` or more is a whole number of units `2^k`. -/
theorem F64.value_eq_int_mul (x : F64) {k : ℤ} (hk : k ≤ x.exp) : ∃ j : ℤ, x.value = j * (2 : ℚ) ^ k := by
  obtain ⟨m, hm⟩ := Int.le.dest hk
  refine ⟨(if x.neg then -1 else 1) * x.man * 2 ^ m, ?_⟩
  rw [x.value_eq, ← hm, zpow_add₀ two_ne_zero, zpow_natCast]
  cases x.neg <;> simp [signFactor] <;> ring

/-! ### The exponent and the integer that `fl64` finds -/

/-- `ratioExponent` is the binary exponent of `n/d`. -/
theorem ratioExponent_spec {n d : ℕ} (hn : n ≠ 0) (hd : d ≠ 0) :
    (2 : ℚ) ^ ratioExponent n d ≤ n / d ∧ (n : ℚ) / d < (2 : ℚ) ^ (ratioExponent n d + 1) := by
  have hd' : (0 : ℚ) < d := by exact_mod_cast Nat.pos_of_ne_zero hd
  have nLow : (2 : ℚ) ^ n.log2 ≤ n := by exact_mod_cast Nat.log2_self_le hn
  have nHigh : (n : ℚ) < 2 ^ (n.log2 + 1) := by exact_mod_cast Nat.lt_log2_self
  have dLow : (2 : ℚ) ^ d.log2 ≤ d := by exact_mod_cast Nat.log2_self_le hd
  have dHigh : (d : ℚ) < 2 ^ (d.log2 + 1) := by exact_mod_cast Nat.lt_log2_self
  have test : d * 2 ^ (n.log2 - d.log2) ≤ n * 2 ^ (d.log2 - n.log2) ↔
      (2 : ℚ) ^ ((n.log2 : ℤ) - d.log2) ≤ n / d := by
    have h := scaled_ratio n d ((n.log2 : ℤ) - d.log2)
    rw [neg_sub, Int.toNat_sub, Int.toNat_sub] at h
    rw [← one_le_div₀ (by positivity : (0 : ℚ) < 2 ^ ((n.log2 : ℤ) - d.log2)), ← h, one_le_div₀ (by positivity)]
    exact_mod_cast Iff.rfl
  rw [ratioExponent]
  split_ifs with h
  · refine ⟨test.mp h, ?_⟩
    rw [sub_add_eq_add_sub, zpow_sub₀ two_ne_zero, zpow_natCast, ← Nat.cast_succ, zpow_natCast]
    gcongr
  · rw [sub_add_cancel]
    refine ⟨?_, not_le.mp (test.not.mp h)⟩
    rw [sub_sub, zpow_sub₀ two_ne_zero, zpow_natCast, ← Nat.cast_succ, zpow_natCast]
    gcongr

/-- `roundEven` rounds down up to the middle and up from it on; in the middle its result is even. -/
theorem roundEven_cases (n d : ℕ) :
    (roundEven n d = n / d ∧ 2 * (n % d) ≤ d ∨ roundEven n d = n / d + 1 ∧ d ≤ 2 * (n % d)) ∧
      (2 * (n % d) = d → roundEven n d % 2 = 0) := by
  unfold roundEven
  split_ifs <;> omega

/-- The integer `roundEven` gives is at most 1/2 away from `n/d`, and even if it is 1/2 away. -/
theorem roundEven_spec (n : ℕ) {d : ℕ} (hd : 0 < d) :
    |(roundEven n d : ℚ) - n / d| ≤ 1 / 2 ∧ (|(roundEven n d : ℚ) - n / d| = 1 / 2 → roundEven n d % 2 = 0) := by
  have hd' : (0 : ℚ) < d := by exact_mod_cast hd
  have parts : (n : ℚ) / d = (n / d : ℕ) + (n % d : ℕ) / d := by
    rw [div_eq_iff hd'.ne', add_mul, div_mul_cancel₀ _ hd'.ne', mul_comm]
    exact_mod_cast (Nat.div_add_mod n d).symm
  have below_one : ((n % d : ℕ) : ℚ) / d < 1 := (div_lt_one hd').mpr (by exact_mod_cast Nat.mod_lt n hd)
  have nonneg : 0 ≤ ((n % d : ℕ) : ℚ) / d := by positivity
  have middle : ((n % d : ℕ) : ℚ) / d = 1 / 2 → 2 * (n % d) = d := fun h => by
    rw [div_eq_div_iff hd'.ne' two_ne_zero, one_mul, mul_comm] at h
    exact_mod_cast h
  obtain ⟨⟨hq, hr⟩ | ⟨hq, hr⟩, even⟩ := roundEven_cases n d
  · have half : ((n % d : ℕ) : ℚ) / d ≤ 1 / 2 := by
      rw [div_le_div_iff₀ hd' two_pos, one_mul, mul_comm]
      exact_mod_cast hr
    have distance : |(roundEven n d : ℚ) - n / d| = (n % d : ℕ) / d := by
      rw [parts, hq, sub_add_cancel_left, abs_neg, abs_of_nonneg nonneg]
    rw [distance]
    exact ⟨half, even ∘ middle⟩
  · have half : 1 / 2 ≤ ((n % d : ℕ) : ℚ) / d := by
      rw [div_le_div_iff₀ two_pos hd', one_mul, mul_comm ((n % d : ℕ) : ℚ)]
      exact_mod_cast hr
    have distance : |(roundEven n d : ℚ) - n / d| = 1 - (n % d : ℕ) / d := by
      rw [parts, hq, Nat.cast_succ, add_sub_add_left_eq_sub, abs_of_pos (sub_pos.mpr below_one)]
    rw [distance]
    exact ⟨by linarith, fun h => even (middle (by linarith))⟩

/-- No integer is nearer to `n/d` than the one `roundEven` gives; where another is as near, that one is even. -/
theorem roundEven_nearest (n : ℕ) {d : ℕ} (hd : 0 < d) (j : ℤ) :
    |(roundEven n d : ℚ) - n / d| ≤ |(j : ℚ) - n / d| ∧
      (|(roundEven n d : ℚ) - n / d| = |(j : ℚ) - n / d| → j = roundEven n d ∨ roundEven n d % 2 = 0) := by
  obtain ⟨half, tie⟩ := roundEven_spec n hd
  by_cases hj : j = roundEven n d
  · simp [hj]
  · have apart : (1 : ℚ) ≤ |(j : ℚ) - roundEven n d| := by
      have : (1 : ℤ) ≤ |j - roundEven n d| := Int.one_le_abs (sub_ne_zero.mpr hj)
      exact_mod_cast this
    have triangle := abs_sub_le (j : ℚ) (n / d) (roundEven n d)
    rw [abs_sub_comm ((n : ℚ) / d)] at triangle
    exact ⟨by linarith, fun h => .inr (tie (by linarith))⟩

/-! ### The value that `fl64` gives -/

/-- The rounded quotient of `n/d` by its last place, before `fl64` makes `2^53` a power of two of the next binade. -/
def significand (n d : ℕ) : ℕ := roundEven (n * 2 ^ (-lastPlace n d).toNat) (d * 2 ^ (lastPlace n d).toNat)

/-- `significand` is nearest to the quotient it rounds: `roundEven_spec` and `roundEven_nearest` in terms of `n/d`. -/
theorem significand_nearest (n : ℕ) {d : ℕ} (hd : 0 < d) (j : ℤ) :
    |(significand n d : ℚ) - n / d / 2 ^ lastPlace n d| ≤ |(j : ℚ) - n / d / 2 ^ lastPlace n d| ∧
      (|(significand n d : ℚ) - n / d / 2 ^ lastPlace n d| = |(j : ℚ) - n / d / 2 ^ lastPlace n d| →
        j = significand n d ∨ significand n d % 2 = 0) := by
  have h := roundEven_nearest (n * 2 ^ (-lastPlace n d).toNat) (d := d * 2 ^ (lastPlace n d).toNat) (by positivity) j
  push_cast [scaled_ratio] at h
  exact h

theorem significand_half (n : ℕ) {d : ℕ} (hd : 0 < d) :
    |(significand n d : ℚ) - n / d / 2 ^ lastPlace n d| ≤ 1 / 2 := by
  have h := (roundEven_spec (n * 2 ^ (-lastPlace n d).toNat) (d := d * 2 ^ (lastPlace n d).toNat) (by positivity)).1
  push_cast [scaled_ratio] at h
  exact h

theorem neg_1074_le_lastPlace (n d : ℕ) : -1074 ≤ lastPlace n d := le_max_right _ _

/-- At most 53 bits stand at or above the last place. -/
theorem significand_le {n d : ℕ} (hn : n ≠ 0) (hd : 0 < d) : significand n d ≤ 2 ^ 53 := by
  have small : (n : ℚ) / d / 2 ^ lastPlace n d < 2 ^ 53 := by
    rw [div_lt_iff₀ (by positivity), ← zpow_natCast, ← zpow_add₀ two_ne_zero]
    refine (ratioExponent_spec hn hd.ne').2.trans_le (zpow_le_zpow_right₀ one_le_two ?_)
    have := le_max_left (ratioExponent n d - 52) (-1074)
    rw [lastPlace]
    omega
  have close := (abs_le.mp (significand_half n hd)).2
  have : (significand n d : ℚ) < 2 ^ 53 + 1 := by linarith
  exact Nat.lt_succ_iff.mp (by exact_mod_cast this)

theorem fl64_zero (neg : Bool) (d : ℕ) : fl64 neg 0 d = ⟨false, 0, 0⟩ := rfl

theorem fl64_of_significand {n : ℕ} (hn : n ≠ 0) (neg : Bool) (d : ℕ) :
    fl64 neg n d = if significand n d = 2 ^ 53 then ⟨neg, 2 ^ 52, lastPlace n d + 1⟩
      else ⟨neg, significand n d, lastPlace n d⟩ := by
  rw [fl64, if_neg hn]
  rfl

theorem fl64_value {n : ℕ} (hn : n ≠ 0) (neg : Bool) (d : ℕ) :
    (fl64 neg n d).value = signFactor neg * significand n d * 2 ^ lastPlace n d := by
  rw [fl64_of_significand hn]
  split_ifs with carry
  · rw [F64.value_eq, carry, zpow_add₀ two_ne_zero]
    push_cast
    ring
  · rw [F64.value_eq]

theorem fl64_man_even {n d : ℕ} (hn : n ≠ 0) (neg : Bool) (even : significand n d % 2 = 0) :
    (fl64 neg n d).man % 2 = 0 := by
  rw [fl64_of_significand hn]
  split_ifs
  · norm_num
  · exact even

theorem fl64_representable (neg : Bool) (n : ℕ) {d : ℕ} (hd : 0 < d) : (fl64 neg n d).representable := by
  by_cases hn : n = 0
  · subst hn
    simp [fl64_zero, F64.representable]
  · have place := neg_1074_le_lastPlace n d
    have bound := significand_le hn hd
    rw [fl64_of_significand hn]
    split_ifs with carry
    · exact ⟨by norm_num, by simp only; omega⟩
    · exact ⟨by simp only; omega, place⟩

/-! ### Nearest, ties to even (R11) -/

/-- A representable value is a whole number of last places of `n/d`, or it lies below the binade of `n/d`. -/
theorem F64.representable.grid_or_small {y : F64} (hy : y.representable) {n d : ℕ} (hn : n ≠ 0) (hd : 0 < d) :
    (∃ j : ℤ, y.value = j * (2 : ℚ) ^ lastPlace n d) ∨
      |y.value| < (2 : ℚ) ^ 52 * 2 ^ lastPlace n d ∧ (2 : ℚ) ^ 52 * 2 ^ lastPlace n d ≤ n / d := by
  obtain ⟨hman, hexp⟩ := hy
  rcases le_or_gt (lastPlace n d) y.exp with h | h
  · exact .inl (y.value_eq_int_mul h)
  · right
    have normal : lastPlace n d = ratioExponent n d - 52 := by
      rw [lastPlace] at h ⊢
      omega
    constructor
    · calc |y.value| = y.man * (2 : ℚ) ^ y.exp := y.abs_value
        _ < 2 ^ 53 * (2 : ℚ) ^ y.exp := by gcongr; exact_mod_cast hman
        _ = 2 ^ 52 * (2 : ℚ) ^ (y.exp + 1) := by rw [zpow_add₀ two_ne_zero]; ring
        _ ≤ 2 ^ 52 * 2 ^ lastPlace n d := by gcongr; exacts [one_le_two, h]
    · rw [← zpow_natCast, ← zpow_add₀ two_ne_zero, normal]
      simpa using (ratioExponent_spec hn hd.ne').1

/-- The magnitude `fl64` gives is nearest to `n/d` among whole numbers of last places. -/
theorem significand_nearest_grid (n : ℕ) {d : ℕ} (hd : 0 < d) (j : ℤ) :
    |significand n d * (2 : ℚ) ^ lastPlace n d - n / d| ≤ |j * (2 : ℚ) ^ lastPlace n d - n / d| ∧
      (|significand n d * (2 : ℚ) ^ lastPlace n d - n / d| = |j * (2 : ℚ) ^ lastPlace n d - n / d| →
        j = significand n d ∨ significand n d % 2 = 0) := by
  have unit : (0 : ℚ) < 2 ^ lastPlace n d := by positivity
  have scale (z : ℚ) : |z * 2 ^ lastPlace n d - n / d| = |z - n / d / 2 ^ lastPlace n d| * 2 ^ lastPlace n d := by
    rw [← abs_of_pos unit, ← abs_mul, abs_of_pos unit, sub_mul, div_mul_cancel₀ _ unit.ne']
  rw [scale, scale, mul_le_mul_iff_left₀ unit, mul_left_inj' unit.ne']
  exact significand_nearest n hd j

/-- The same among all representable magnitudes with a sign: those off the grid lie below the binade, and its lower end,
on the grid, is nearer. -/
theorem significand_nearest_representable {y : F64} (hy : y.representable) {n d : ℕ} (hn : n ≠ 0) (hd : 0 < d) :
    |significand n d * (2 : ℚ) ^ lastPlace n d - n / d| ≤ |y.value - n / d| ∧
      (|significand n d * (2 : ℚ) ^ lastPlace n d - n / d| = |y.value - n / d| →
        y.value = significand n d * (2 : ℚ) ^ lastPlace n d ∨ significand n d % 2 = 0) := by
  obtain ⟨j, hj⟩ | ⟨small, low⟩ := hy.grid_or_small hn hd
  · obtain ⟨near, tie⟩ := significand_nearest_grid n hd j
    rw [hj]
    exact ⟨near, fun h => (tie h).imp_left fun hj => by rw [hj]; norm_cast⟩
  · have strict : |significand n d * (2 : ℚ) ^ lastPlace n d - n / d| < |y.value - n / d| := by
      have near := (significand_nearest_grid n hd (2 ^ 52)).1
      rw [Int.cast_pow, Int.cast_ofNat] at near
      rw [abs_sub_comm ((2 : ℚ) ^ 52 * _), abs_of_nonneg (sub_nonneg.mpr low)] at near
      have far : n / d - y.value ≤ |y.value - n / d| := by rw [abs_sub_comm]; exact le_abs_self _
      have := le_abs_self y.value
      linarith
    exact ⟨strict.le, fun h => absurd h strict.ne⟩

theorem F64.negate_value (y : F64) : y.negate.value = -y.value := by
  rw [value_eq, value_eq]
  cases h : y.neg <;> simp [negate, signFactor, h]

/-- R11 for a positive rational and either sign. -/
theorem fl64_nearest {y : F64} (hy : y.representable) {n d : ℕ} (hn : n ≠ 0) (hd : 0 < d) (neg : Bool) :
    |(fl64 neg n d).value - (if neg then -(n : ℚ) / d else (n : ℚ) / d)| ≤
        |y.value - (if neg then -(n : ℚ) / d else (n : ℚ) / d)| ∧
      (|(fl64 neg n d).value - (if neg then -(n : ℚ) / d else (n : ℚ) / d)| =
          |y.value - (if neg then -(n : ℚ) / d else (n : ℚ) / d)| →
        y.value = (fl64 neg n d).value ∨ (fl64 neg n d).man % 2 = 0) := by
  have even := fl64_man_even (d := d) hn neg
  rw [fl64_value hn, mul_assoc]
  cases neg with
  | false =>
    obtain ⟨near, tie⟩ := significand_nearest_representable hy hn hd
    simp only [signFactor, Bool.false_eq_true, if_false, one_mul]
    exact ⟨near, fun h => (tie h).imp_right even⟩
  | true =>
    obtain ⟨near, tie⟩ := significand_nearest_representable (y := y.negate) hy hn hd
    have mirror (z : ℚ) : |-z - n / d| = |z - -(n : ℚ) / d| := by rw [← abs_neg, neg_div]; ring_nf
    rw [F64.negate_value, mirror] at near tie
    have fl := mirror (-(significand n d * 2 ^ lastPlace n d))
    rw [neg_neg] at fl
    simp only [signFactor, if_true, neg_one_mul]
    rw [← fl]
    exact ⟨near, fun h => (tie h).imp neg_eq_iff_eq_neg.mp even⟩

end Sys2Proof.Machine

open Sys2Proof.Machine

/-- Settles O41, by `fl64_nearest`; a zero argument gives exactly zero. -/
theorem fl64RoundsToNearestEven : Obligations.Fl64RoundsToNearestEven := by
  intro neg n d hd
  refine ⟨fl64_representable neg n hd, fun y hy => ?_⟩
  by_cases hn : n = 0
  · subst hn
    have zero : (fl64 neg 0 d).value = 0 := by simp [fl64_zero, F64.value_eq]
    refine ⟨by simp [zero], fun h => .inl ?_⟩
    rw [zero]
    simpa [zero, eq_comm (a := (0 : ℚ))] using h
  · exact fl64_nearest hy hn hd neg

end

section
/-! How close the fixed-point logarithm behind `lnCR64` is to the real one (00_scope.md R11, assumption 14). Errors are counted in
units of the last fixed-point place, `2^(-lnBits)`: every rounding is downwards and loses at most one unit, the powers of the
series shrink so fast that their errors do not add up, and the terms left out are below one unit together. -/

namespace Sys2Proof.Machine

open Finset

/-! ### Approximation from below -/

/-- The natural number `v` is at most `x`, and at most `e` below it. -/
def BelowBy (e : ℝ) (v : ℕ) (x : ℝ) : Prop := v ≤ x ∧ x ≤ v + e

theorem BelowBy.mono {e e' x : ℝ} {v : ℕ} (h : BelowBy e v x) (he : e ≤ e') : BelowBy e' v x :=
  ⟨h.1, h.2.trans (by gcongr)⟩

theorem BelowBy.abs_sub_le {e x : ℝ} {v : ℕ} (h : BelowBy e v x) : |(v : ℝ) - x| ≤ e := by
  rw [abs_sub_comm, abs_of_nonneg (sub_nonneg.mpr h.1)]
  linarith [h.2]

/-- Widening the target: what lies a further `e'` above stays approximated. -/
theorem BelowBy.trans {e e' x y : ℝ} {v : ℕ} (h : BelowBy e v x) (hxy : x ≤ y) (hyx : y ≤ x + e') :
    BelowBy (e + e') v y :=
  ⟨h.1.trans hxy, by linarith [h.2]⟩

/-- A truncating division loses less than one unit. -/
theorem BelowBy.div {e x : ℝ} {v d : ℕ} (h : BelowBy e v x) (hd : 0 < d) : BelowBy (e / d + 1) (v / d) (x / d) := by
  have hd' : (0 : ℝ) < d := by exact_mod_cast hd
  have floor : (v : ℝ) / d ≤ (v / d : ℕ) + 1 := by
    rw [div_le_iff₀ hd']
    exact_mod_cast (Nat.lt_mul_of_div_lt (Nat.lt_succ_self _) hd).le
  constructor
  · exact Nat.cast_div_le.trans (by gcongr; exact h.1)
  · calc x / d ≤ (v + e) / d := by gcongr; exact h.2
      _ = v / d + e / d := add_div ..
      _ ≤ (v / d : ℕ) + (e / d + 1) := by linarith

theorem BelowBy.mul {e e' x y : ℝ} {v w : ℕ} (h : BelowBy e v x) (h' : BelowBy e' w y) :
    BelowBy (e * y + x * e') (v * w) (x * y) := by
  obtain ⟨hv, hx⟩ := h
  obtain ⟨hw, hy⟩ := h'
  have hx0 : 0 ≤ x := v.cast_nonneg.trans hv
  have hy0 : 0 ≤ y := w.cast_nonneg.trans hw
  constructor
  · rw [Nat.cast_mul]
    gcongr
  · have first : (x - v) * y ≤ e * y := by gcongr; linarith
    have second : v * (y - w) ≤ x * e' := by
      gcongr
      linarith
    rw [Nat.cast_mul]
    linarith

/-! ### The series -/

/-- Fixed-point multiplication by an approximated ratio `s`, for `x` up to `c` in fixed point. -/
theorem BelowBy.mulFixed {e e' x s c : ℝ} {v w : ℕ} (h : BelowBy e v x) (h' : BelowBy e' w (s * 2 ^ lnBits))
    (he' : 0 ≤ e') (hx : x ≤ c * 2 ^ lnBits) : BelowBy (e * s + c * e' + 1) (v * w / 2 ^ lnBits) (x * s) := by
  have unit : (0 : ℝ) < 2 ^ lnBits := by positivity
  have product := (h.mul h').div (Nat.two_pow_pos lnBits)
  rw [Nat.cast_pow, Nat.cast_ofNat, ← mul_assoc x, mul_div_cancel_right₀ _ unit.ne'] at product
  refine product.mono ?_
  have : x * e' ≤ c * 2 ^ lnBits * e' := by gcongr
  gcongr
  rw [div_le_iff₀ unit]
  linarith

/-- `atanhTerms` adds up `n` terms `u·s^i/(k + 2i)` from the power `u` on, five units low a term at most: `p` is
never more than 4 units below the exact power `u`, since one multiplication by `s ≤ 1/9` divides that error by nine. -/
theorem atanhTerms_belowBy {z2 : ℕ} {s : ℝ} (hz2 : BelowBy 2 z2 (s * 2 ^ lnBits)) (hs0 : 0 ≤ s) (hs : s ≤ 1 / 9) (n : ℕ)
    {p k : ℕ} {u : ℝ} (hp : BelowBy 4 p u) (hu0 : 0 ≤ u) (hu : u ≤ 2 ^ lnBits) (hk : 0 < k) (acc : ℕ) :
    BelowBy (5 * n) (atanhTerms n p z2 k acc) (acc + ∑ i ∈ range n, u * s ^ i / (k + 2 * i)) := by
  induction n generalizing p k u acc with
  | zero => simp [atanhTerms, BelowBy]
  | succ n ih =>
    have hk' : (1 : ℝ) ≤ k := by exact_mod_cast hk
    have power : BelowBy 4 (p * z2 / 2 ^ lnBits) (u * s) :=
      (hp.mulFixed hz2 zero_le_two (hu.trans_eq (one_mul _).symm)).mono (by linarith)
    have term : BelowBy 5 (p / k) (u / k) := (hp.div hk).mono (by linarith [div_le_self zero_le_four hk'])
    have small : u * s ≤ 2 ^ lnBits := (mul_le_of_le_one_right hu0 (by linarith)).trans hu
    have rest := ih power (mul_nonneg hu0 hs0) small (Nat.add_pos_left hk 2) (acc + p / k)
    have shift : ∑ i ∈ range (n + 1), u * s ^ i / (k + 2 * i) =
        (∑ i ∈ range n, u * s * s ^ i / ((k + 2 : ℕ) + 2 * i)) + u / k := by
      rw [sum_range_succ']
      congr 1
      · refine sum_congr rfl fun i _ => ?_
        push_cast
        ring_nf
      · simp
    rw [atanhTerms, shift]
    convert rest.trans (e' := 5) ?_ ?_ using 1
    · push_cast; ring
    · push_cast; linarith [term.1]
    · push_cast; linarith [term.2]

/-- The terms of the series of `artanh` from the 65th on, for an argument up to 1/3. -/
theorem artanh_tail_le {t : ℝ} (ht0 : 0 ≤ t) (ht : t ≤ 1 / 3) :
    2 ^ lnBits * (t ^ (2 * 64 + 1) / (1 - t ^ 2)) ≤ 1 / 2 := by
  have power : t ^ (2 * 64 + 1) ≤ (1 / 3) ^ (2 * 64 + 1) := by gcongr
  have denominator : 1 - (1 / 3) ^ 2 ≤ 1 - t ^ 2 := by gcongr
  calc 2 ^ lnBits * (t ^ (2 * 64 + 1) / (1 - t ^ 2))
      ≤ 2 ^ lnBits * ((1 / 3) ^ (2 * 64 + 1) / (1 - (1 / 3) ^ 2)) := by gcongr
    _ ≤ 1 / 2 := by norm_num [lnBits]

/-- The 64 terms that `twoAtanh` takes of the series of `artanh t`, from an approximation `z` of `t`. -/
theorem atanhTerms_artanh_belowBy {t : ℝ} {z : ℕ} (hz : BelowBy 1 z (t * 2 ^ lnBits)) (ht0 : 0 ≤ t) (ht : t ≤ 1 / 3) :
    BelowBy 320 (atanhTerms 64 z (z * z / 2 ^ lnBits) 1 0)
      (2 ^ lnBits * ∑ i ∈ range 64, t ^ (2 * i + 1) / (2 * i + 1)) := by
  have square : BelowBy 2 (z * z / 2 ^ lnBits) (t * t * 2 ^ lnBits) := by
    have h := hz.mulFixed hz zero_le_one le_rfl
    rw [mul_right_comm] at h
    exact h.mono (by linarith)
  have ninth : t * t ≤ 1 / 9 := (mul_le_mul ht ht ht0 (by norm_num)).trans_eq (by norm_num)
  have series := atanhTerms_belowBy square (mul_nonneg ht0 ht0) ninth 64 (hz.mono (by norm_num))
    (by positivity) (mul_le_of_le_one_left (by positivity) (by linarith)) one_pos 0
  convert series using 1
  · norm_num
  · rw [mul_sum, Nat.cast_zero, zero_add]
    refine sum_congr rfl fun i _ => ?_
    push_cast
    ring

/-- `twoAtanh a b` is the logarithm of `(b+a)/(b-a)` in units of the last place, less at most 641. -/
theorem twoAtanh_belowBy {a b : ℕ} (hb : 0 < b) (hab : 3 * a ≤ b) :
    BelowBy 641 (twoAtanh a b) (2 ^ lnBits * Real.log ((b + a) / (b - a))) := by
  have hb' : (0 : ℝ) < b := by exact_mod_cast hb
  obtain ⟨t, ht⟩ : ∃ t : ℝ, t = a / b := ⟨_, rfl⟩
  have ht0 : 0 ≤ t := by rw [ht]; positivity
  have ht3 : t ≤ 1 / 3 := by
    rw [ht, div_le_div_iff₀ hb' three_pos]
    exact_mod_cast (by omega)
  have argument : BelowBy 1 (a * 2 ^ lnBits / b) (t * 2 ^ lnBits) := by
    have unrounded : BelowBy 0 (a * 2 ^ lnBits) (a * 2 ^ lnBits) := by simp [BelowBy]
    simpa [ht, mul_div_right_comm] using unrounded.div hb
  have ratio : ((b : ℝ) + a) / (b - a) = (1 + t) / (1 - t) := by
    rw [ht]
    field_simp
  have lower := Real.sum_range_le_log_div ht0 (by linarith) 64
  have upper := Real.log_div_le_sum_range_add ht0 (by linarith) 64
  have half : BelowBy (320 + 1 / 2) _ (2 ^ lnBits * (1 / 2 * Real.log ((1 + t) / (1 - t)))) :=
    (atanhTerms_artanh_belowBy argument ht0 ht3).trans (by gcongr) <|
      calc _ ≤ _ := mul_le_mul_of_nonneg_left upper (by positivity)
        _ ≤ _ := by rw [mul_add]; gcongr; exact artanh_tail_le ht0 ht3
  have two : BelowBy 0 2 2 := by simp [BelowBy]
  rw [ratio, twoAtanh]
  convert two.mul half using 1
  · norm_num
  · ring

/-! ### The logarithm of a value -/

theorem log_value {x : F64} (hx : x.neg = false) (hman : 0 < x.man) :
    Real.log (x.value : ℝ) = (x.exp + 52) * Real.log 2 + Real.log (x.man / 2 ^ 52) := by
  have hman' : (0 : ℝ) < x.man := by exact_mod_cast hman
  rw [x.value_eq, hx]
  push_cast [signFactor]
  rw [one_mul, Real.log_mul hman'.ne' (by positivity), Real.log_zpow,
    Real.log_div hman'.ne' (by positivity), Real.log_pow]
  push_cast
  ring

/-- The significand of a normal value has its top bit at place 52. -/
theorem log2_man {m : ℕ} (low : 2 ^ 52 ≤ m) (high : m < 2 ^ 53) : m.log2 = 52 :=
  (Nat.log2_eq_iff (by omega)).mpr ⟨low, high⟩

/-- The first of the two fixed-point logarithms that `lnFixed` combines; `twoAtanh_log_man` is the second. -/
theorem twoAtanh_log_two : BelowBy 641 (twoAtanh 1 3) (2 ^ lnBits * Real.log 2) := by
  convert twoAtanh_belowBy (a := 1) (b := 3) (by omega) (by omega) using 3
  norm_num

theorem twoAtanh_log_man {m : ℕ} (low : 2 ^ 52 ≤ m) (high : m < 2 ^ 53) :
    BelowBy 641 (twoAtanh (m - 2 ^ 52) (m + 2 ^ 52)) (2 ^ lnBits * Real.log (m / 2 ^ 52)) := by
  convert twoAtanh_belowBy (a := m - 2 ^ 52) (b := m + 2 ^ 52) (by omega) (by omega) using 3
  rw [Nat.cast_add, Nat.cast_sub low]
  push_cast
  ring

/-- In units of the last place, over the whole range of normal values. -/
theorem lnFixed_error {x : F64} (hx : x.neg = false) (low : 2 ^ 52 ≤ x.man) (high : x.man < 2 ^ 53) (hlow : -1074 ≤ x.exp)
    (hhigh : x.exp ≤ 971) : |(lnFixed x : ℝ) - 2 ^ lnBits * Real.log (x.value : ℝ)| < 2 ^ 32 := by
  have two := twoAtanh_log_two.abs_sub_le
  have man := (twoAtanh_log_man low high).abs_sub_le
  have exponent : |(x.exp + 52 : ℝ)| ≤ 1023 := by
    have : |x.exp + 52| ≤ 1023 := abs_le.mpr ⟨by omega, by omega⟩
    exact_mod_cast this
  have parts : (lnFixed x : ℝ) - 2 ^ lnBits * Real.log (x.value : ℝ) =
      (x.exp + 52) * (twoAtanh 1 3 - 2 ^ lnBits * Real.log 2) +
        (twoAtanh (x.man - 2 ^ 52) (x.man + 2 ^ 52) - 2 ^ lnBits * Real.log (x.man / 2 ^ 52)) := by
    rw [log_value hx (by omega), lnFixed, log2_man low high]
    push_cast
    ring
  rw [parts]
  calc _ ≤ |(x.exp + 52 : ℝ)| * |twoAtanh 1 3 - 2 ^ lnBits * Real.log 2| +
        |twoAtanh (x.man - 2 ^ 52) (x.man + 2 ^ 52) - 2 ^ lnBits * Real.log (x.man / 2 ^ 52)| := by
          rw [← abs_mul]
          exact abs_add_le _ _
    _ ≤ 1023 * 641 + 641 := by gcongr
    _ < 2 ^ 32 := by norm_num

end Sys2Proof.Machine

open Sys2Proof.Machine

/-- Settles O42, by `lnFixed_error`: `2^32` units are `2^-160`. -/
theorem logarithmIsAccurate : Obligations.LogarithmIsAccurate := by
  intro x hx low high hlow hhigh
  have unit : (0 : ℝ) < 2 ^ lnBits := by positivity
  have error := lnFixed_error hx low high hlow hhigh
  have scaled : (lnFixed x : ℝ) / 2 ^ lnBits - Real.log (x.value : ℝ) =
      (lnFixed x - 2 ^ lnBits * Real.log (x.value : ℝ)) / 2 ^ lnBits := by
    rw [sub_div, mul_div_cancel_left₀ _ unit.ne']
  rw [scaled, abs_div, abs_of_pos unit]
  calc _ < (2 : ℝ) ^ 32 / 2 ^ lnBits := by gcongr
    _ = 1 / 2 ^ 160 := by norm_num [lnBits]

end

section
/-! The host window (10_state.md R36 to R41, R67): what its registers read, and the writes that change nothing of the machine,
ARG or the error bits. -/

namespace Sys2Proof.Machine

/-- The sticky bits of a STATUS write: a written 1 clears, nothing sets (R39). -/
@[simp] theorem stickyNext_no_set (old clear : Bool) : stickyNext old clear false = (old && !clear) := Bool.or_false _

@[simp] theorem stickyNext_set (old clear : Bool) : stickyNext old clear true = true := Bool.or_true _

theorem State.busy_eq_false_iff (s : State) : s.busy = false ↔ s.phase = .idle := by simp [State.busy]

/-- A host event that changes only what the end of a step leaves alone makes the step of a host that makes no access, but for
that change. -/
theorem endStep_setHost_of_idle {s t : State} {rest : List HostOp} (h : step (s.withScript (.idle :: rest)) = .next t)
    (a : Word) (ei eb : Bool) :
    endStep ((s.withScript rest).setHost a ei eb rest s.reads) = .next { t with arg := a, errIll := ei, errBusy := eb } := by
  rw [step_idle] at h
  obtain ⟨-, -, -, hscript, hreads, -⟩ := endStep_host h
  rw [endStep_setHost, h, mapNext, State.setHost, ← show t.script = rest from hscript, ← show t.reads = s.reads from hreads]

/-- The registers a write leaves the whole machine unchanged at (R36, R40, R41). -/
def HostReg.ignoresWrites : HostReg → Bool
  | .config | .resultLo | .resultHi | .reserved18 | .reserved1C => true
  | .arg | .cmd | .status => false

theorem step_ignored_write {off : Nat} {r : HostReg} (hr : hostRegAt off = some r) (hi : r.ignoresWrites = true) {s : State}
    (hp : s.phase ≠ .inReset) (v : Word) (rest : List HostOp) :
    step (s.withScript (.write off 4 v :: rest)) = step (s.withScript (.idle :: rest)) := by
  rw [step_write hr s hp, step_idle]
  cases r with
  | config | resultLo | resultHi | reserved18 | reserved1C => rfl
  | arg | cmd | status => cases hi

end Sys2Proof.Machine

open Sys2Proof Sys2Proof.Machine

/-- Settles O6: CONFIG is a constant word, and a register that ignores writes. -/
theorem configIsConstant : Obligations.ConfigIsConstant := by
  refine ⟨rfl, fun s => ?_, fun s v rest hp => step_ignored_write rfl rfl hp v rest⟩
  have word : readHostReg .config s = 0x0000140D#32 := by simp only [readHostReg]; decide
  rw [word]
  decide

/-- Settles O11: the two halves of RESULT put together again, and the map of the window. -/
theorem readValuesOfTheWindow : Obligations.ReadValuesOfTheWindow := by
  intro s
  have halves : readHostReg .resultHi s ++ readHostReg .resultLo s = s.result := by
    rw [readHostReg, readHostReg, BitVec.extractLsb'_append_extractLsb'_eq_extractLsb' (Nat.zero_add 32).symm]
    exact BitVec.extractLsb'_eq_self
  exact ⟨rfl, halves, rfl, rfl, rfl, rfl, rfl, rfl, rfl⟩

/-- Settles O12: the four offsets are those of registers that ignore writes. -/
theorem readOnlyRegistersIgnoreWrites : Obligations.ReadOnlyRegistersIgnoreWrites := by
  constructor
  · rintro off (rfl | rfl)
    · exact ⟨.reserved18, rfl, fun _ => rfl⟩
    · exact ⟨.reserved1C, rfl, fun _ => rfl⟩
  · rintro s off v rest hp (rfl | rfl | rfl | rfl) <;> exact step_ignored_write rfl rfl hp v rest

/-- Settles O8, bit by bit of the word's concatenation. -/
theorem statusWordLayout : Obligations.StatusWordLayout := by
  refine ⟨rfl, fun s => ?_⟩
  have bit (i : Nat) : (readHostReg .status s).getLsbD i = if i = 0 then s.busy else if i = 1 then s.rvalid
      else if i = 2 then s.edom else if i = 3 then s.errIll else if i = 4 then s.errBusy else false := by
    simp only [readHostReg, State.status, BitVec.getLsbD_append, BitVec.getLsbD_ofBool, BitVec.getLsbD_zero]
    grind
  refine ⟨bit 0, bit 1, bit 2, bit 3, bit 4, fun i hi => ?_, s.busy_eq_false_iff⟩
  simp only [bit]
  grind

/-- Settles O9: a STATUS write sets two fields that the end of the step leaves alone. -/
theorem statusWriteClearsWrittenOnes : Obligations.StatusWriteClearsWrittenOnes := by
  refine ⟨fun s t v rest hp h => ?_, stickyNext_set⟩
  obtain ⟨harg, hIll, hBusy, -⟩ := endStep_host (step_idle s rest ▸ h)
  rw [withScript_arg] at harg
  rw [step_write (r := .status) rfl s hp, hIll, hBusy]
  refine (endStep_setHost_of_idle h s.arg (stickyNext s.errIll (v.getLsbD 3) false)
    (stickyNext s.errBusy (v.getLsbD 4) false)).trans ?_
  rw [← harg, stickyNext_no_set, stickyNext_no_set]
  rfl

end

section
/-! The acceptance of a command (60_exceptions.md R190, R191), and what each host event leaves of the state before the end of
the step: one lemma per field over all of `Entered`, so that the claims about single fields need no case split of their own. -/

namespace Sys2Proof

/-! ### Which words are commands -/

theorem toNat_of_opcode {op : BitVec 4} {i : Instr} (h : opcode op = some i) : op.toNat = (encode i).toNat := by
  revert op
  cases i <;> decide

theorem eq_encode_of_decode {w : Word} {i : Instr} (h : decode w = .command i) : w = encode i := by
  have hop := opField_toNat w
  unfold decode at h
  split at h
  · cases h
  · next hr =>
    have hlt := (rsvField_eq_zero_iff w).1 (not_not.1 hr)
    split at h
    · next j hj =>
      cases h
      have := toNat_of_opcode hj
      exact BitVec.eq_of_toNat_eq (by omega)
    · cases h

theorem le_of_decode_illegal {w : Word} {why : Illegal} (h : decode w = .illegal why) : 5 ≤ w.toNat := by
  by_contra hw
  have hex : ∃ i, w = encode i := by
    obtain h0 | h1 | h2 | h3 | h4 : w.toNat = 0 ∨ w.toNat = 1 ∨ w.toNat = 2 ∨ w.toNat = 3 ∨ w.toNat = 4 := by omega
    · exact ⟨.nop, BitVec.eq_of_toNat_eq h0⟩
    · exact ⟨.add, BitVec.eq_of_toNat_eq h1⟩
    · exact ⟨.est, BitVec.eq_of_toNat_eq h2⟩
    · exact ⟨.hash, BitVec.eq_of_toNat_eq h3⟩
    · exact ⟨.rdreg, BitVec.eq_of_toNat_eq h4⟩
  obtain ⟨i, rfl⟩ := hex
  rw [decode_encode] at h
  cases h

end Sys2Proof

namespace Sys2Proof.Machine

/-! ### The acceptance of a command by an idle core -/

/-- "On accept" of each command. -/
def onAccept : Instr → State → State
  | .nop, s => s.accept .nop
  | .add, s => acceptAdd s
  | .est, s => acceptEst s
  | .hash, s => acceptHash s
  | .rdreg, s => acceptRdreg s

section
variable (i : Instr) (s : State)

@[simp] theorem onAccept_cells : (onAccept i s).cells = s.cells := by cases i <;> simp [onAccept]
@[simp] theorem onAccept_arg : (onAccept i s).arg = s.arg := by cases i <;> simp [onAccept]
@[simp] theorem onAccept_result : (onAccept i s).result = s.result := by cases i <;> simp [onAccept]
@[simp] theorem onAccept_errIll : (onAccept i s).errIll = s.errIll := by cases i <;> simp [onAccept]
@[simp] theorem onAccept_errBusy : (onAccept i s).errBusy = s.errBusy := by cases i <;> simp [onAccept]
@[simp] theorem onAccept_phase : (onAccept i s).phase = .running i s.arg := by cases i <;> simp [onAccept]
@[simp] theorem onAccept_script : (onAccept i s).script = s.script := by cases i <;> simp [onAccept]
@[simp] theorem onAccept_draws : (onAccept i s).draws = s.draws := by cases i <;> simp [onAccept]

@[simp] theorem onAccept_edom : (onAccept i s).edom = if i = .est then false else s.edom := by
  cases i <;> simp [onAccept]

@[simp] theorem onAccept_scan : (onAccept i s).scan = if i = .est then some Scan.start else s.scan := by
  cases i <;> simp [onAccept]

@[simp] theorem onAccept_rvalid : (onAccept i s).rvalid = if i = .nop ∨ i = .add then s.rvalid else false := by
  cases i <;> simp [onAccept]

@[simp] theorem onAccept_pending :
    (onAccept i s).pending = if i = .add then s.pending ++ [pendingOf s.arg] else s.pending := by
  cases i <;> simp [onAccept, valueOperand_eq]

@[simp] theorem onAccept_sketch :
    (onAccept i s).sketch = if i = .add then s.sketch.raiseTo (pendingOf s.arg) else s.sketch := by
  cases i <;> simp [onAccept, valueOperand_eq]

end

/-! Every command is issued: dropped while BUSY = 1, given no meaning in reset. -/

theorem exec_eq_issue (i : Instr) : ∃ k, ∀ s, exec i s = issue s k := by
  cases i with
  | nop | add | est | hash | rdreg => exact ⟨_, fun _ => rfl⟩

theorem exec_busy {s : State} (hb : s.busy = true) (hp : s.phase ≠ .inReset) (i : Instr) :
    exec i s = endStep s.raiseErrBusy := by
  obtain ⟨k, hk⟩ := exec_eq_issue i
  rw [hk, issue_busy hb hp]

theorem exec_inReset {s : State} (hp : s.phase = .inReset) (i : Instr) : exec i s = .refused .accessDuringReset := by
  obtain ⟨k, hk⟩ := exec_eq_issue i
  rw [hk, issue_inReset hp]

/-! What an idle core makes of each command, in one equation. -/

section
variable {s : State} (hp : s.phase = .idle)
include hp

theorem exec_nop : exec .nop s = endStep (onAccept .nop s) := by
  simp only [exec, execNop, issue_idle hp, onAccept]

theorem exec_add : exec .add s =
    if inDomain (s.reg (addIndex s.arg)) then endStep (onAccept .add s) else .refused .registerOutOfDomain := by
  rw [exec, execAdd, issue_idle hp]
  rfl

theorem exec_est : exec .est s =
    if s.sketch.inDomain then endStep (onAccept .est s) else .refused .registerOutOfDomain := by
  simp only [exec, execEst, issue_idle hp, onAccept]

theorem exec_hash : exec .hash s = endStep (onAccept .hash s) := by
  simp only [exec, execHash, issue_idle hp, onAccept]

theorem exec_rdreg : exec .rdreg s =
    if indexLegal s.arg then
      if inDomain (s.reg s.arg.toNat) then endStep (onAccept .rdreg s) else .refused .registerOutOfDomain
    else endStep s.raiseErrIll := by
  rw [exec, execRdreg, issue_idle hp]
  rfl

/-- RDREG with an illegal index only sets ERR_ILL (R181, R191). -/
theorem exec_rdreg_illegal (hl : indexLegal s.arg = false) : exec .rdreg s = endStep s.raiseErrIll := by
  rw [exec_rdreg hp, if_neg (by simp [hl])]

/-- A command is accepted when its operand is legal and every register is in its domain. -/
theorem exec_of_legal {i : Instr} (hd : s.sketch.inDomain = true) (hl : i = .rdreg → indexLegal s.arg = true) :
    exec i s = endStep (onAccept i s) := by
  have hreg (a : Nat) : inDomain (s.reg a) = true := Memory.read_inDomain _ hd a
  cases i with
  | nop => exact exec_nop hp
  | add => rw [exec_add hp, if_pos (hreg _)]
  | est => rw [exec_est hp, if_pos hd]
  | hash => exact exec_hash hp
  | rdreg => rw [exec_rdreg hp, if_pos (hl rfl), if_pos (hreg _)]

/-- A command that is answered was accepted, or was a RDREG with an illegal index. -/
theorem exec_next {i : Instr} {t : State} (h : exec i s = .next t) :
    endStep (onAccept i s) = .next t ∨ endStep s.raiseErrIll = .next t := by
  cases i with
  | nop => exact .inl (exec_nop hp ▸ h)
  | hash => exact .inl (exec_hash hp ▸ h)
  | add =>
    rw [exec_add hp] at h
    split at h
    · exact .inl h
    · cases h
  | est =>
    rw [exec_est hp] at h
    split at h
    · exact .inl h
    · cases h
  | rdreg =>
    rw [exec_rdreg hp] at h
    split at h
    · split at h
      · exact .inl h
      · cases h
    · exact .inr h

end

/-- The host's event was a CMD write that an idle core accepted: the five acceptances of `Entered` as one. -/
structure Accepted (s : State) (i : Instr) (u : State) : Prop where
  idle : s.phase = .idle
  legal : i = .rdreg → indexLegal s.arg = true
  word : ∃ rest, s.script = .write 0x08 4 (encode i) :: rest ∧ u = onAccept i (s.withScript rest)

/-- `Entered`, with the events that leave the core alone and those that an idle core accepts each as one case. -/
theorem Entered.cases {s u : State} (h : Entered s u) :
    (∃ a ei eb sc rd, u = s.setHost a ei eb sc rd) ∨
    (∃ rest, s.script = .releaseReset :: rest ∧ s.phase = .inReset ∧ u = { s with phase := .clearing, script := rest }) ∨
    ∃ i, Accepted s i u := by
  cases h with
  | quiet sc rd hr hu => exact .inl ⟨_, _, _, _, _, hu⟩
  | wroteArg v rest hs hp hu => exact .inl ⟨_, _, _, _, _, hu⟩
  | wroteStatus v rest hs hp hu => exact .inl ⟨_, _, _, _, _, hu⟩
  | dropped w rest hs hp hb hu => exact .inl ⟨_, _, _, _, _, hu⟩
  | illegal w rest hs hp hw hu => exact .inl ⟨_, _, _, _, _, hu⟩
  | released rest hs hu =>
    subst hu
    by_cases hp : s.phase = .inReset
    · exact .inr (.inl ⟨rest, hs, hp, by simp [State.release, State.withScript, hp]⟩)
    · exact .inl ⟨s.arg, s.errIll, s.errBusy, rest, s.reads, by
        simp [State.release, State.withScript, State.setHost, hp]⟩
  | acceptedNop w rest hs hp hw hu =>
    exact .inr (.inr ⟨.nop, hp, by simp, rest, eq_encode_of_decode hw ▸ hs, hu⟩)
  | acceptedAdd w rest hs hp hw hd hu =>
    exact .inr (.inr ⟨.add, hp, by simp, rest, eq_encode_of_decode hw ▸ hs, hu⟩)
  | acceptedEst w rest hs hp hw hd hu =>
    exact .inr (.inr ⟨.est, hp, by simp, rest, eq_encode_of_decode hw ▸ hs, hu⟩)
  | acceptedHash w rest hs hp hw hu =>
    exact .inr (.inr ⟨.hash, hp, by simp, rest, eq_encode_of_decode hw ▸ hs, hu⟩)
  | acceptedRdreg w rest hs hp hw hi hd hu =>
    exact .inr (.inr ⟨.rdreg, hp, fun _ => hi, rest, eq_encode_of_decode hw ▸ hs, hu⟩)

/-! ### What a host event leaves of each field -/

section
variable {s u : State} (h : Entered s u)
include h

/-- RESULT changes at no host event: its last value stays until a command completes (R40, R43). -/
theorem Entered.result : u.result = s.result := by
  obtain ⟨a, ei, eb, sc, rd, rfl⟩ | ⟨rest, -, -, rfl⟩ | ⟨i, hi⟩ := h.cases
  · rfl
  · rfl
  · obtain ⟨rest, -, rfl⟩ := hi.word
    exact onAccept_result _ _

/-- EDOM changes at EST's acceptance alone (R44). -/
theorem Entered.edom : u.edom = s.edom ∨ Accepted s .est u := by
  obtain ⟨a, ei, eb, sc, rd, rfl⟩ | ⟨rest, -, -, rfl⟩ | ⟨i, hi⟩ := h.cases
  · exact .inl rfl
  · exact .inl rfl
  · by_cases he : i = .est
    · exact .inr (he ▸ hi)
    · obtain ⟨rest, -, rfl⟩ := hi.word
      exact .inl (by simp [he, State.withScript])

/-- The registers change at ADD's acceptance alone (R34). -/
theorem Entered.sketch : u.sketch = s.sketch ∨ Accepted s .add u := by
  obtain ⟨a, ei, eb, sc, rd, rfl⟩ | ⟨rest, -, -, rfl⟩ | ⟨i, hi⟩ := h.cases
  · exact .inl rfl
  · exact .inl rfl
  · by_cases he : i = .add
    · exact .inr (he ▸ hi)
    · obtain ⟨rest, -, rfl⟩ := hi.word
      exact .inl (by simp [he])

/-- A command in flight after the host's event was in flight before it, or has just been accepted. -/
theorem Entered.running {i : Instr} {x : Word} (hu : u.phase = .running i x) :
    s.phase = .running i x ∨ Accepted s i u := by
  obtain ⟨a, ei, eb, sc, rd, rfl⟩ | ⟨rest, -, -, rfl⟩ | ⟨j, hj⟩ := h.cases
  · exact .inl hu
  · cases hu
  · obtain ⟨rest, -, rfl⟩ := hj.word
    rw [onAccept_phase] at hu
    cases hu
    exact .inr hj

/-- The host's event leaves the clear going on. -/
theorem Entered.clearing (hs : s.phase = .clearing) : u.phase = .clearing := by
  obtain ⟨a, ei, eb, sc, rd, rfl⟩ | ⟨rest, -, hp, rfl⟩ | ⟨j, hj⟩ := h.cases
  · exact hs
  · rfl
  · cases hj.idle.symm.trans hs

/-- The host's event takes no draw. -/
theorem Entered.draws : u.draws = s.draws := by
  obtain ⟨a, ei, eb, sc, rd, rfl⟩ | ⟨rest, -, -, rfl⟩ | ⟨i, hi⟩ := h.cases
  · rfl
  · rfl
  · obtain ⟨rest, -, rfl⟩ := hi.word
    exact onAccept_draws _ _

end

end Sys2Proof.Machine

end

section
/-! ARG, the sticky error bits and RESULT, step by step: what the host's event makes of ARG and the error bits, and that only the
completion of HASH, EST or RDREG writes RESULT (10_state.md R37, R40, R45, R46). -/

namespace Sys2Proof.Machine

/-- What the host's event makes of ARG, ERR_ILL and ERR_BUSY. -/
inductive HostEffect (s u : State) : Prop where
  | kept (harg : u.arg = s.arg) (hIll : u.errIll = s.errIll) (hBusy : u.errBusy = s.errBusy)
  | wroteArg (v : Word) (rest : List HostOp) (hs : s.script = .write 0x04 4 v :: rest) (hp : s.phase ≠ .inReset)
      (hIll : u.errIll = s.errIll) (hBusy : u.errBusy = s.errBusy)
  | wroteStatus (v : Word) (rest : List HostOp) (hs : s.script = .write 0x0C 4 v :: rest) (hp : s.phase ≠ .inReset)
      (harg : u.arg = s.arg) (hIll : u.errIll = (s.errIll && !v.getLsbD 3))
      (hBusy : u.errBusy = (s.errBusy && !v.getLsbD 4))
  | dropped (w : Word) (rest : List HostOp) (hs : s.script = .write 0x08 4 w :: rest) (hp : s.phase ≠ .inReset)
      (hb : s.busy = true) (harg : u.arg = s.arg) (hIll : u.errIll = s.errIll) (hBusy : u.errBusy = true)
  | illegal (w : Word) (rest : List HostOp) (hs : s.script = .write 0x08 4 w :: rest) (hp : s.phase = .idle)
      (hw : 5 ≤ w.toNat ∨ w = 0x00000004#32 ∧ 8192 ≤ s.arg.toNat) (harg : u.arg = s.arg) (hIll : u.errIll = true)
      (hBusy : u.errBusy = s.errBusy)

theorem Entered.hostEffect {s u : State} (h : Entered s u) : HostEffect s u := by
  have accepted {i : Instr} {rest : List HostOp} (hu : u = onAccept i (s.withScript rest)) : HostEffect s u := by
    subst hu
    exact .kept (onAccept_arg _ _) (onAccept_errIll _ _) (onAccept_errBusy _ _)
  cases h with
  | quiet sc rd hr hu => subst hu; exact .kept rfl rfl rfl
  | wroteArg v rest hs hp hu => subst hu; exact .wroteArg v rest hs hp rfl rfl
  | wroteStatus v rest hs hp hu =>
    subst hu
    exact .wroteStatus v rest hs hp rfl (stickyNext_no_set _ _) (stickyNext_no_set _ _)
  | dropped w rest hs hp hb hu => subst hu; exact .dropped w rest hs hp hb rfl rfl rfl
  | illegal w rest hs hp hw hu =>
    subst hu
    refine .illegal w rest hs hp ?_ rfl rfl rfl
    obtain ⟨why, hw⟩ | ⟨hw, hi⟩ := hw
    · exact .inl (le_of_decode_illegal hw)
    · exact .inr ⟨eq_encode_of_decode hw, not_lt.1 fun hlt => by simp [(indexLegal_iff _).2 hlt] at hi⟩
  | released rest hs hu =>
    subst hu
    unfold State.release
    split
    · exact .kept rfl rfl rfl
    · exact .kept rfl rfl rfl
  | acceptedNop w rest hs hp hw hu => exact accepted (i := .nop) hu
  | acceptedAdd w rest hs hp hw hd hu => exact accepted (i := .add) hu
  | acceptedEst w rest hs hp hw hd hu => exact accepted (i := .est) hu
  | acceptedHash w rest hs hp hw hu => exact accepted (i := .hash) hu
  | acceptedRdreg w rest hs hp hw hi hd hu => exact accepted (i := .rdreg) hu

/-- A step without an asserted reset is a host event and the end of a step. -/
theorem entered_of_step {s t : State} (h : step s = .next t) (hn : s.noResetNext) :
    ∃ u, Entered s u ∧ endStep u = .next t := by
  obtain ⟨rest, hs, -⟩ | h := step_cases h
  · simp [State.noResetNext, hs] at hn
  · exact h

/-- Only the completion of HASH, EST or RDREG writes RESULT; it sets RVALID and lets BUSY fall (R40, R43). -/
theorem endStep_result {u t : State} (h : endStep u = .next t) (hne : t.result ≠ u.result) :
    (∃ i x, (i = .hash ∨ i = .est ∨ i = .rdreg) ∧ u.phase = .running i x) ∧ t.rvalid = true ∧ t.phase = .idle := by
  obtain ⟨-, rfl⟩ | ⟨-, hf⟩ := endStep_cases h
  · simp at hne
  · cases hf with
    | stays hp ht => subst ht; simp at hne
    | cleared hp ht => subst ht; simp at hne
    | silent x hp ht => subst ht; simp at hne
    | hashed x hp ht => subst ht; exact ⟨⟨.hash, x, by simp, hp⟩, by simp⟩
    | estimated x hp hd ht => subst ht; exact ⟨⟨.est, x, by simp, hp⟩, by simp⟩
    | readReg x hp hi hd ht => subst ht; exact ⟨⟨.rdreg, x, by simp, hp⟩, by simp⟩

end Sys2Proof.Machine

open Sys2Proof Sys2Proof.Machine

/-- Settles O56: the end of a step leaves both bits, so `HostEffect` says what changes them. -/
theorem errorBitsAreSticky : Obligations.ErrorBitsAreSticky := by
  intro s t h
  obtain ⟨rest, hs, rfl⟩ | ⟨u, hu, ht⟩ := step_cases h
  · exact ⟨fun _ _ => ⟨rest, .inl hs⟩, fun _ _ => ⟨rest, .inl hs⟩, by simp, by simp⟩
  obtain ⟨-, tIll, tBusy, -⟩ := endStep_host ht
  rw [tIll, tBusy]
  cases hu.hostEffect with
  | kept harg hIll hBusy => simp +contextual [hIll, hBusy]
  | wroteArg v rest hs hp hIll hBusy => simp +contextual [hIll, hBusy]
  | wroteStatus v rest hs hp harg hIll hBusy =>
    rw [hIll, hBusy]
    refine ⟨fun h0 h1 => ⟨rest, .inr ⟨v, hs, ?_⟩⟩, fun h0 h1 => ⟨rest, .inr ⟨v, hs, ?_⟩⟩, ?_, ?_⟩
    · simpa [h0] using h1
    · simpa [h0] using h1
    · simp +contextual
    · simp +contextual
  | dropped w rest hs hp hb harg hIll hBusy =>
    refine ⟨?_, ?_, ?_, fun _ _ => ⟨hb, w, rest, hs⟩⟩ <;> simp +contextual [hIll, hBusy]
  | illegal w rest hs hp hw harg hIll hBusy =>
    refine ⟨?_, ?_, fun _ _ => ⟨hp, w, rest, hs, hw⟩, ?_⟩ <;> simp +contextual [hIll, hBusy]

/-- Settles O57: no host event writes RESULT, so it is the end of the step that does. -/
theorem resultChangesOnlyAtCompletion : Obligations.ResultChangesOnlyAtCompletion := by
  intro s t h hn hne
  obtain ⟨u, hu, ht⟩ := entered_of_step h hn
  rw [← hu.result] at hne
  obtain ⟨⟨i, x, hi, hp⟩, hrvalid, hidle⟩ := endStep_result ht hne
  refine ⟨⟨i, hi, ?_⟩, hrvalid, hidle⟩
  obtain hp | ha := hu.running hp
  · exact .inl ⟨x, hp⟩
  · obtain ⟨rest, hs, -⟩ := ha.word
    exact .inr ⟨ha.idle, _, rest, hs, decode_encode i⟩

/-- Settles O7: the end of a step neither reads nor writes ARG, and a command is accepted with its value. -/
theorem argHoldsTheLastWrite : Obligations.ArgHoldsTheLastWrite := by
  refine ⟨rfl, fun _ => rfl, rfl, fun s t v rest hp h => ?_, fun s t h hw hn => ?_, fun i s t hp h => ?_⟩
  · obtain ⟨-, hIll, hBusy, -⟩ := endStep_host (step_idle s rest ▸ h)
    rw [step_write (r := .arg) rfl s hp]
    refine (endStep_setHost_of_idle h v s.errIll s.errBusy).trans ?_
    rw [show s.errIll = t.errIll from hIll.symm, show s.errBusy = t.errBusy from hBusy.symm]
  · obtain ⟨u, hu, ht⟩ := entered_of_step h hn
    rw [(endStep_host ht).1]
    cases hu.hostEffect with
    | wroteArg v rest hs => exact absurd hs (hw v rest)
    | kept harg => exact harg
    | wroteStatus v rest hs hp harg => exact harg
    | dropped w rest hs hp hb harg => exact harg
    | illegal w rest hs hp hw harg => exact harg
  · obtain h | h := exec_next hp h
    · simpa using endStep_phase h (by simp)
    · exact .inl (by simpa [hp] using endStep_phase h (by simp [hp]))

end

section
/-! The invariant (10_state.md R30 to R32, R43, R44, R47, R51 to R53): what it says in each phase, and that the host's events and
the end of a step keep it. -/

namespace Sys2Proof.Machine

/-! ### What the invariant says in each phase -/

theorem scanOk_of_none {s : State} (hp : ∀ x, s.phase ≠ .running .est x) (hs : s.scan = none) : s.scanOk = true := by
  unfold State.scanOk
  split
  · next x _ hx _ => exact absurd hx (hp x)
  · next x hx _ => exact absurd hx (hp x)
  · rw [hs]; rfl

theorem scanOk_of_est {s : State} {x : Word} {c : Scan} (hp : s.phase = .running .est x) (hs : s.scan = some c)
    (hc : c.ok s.sketch = true) : s.scanOk = true := by
  unfold State.scanOk
  rw [hp, hs]
  exact hc

theorem phaseOk_idle {s : State} (hp : s.phase = .idle) : s.phaseOk = true := by
  unfold State.phaseOk
  rw [hp]

theorem phaseOk_clearing_iff {s : State} (hp : s.phase = .clearing) : s.phaseOk = true ↔
    s.cells = [] ∧ s.pending = [] ∧ s.result = 0#64 ∧ s.rvalid = false ∧ s.edom = false ∧ s.errIll = false := by
  unfold State.phaseOk
  rw [hp]
  simp [and_assoc]

theorem phaseOk_inReset_iff {s : State} (hp : s.phase = .inReset) : s.phaseOk = true ↔
    s.cells = [] ∧ s.pending = [] ∧ s.arg = 0#32 ∧ s.result = 0#64 ∧ s.rvalid = false ∧ s.edom = false ∧
      s.errIll = false ∧ s.errBusy = false := by
  unfold State.phaseOk
  rw [hp]
  simp [and_assoc]

theorem phaseOk_running_iff {s : State} {i : Instr} {x : Word} (hp : s.phase = .running i x) : s.phaseOk = true ↔
    (¬(i = .nop ∨ i = .add) → s.rvalid = false) ∧ (i = .est → s.edom = false) ∧ (i = .rdreg → indexLegal x = true) := by
  unfold State.phaseOk
  rw [hp]
  cases i <;> simp

/-- In the clear the registers are at their reset values, and RESULT and the flags too (R51, R53). -/
theorem State.Inv.clearing {s : State} (h : s.Inv) (hp : s.phase = .clearing) :
    s.cells = [] ∧ s.pending = [] ∧ s.result = 0#64 ∧ s.rvalid = false ∧ s.edom = false ∧ s.errIll = false :=
  (phaseOk_clearing_iff hp).1 h.phaseOk

theorem pendingOk_iff (s : State) : s.pendingOk = true ↔ ∀ p ∈ s.pending, 1 ≤ p.rank.toNat ∧ p.rank.toNat ≤ 20 := by
  simp only [State.pendingOk, List.all_eq_true, Bool.and_eq_true, decide_eq_true_eq]
  exact Iff.rfl

/-! ### The host's events keep it -/

theorem hardReset_inv (s : State) : s.hardReset.Inv :=
  ⟨rfl, rfl, rfl, rfl, (phaseOk_inReset_iff rfl).2 (by simp)⟩

/-- The host's access changes ARG and the error bits only where the phase says nothing of them. -/
theorem State.Inv.of_setHost {s : State} (h : s.Inv) {a : Word} {ei eb : Bool} {sc : List HostOp} {rd : List Word}
    (he : HostEffect s (s.setHost a ei eb sc rd)) : (s.setHost a ei eb sc rd).Inv := by
  refine ⟨h.cellsWf, h.cellsInDomain, h.pendingOk, h.scanOk, ?_⟩
  have same : (s.setHost a ei eb sc rd).phase = s.phase := rfl
  cases hp : s.phase with
  | idle => exact phaseOk_idle (same.trans hp)
  | running i x => exact (phaseOk_running_iff (same.trans hp)).2 ((phaseOk_running_iff hp).1 h.phaseOk)
  | inReset =>
    obtain ⟨hc, hpend, ha, hres, hrv, hed, hill, hbusy⟩ := (phaseOk_inReset_iff hp).1 h.phaseOk
    refine (phaseOk_inReset_iff (same.trans hp)).2 ?_
    cases he with
    | kept harg hIll hBusy =>
      exact ⟨hc, hpend, harg.trans ha, hres, hrv, hed, hIll.trans hill, hBusy.trans hbusy⟩
    | wroteArg _ _ _ hr => exact absurd hp hr
    | wroteStatus _ _ _ hr => exact absurd hp hr
    | dropped _ _ _ hr => exact absurd hp hr
    | illegal _ _ _ hr => cases hr.symm.trans hp
  | clearing =>
    obtain ⟨hc, hpend, hres, hrv, hed, hill⟩ := (phaseOk_clearing_iff hp).1 h.phaseOk
    refine (phaseOk_clearing_iff (same.trans hp)).2 ⟨hc, hpend, hres, hrv, hed, ?_⟩
    cases he with
    | kept _ hIll => exact hIll.trans hill
    | wroteArg _ _ _ _ hIll => exact hIll.trans hill
    | wroteStatus _ _ _ _ _ hIll => rw [hIll, hill, Bool.false_and]
    | dropped _ _ _ _ _ _ hIll => exact hIll.trans hill
    | illegal _ _ _ hr => cases hr.symm.trans hp

theorem State.Inv.of_release {s : State} (h : s.Inv) (hp : s.phase = .inReset) (rest : List HostOp) :
    State.Inv { s with phase := .clearing, script := rest } := by
  obtain ⟨hc, hpend, -, hres, hrv, hed, hill, -⟩ := (phaseOk_inReset_iff hp).1 h.phaseOk
  refine ⟨h.cellsWf, h.cellsInDomain, h.pendingOk, scanOk_of_none (by simp) (h.scan_none (by simp [hp])), ?_⟩
  exact (phaseOk_clearing_iff rfl).2 ⟨hc, hpend, hres, hrv, hed, hill⟩

/-- An idle core's acceptance keeps the invariant: an ADD's rank is 1 to 20, and EST's scan starts right. -/
theorem State.Inv.of_onAccept {s : State} (h : s.Inv) (hp : s.phase = .idle) {i : Instr}
    (hl : i = .rdreg → indexLegal s.arg = true) : (onAccept i s).Inv := by
  have hrun : (onAccept i s).phase = .running i s.arg := onAccept_phase i s
  refine ⟨?_, ?_, ?_, ?_, ?_⟩
  · rw [onAccept_cells]; exact h.cellsWf
  · rw [onAccept_cells]; exact h.cellsInDomain
  · have hk := (pendingOk_iff s).1 h.pendingOk
    rw [pendingOk_iff, onAccept_pending]
    split
    · rw [List.forall_mem_append, List.forall_mem_singleton, pendingOf_rank]
      exact ⟨hk, addRank_bounds _⟩
    · exact hk
  · by_cases he : i = .est
    · subst he
      exact scanOk_of_est hrun (by simp) (start_ok _)
    · refine scanOk_of_none (by simp [he]) ?_
      rw [onAccept_scan, if_neg he]
      exact h.scan_none (by simp [hp])
  · refine (phaseOk_running_iff hrun).2 ⟨fun hi => ?_, fun hi => ?_, hl⟩
    · rw [onAccept_rvalid, if_neg hi]
    · rw [onAccept_edom, if_pos hi]

/-- The invariant survives a change of the script alone. -/
theorem State.Inv.of_withScript {s : State} (h : s.Inv) (l : List HostOp) : (s.withScript l).Inv :=
  h.of_setHost (.kept rfl rfl rfl)

theorem State.Inv.of_entered {s u : State} (h : s.Inv) (hu : Entered s u) : u.Inv := by
  have he := hu.hostEffect
  obtain ⟨a, ei, eb, sc, rd, rfl⟩ | ⟨rest, -, hp, rfl⟩ | ⟨i, hi⟩ := hu.cases
  · exact h.of_setHost he
  · exact h.of_release hp rest
  · obtain ⟨rest, -, rfl⟩ := hi.word
    exact (h.of_withScript rest).of_onAccept hi.idle hi.legal

/-! ### The end of a step keeps it -/

theorem State.Inv.of_goOn {s : State} (h : s.Inv) (n : Nat) : (goOn n s).Inv := by
  refine ⟨?_, ?_, ?_, ?_, ?_⟩
  · rw [goOn_cells]; exact h.cellsWf
  · rw [goOn_cells]; exact h.cellsInDomain
  · rw [pendingOk_iff, goOn_pending]; exact (pendingOk_iff s).1 h.pendingOk
  · by_cases hp : ∃ x, s.phase = .running .est x
    · obtain ⟨x, hp⟩ := hp
      obtain ⟨c, hs, hc⟩ := h.scan_of_est hp
      refine scanOk_of_est (c := c.advance n s.sketch) ((goOn_phase n s).trans hp) (by rw [goOn_scan, hs]; rfl) ?_
      rw [goOn_sketch]
      exact advance_ok n _ c h.sketch_wf hc
    · have hp := not_exists.1 hp
      exact scanOk_of_none (by simpa using hp) (by rw [goOn_scan, h.scan_none hp]; rfl)
  · have hk := h.phaseOk
    unfold State.phaseOk at hk ⊢
    simpa only [goOn_phase, goOn_cells, goOn_pending, goOn_arg, goOn_result, goOn_rvalid, goOn_edom, goOn_errIll,
      goOn_errBusy] using hk

/-- A completion leaves the registers and an idle command stage with no scan. -/
theorem State.Inv.of_idle {s t : State} (h : s.Inv) (hc : t.cells = s.cells) (hpend : t.pending = s.pending)
    (hp : t.phase = .idle) (hs : t.scan = none) : t.Inv := by
  refine ⟨hc ▸ h.cellsWf, hc ▸ h.cellsInDomain, ?_, scanOk_of_none (by simp [hp]) hs, phaseOk_idle hp⟩
  rw [pendingOk_iff, hpend]
  exact (pendingOk_iff s).1 h.pendingOk

theorem State.Inv.of_finished {s t : State} (h : s.Inv) (hf : Finished s t) : t.Inv := by
  cases hf with
  | stays hp ht => exact ht ▸ h
  | cleared hp ht =>
    subst ht
    exact ⟨rfl, rfl, rfl, scanOk_of_none (by simp) (h.scan_none (by simp [hp])), phaseOk_idle rfl⟩
  | silent x hp ht =>
    subst ht
    exact h.of_idle rfl rfl rfl (h.scan_none (by obtain hp | hp := hp <;> simp [hp]))
  | hashed x hp ht =>
    subst ht
    exact h.of_idle (by simp) (by simp) (by simp) (by simpa using h.scan_none (by simp [hp]))
  | estimated x hp hd ht =>
    subst ht
    exact h.of_idle (by simp) (by simp) (by simp) (by simp)
  | readReg x hp hi hd ht =>
    subst ht
    exact h.of_idle (by simp) (by simp) (by simp) (by simpa using h.scan_none (by simp [hp]))

theorem State.Inv.of_endStep {s t : State} (h : s.Inv) (ht : endStep s = .next t) : t.Inv := by
  obtain ⟨-, rfl⟩ | ⟨-, hf⟩ := endStep_cases ht
  · exact h.tick.of_goOn _
  · exact h.tick.of_finished hf

theorem State.Inv.of_step {s t : State} (h : s.Inv) (ht : step s = .next t) : t.Inv := by
  obtain ⟨rest, -, rfl⟩ | ⟨u, hu, ht⟩ := step_cases ht
  · exact hardReset_inv _
  · exact (h.of_entered hu).of_endStep ht

end Sys2Proof.Machine

open Sys2Proof Sys2Proof.Machine

/-- Settles O49: every register of the state right after reset is 0 and nothing is in flight. -/
theorem invariantHoldsAtReset : Obligations.InvariantHoldsAtReset :=
  ⟨Memory.reset_wf, rfl, rfl, scanOk_of_none (by simp [State.reset]) rfl, (phaseOk_clearing_iff rfl).2 (by simp [State.reset])⟩

/-- Settles O50: the host's event keeps the invariant, and so does the end of the step. -/
theorem everyStepKeepsTheInvariant : Obligations.EveryStepKeepsTheInvariant := fun _ _ h ht => h.of_step ht

end

section
/-! The registers (10_state.md R30, R31, R34, R50): a step without reset leaves them as later commands see them, or is the
acceptance of an ADD; and which of them have been written already shows in no step. -/

namespace Sys2Proof.Machine

/-! ### What a step does to the registers -/

theorem State.Inv.sketch_of_clearing {s : State} (h : s.Inv) (hp : s.phase = .clearing) : s.sketch = [] := by
  obtain ⟨hc, hpend, -⟩ := h.clearing hp
  rw [State.sketch, hc, hpend, Memory.raiseAll_nil]

/-- The end of a step leaves every register as later commands see it; in the clear they are 0 already. -/
theorem State.Inv.endStep_sketch {u t : State} (h : u.Inv) (ht : endStep u = .next t) : t.sketch = u.sketch := by
  by_cases hp : u.phase = .clearing
  · have hu := h.tick.sketch_of_clearing (by simpa using hp)
    rw [tick_sketch] at hu
    obtain ⟨-, rfl⟩ | ⟨-, hf⟩ := endStep_cases ht
    · simp
    · cases hf with
      | cleared _ ht => subst ht; exact hu.symm
      | stays hs => simp [hp] at hs
      | silent x hs => simp [hp] at hs
      | hashed x hs => simp [hp] at hs
      | estimated x hs => simp [hp] at hs
      | readReg x hs => simp [hp] at hs
  · exact (endStep_frame ht hp).1

/-- Without reset, a step leaves every register, or it accepts an ADD of ARG (R34, R135). -/
theorem State.Inv.step_sketch {s t : State} (h : s.Inv) (ht : step s = .next t) (hn : s.noResetNext) :
    t.sketch = s.sketch ∨ t.sketch = s.sketch.raiseTo (pendingOf s.arg) ∧ s.phase = .idle ∧
      ∃ rest, s.script = .write 0x08 4 0x00000001#32 :: rest := by
  obtain ⟨u, hu, ht⟩ := entered_of_step ht hn
  rw [(h.of_entered hu).endStep_sketch ht]
  refine hu.sketch.imp_right fun ha => ?_
  obtain ⟨rest, hs, rfl⟩ := ha.word
  exact ⟨(onAccept_sketch _ _).trans (if_pos rfl), ha.idle, rest, hs⟩

end Sys2Proof.Machine

open Sys2Proof Sys2Proof.Machine

/-- Settles O36: a register that an ADD raises gets the larger of its value and the rank. -/
theorem registersNeverDecrease : Obligations.RegistersNeverDecrease := by
  intro s t h ht
  have hInv := h.of_step ht
  refine ⟨hInv.cellsWf, fun a ha => Memory.read_outside _ 0 a hInv.sketch_wf ha, fun hn a => ?_⟩
  rw [State.reg_def, State.reg_def]
  obtain hs | ⟨hs, -⟩ := h.step_sketch ht hn
  · rw [hs]
  · rw [hs, read_raise_pendingOf]
    split
    · exact le_max_left _ _
    · exact le_rfl

/-- Settles O37: the raise of an accepted ADD changes no other register than the one ARG's hash selects. -/
theorem onlyAddChangesRegisters : Obligations.OnlyAddChangesRegisters := by
  intro s t a h ht hn hne
  rw [State.reg_def, State.reg_def] at hne
  obtain hs | ⟨hs, hidle, hscript⟩ := h.step_sketch ht hn
  · exact absurd (by rw [hs]) hne
  · refine ⟨hidle, ?_, hscript⟩
    by_contra ha
    refine hne (BitVec.eq_of_toNat_eq ?_)
    rw [hs, read_raise_pendingOf, if_neg ha]

end

section
/-! Pending register writes are invisible (10_state.md R50, 20_memory.md R70, 70_reset_and_hazards.md R232). Two states that differ
only in them have the same drained state, the one with every pending write done; and a step of a state, drained afterwards, is a
step of its drained state, drained afterwards. -/

namespace Sys2Proof.Machine

/-- The state once the Update Pipeline has written every pending ADD. -/
def State.drained (s : State) : State := { s with cells := s.sketch, pending := [] }

theorem drained_eq_iff {s t : State} : t.drained = s.drained ↔
    t.sketch = s.sketch ∧ { t with cells := s.cells, pending := s.pending } = s := by
  constructor
  · intro h
    exact ⟨congrArg State.cells h, congrArg (fun u : State => { u with cells := s.cells, pending := s.pending }) h⟩
  · rintro ⟨hs, h⟩
    rw [State.drained, hs, State.drained]
    exact congrArg (fun u : State => { u with cells := s.sketch, pending := [] }) h

/-- Two outcomes that differ only in which pending ADDs have written. -/
def SameDrained (r r' : Result) : Prop := mapNext State.drained r = mapNext State.drained r'

/-! ### The end of a step -/

section
variable (s : State)

theorem drained_sketch : s.drained.sketch = s.sketch := rfl
theorem drained_reg (a : Nat) : s.drained.reg a = s.reg a := rfl
theorem drained_arg : s.drained.arg = s.arg := rfl
theorem drained_phase : s.drained.phase = s.phase := rfl
theorem drained_scan : s.drained.scan = s.scan := rfl

theorem drained_tick : s.drained.tick = s.tick.drained := by
  rw [State.drained.eq_def s.tick, tick_sketch]
  cases s
  simp [State.tick, State.retire, State.drained, State.draw]

theorem drained_goOn (n : Nat) : goOn n s.drained = (goOn n s).drained := by cases s; rfl
theorem drained_completeHash (h : Word) : completeHash h s.drained = (completeHash h s).drained := by cases s; rfl
theorem drained_completeEst (e : BitVec 64 × Bool) : completeEst e s.drained = (completeEst e s).drained := by cases s; rfl
theorem drained_completeRdreg (i : Nat) : completeRdreg i s.drained = (completeRdreg i s).drained := by cases s; rfl

theorem finish_drained : finish s.drained = mapNext State.drained (finish s) := by
  have hph := drained_phase s
  cases hp : s.phase with
  | inReset => rw [finish_inReset hp, finish_inReset (hph.trans hp), mapNext]
  | idle => rw [finish_idle hp, finish_idle (hph.trans hp), mapNext]
  | clearing => rw [finish_clearing hp, finish_clearing (hph.trans hp)]; rfl
  | running c x =>
    cases c with
    | nop => rw [finish_nop hp, finish_nop (hph.trans hp)]; rfl
    | add => rw [finish_add hp, finish_add (hph.trans hp)]; rfl
    | hash => rw [finish_hash hp, finish_hash (hph.trans hp), drained_completeHash, mapNext]
    | est =>
      rw [finish_est hp, finish_est (hph.trans hp), drained_sketch, drained_scan, drained_completeEst]
      split <;> simp only [mapNext]
    | rdreg =>
      rw [finish_rdreg hp, finish_rdreg (hph.trans hp), drained_reg, drained_completeRdreg]
      split_ifs <;> simp only [mapNext]

theorem endStep_drained : endStep s.drained = mapNext State.drained (endStep s) := by
  have hd : s.drained.draw = s.draw := rfl
  unfold endStep
  rw [hd, drained_tick, drained_goOn, finish_drained]
  split <;> simp only [mapNext]

end

theorem endStep_sameDrained {u v : State} (h : u.drained = v.drained) : SameDrained (endStep u) (endStep v) := by
  rw [SameDrained, ← endStep_drained, h, endStep_drained]

/-! ### The host's event -/

/-- An ADD accepted behind pending ones is, drained, an ADD accepted with none pending. -/
theorem drained_onAccept (i : Instr) (s : State) : (onAccept i s.drained).drained = (onAccept i s).drained := by
  refine drained_eq_iff.2 ⟨?_, ?_⟩
  · rw [onAccept_sketch, onAccept_sketch]
    rfl
  · cases i <;> cases s <;> rfl

theorem exec_drained (i : Instr) (s : State) : SameDrained (exec i s.drained) (exec i s) := by
  have hph := drained_phase s
  have accepted : SameDrained (endStep (onAccept i s.drained)) (endStep (onAccept i s)) :=
    endStep_sameDrained (drained_onAccept i s)
  by_cases hr : s.phase = .inReset
  · rw [exec_inReset hr, exec_inReset (hph.trans hr)]
    rfl
  by_cases hp : s.phase = .idle
  · cases i with
    | nop => rwa [exec_nop hp, exec_nop (hph.trans hp)]
    | hash => rwa [exec_hash hp, exec_hash (hph.trans hp)]
    | add =>
      rw [exec_add hp, exec_add (hph.trans hp), drained_arg, drained_reg]
      split
      · exact accepted
      · rfl
    | est =>
      rw [exec_est hp, exec_est (hph.trans hp), drained_sketch]
      split
      · exact accepted
      · rfl
    | rdreg =>
      rw [exec_rdreg hp, exec_rdreg (hph.trans hp), drained_arg, drained_reg]
      split
      · split
        · exact accepted
        · rfl
      · exact endStep_sameDrained rfl
  · have hb : s.busy = true := by simpa [State.busy] using hp
    rw [exec_busy hb hr, exec_busy (s := s.drained) hb (hph ▸ hr)]
    exact endStep_sameDrained rfl

theorem readHostReg_drained (r : HostReg) (s : State) : readHostReg r s.drained = readHostReg r s := by cases r <;> rfl

theorem access_drained {off size : Nat} {s : State} {k k' : HostReg → Result} (h : ∀ r, SameDrained (k r) (k' r)) :
    SameDrained (access off size s.drained k) (access off size s k') := by
  unfold access
  rw [drained_phase]
  split
  · rfl
  · split
    · split
      · exact h _
      · rfl
    · rfl

theorem hostWrite_drained (r : HostReg) (v : Word) (s : State) :
    SameDrained (hostWrite r v s.drained) (hostWrite r v s) := by
  cases r with
  | cmd =>
    simp only [hostWrite, hostWriteCmd]
    rw [show s.drained.busy = s.busy from rfl]
    split
    · exact endStep_sameDrained rfl
    · split
      · exact endStep_sameDrained rfl
      · exact exec_drained _ s
  | config | arg | status | resultLo | resultHi | reserved18 | reserved1C => exact endStep_sameDrained rfl

theorem hostEvent_drained (op : HostOp) (s : State) : SameDrained (hostEvent op s.drained) (hostEvent op s) := by
  cases op with
  | read off size =>
    exact access_drained fun r => by
      rw [readHostReg_drained]
      exact endStep_sameDrained rfl
  | write off size v => exact access_drained fun r => hostWrite_drained r v s
  | poll =>
    simp only [hostEvent]
    refine access_drained fun r => ?_
    rw [readHostReg_drained]
    split
    · exact endStep_sameDrained rfl
    · exact endStep_sameDrained rfl
  | idle => exact endStep_sameDrained rfl
  | assertReset => rfl
  | releaseReset =>
    refine endStep_sameDrained ?_
    unfold State.release
    rw [drained_phase]
    split <;> rfl

theorem step_drained (s : State) : SameDrained (step s.drained) (step s) := by
  unfold step
  rw [show s.drained.script = s.script from rfl]
  split
  · exact endStep_sameDrained rfl
  · next op rest _ => exact hostEvent_drained op (s.withScript rest)

/-- A state with the same drained state takes the same step. -/
theorem step_of_drained_eq {s s' t : State} (h : s'.drained = s.drained) (ht : step s = .next t) :
    ∃ t', step s' = .next t' ∧ t'.drained = t.drained := by
  have same : mapNext State.drained (step s') = .next t.drained := by
    rw [← (step_drained s' :), h, (step_drained s :), ht, mapNext]
  cases hs : step s' with
  | next t' => exact ⟨t', rfl, by simpa [hs, mapNext] using same⟩
  | fault r => simp [hs, mapNext] at same
  | refused r => simp [hs, mapNext] at same

end Sys2Proof.Machine

open Sys2Proof Sys2Proof.Machine

/-- Settles O38: the two states have the same drained state, before the step and after it. -/
theorem pendingWritesAreInvisible : Obligations.PendingWritesAreInvisible := by
  intro s s' t hs h ht
  obtain ⟨t', ht', hd⟩ := step_of_drained_eq (drained_eq_iff.2 ⟨hs, h⟩) ht
  exact ⟨t', ht', drained_eq_iff.1 hd⟩

end

section
/-! An accepted command against its one-step effect (10_state.md R42, R47, R54, 20_memory.md R70): it stays in flight while the
draws keep BUSY = 1, and completes on the operand it was accepted with. -/

namespace Sys2Proof.Machine

/-! ### One step of a command in flight -/

@[simp] theorem tick_arch (s : State) : s.tick.arch = s.arch := by simp [State.arch]

@[simp] theorem goOn_arch (n : Nat) (s : State) : (goOn n s).arch = s.arch := by simp [State.arch]

theorem endStep_stillBusy {s : State} (h : s.draw.stillBusy = true) : endStep s = .next (goOn s.draw.scanned s.tick) :=
  if_pos h

theorem endStep_settles {s : State} (h : s.settles) : endStep s = finish s.tick := if_neg (by simp [show _ = false from h])

/-- What a program sees once a command that holds the operand `x` completes: ADD's register write and NOP's nothing counted
from their acceptance on; the other three take effect now. -/
def Arch.complete (i : Instr) (x : Word) (a : Arch) : Arch :=
  if i = .nop ∨ i = .add then a else { ({ a with arg := x }).perform i with arg := a.arg }

/-- The command in flight completes where the draw lets it (R42, R47). -/
theorem State.Inv.completes {s : State} (h : s.Inv) {i : Instr} {x : Word} (hp : s.phase = .running i x) (hd : s.settles) :
    ∃ t, endStep s = .next t ∧ t.phase = .idle ∧ t.scan = none ∧ t.draws = s.draws.tail ∧ t.arch = s.arch.complete i x := by
  have ht := h.tick
  have hp' : s.tick.phase = .running i x := (tick_phase s).trans hp
  obtain ⟨t, hf, hidle, hscan, -, -, hdraws, -, harch⟩ := finish_running hp' ht.sketch_wf ht.sketch_inDomain
    (fun hi => ht.scan_of_est (x := x) (hi ▸ hp')) (fun hi => ht.scan_none (by simp [hp, hi]))
    (fun hi => ht.index_legal (hi ▸ hp'))
  rw [tick_arch, tick_arg] at harch
  exact ⟨t, (endStep_settles hd).trans hf, hidle, hscan, hdraws.trans (tick_draws s), harch⟩

end Sys2Proof.Machine

open Sys2Proof Sys2Proof.Machine

/-- Settles O27: with no host event the step is the end of a step. -/
theorem inFlightCommandCompletes : Obligations.InFlightCommandCompletes := by
  intro i x s h hp hs hd
  obtain ⟨t, ht, hidle, hscan, -, harch⟩ := h.completes hp hd
  exact ⟨t, (step_nil hs).trans ht, hidle, hscan, harch⟩

/-- Settles O26: the acceptance clears RVALID, and EDOM for EST; going on changes nothing a program sees. -/
theorem resultCommandsInFlight : Obligations.ResultCommandsInFlight := by
  intro i s hi h hp hb hl
  have hres : i ≠ .nop ∧ i ≠ .add := by obtain rfl | rfl | rfl := hi <;> decide
  have hb' : (onAccept i s).draw.stillBusy = true := by rwa [State.draw, onAccept_draws]
  refine ⟨_, (exec_of_legal hp h.sketch_inDomain fun hr => (indexLegal_iff _).2 (hl hr)).trans (endStep_stillBusy hb'), ?_⟩
  simp [State.reg_def, hres]

/-- Settles O28: each command's acceptance checks the registers it reads. -/
theorem outOfDomainRegistersAreRefused : Obligations.OutOfDomainRegistersAreRefused := by
  intro s hp
  have out {a : Nat} (h : 20 < (s.reg a).toNat) : inDomain (s.reg a) ≠ true := fun hd =>
    absurd ((inDomain_iff _).1 hd) (not_le.2 h)
  refine ⟨fun h => ?_, fun _ a h => ?_, fun hl h => ?_⟩
  · rw [exec_add hp, if_neg (out h)]
  · rw [exec_est hp, if_neg fun hd => out h (Memory.read_inDomain _ hd a)]
  · rw [exec_rdreg hp, if_pos ((indexLegal_iff _).2 hl), if_neg (out h)]

namespace Sys2Proof.Machine

/-! ### The whole run of a command -/

/-- A core that has been given a command and gets no further host access: it is done, and shows `goal`; or the command is in
flight, and its completion will. -/
structure Serving (i : Instr) (x : Word) (goal : Arch) (s : State) : Prop where
  inv : s.Inv
  noAccess : s.script = []
  progress : s.phase = .idle ∧ s.arch = goal ∨ s.phase = .running i x ∧ s.arch.complete i x = goal

/-- One more step serves the command on, and ends it where the draw lets it. -/
theorem Serving.endStep {i : Instr} {x : Word} {goal : Arch} {s : State} (h : Serving i x goal s) :
    ∃ t, endStep s = .next t ∧ Serving i x goal t ∧ t.draws = s.draws.tail ∧ (s.settles → t.phase = .idle) := by
  obtain ⟨hidle, harch⟩ | ⟨hp, harch⟩ := h.progress
  · obtain ⟨t, ht, harch', hidle', hscript, -⟩ := endStep_of_idle hidle
    exact ⟨t, ht, ⟨h.inv.of_endStep ht, hscript.trans h.noAccess, .inl ⟨hidle', harch'.trans harch⟩⟩,
      (endStep_host ht).2.2.2.2.2, fun _ => hidle'⟩
  · cases hb : s.draw.stillBusy with
    | true =>
      have ht := endStep_stillBusy hb
      refine ⟨_, ht, ⟨h.inv.of_endStep ht, ?_, .inr ⟨by simpa using hp, ?_⟩⟩, ?_, fun hd => ?_⟩
      · simpa using h.noAccess
      · rw [goOn_arch, tick_arch, harch]
      · rw [goOn_draws, tick_draws]
      · exact absurd hb (by simp [show _ = false from hd])
    | false =>
      obtain ⟨t, ht, hidle, -, hdraws, harch'⟩ := h.inv.completes hp hb
      exact ⟨t, ht, ⟨h.inv.of_endStep ht, (endStep_host ht).2.2.2.1.trans h.noAccess, .inl ⟨hidle, harch'.trans harch⟩⟩,
        hdraws, fun _ => hidle⟩

/-- After any number of steps the command is still served. -/
theorem Serving.runFor {i : Instr} {x : Word} {goal : Arch} (n : Nat) {s u : State} (h : Serving i x goal s)
    (hu : runFor n s = .next u) : Serving i x goal u := by
  induction n generalizing s with
  | zero => cases hu; exact h
  | succ n ih =>
    obtain ⟨t, ht, hserving, -⟩ := h.endStep
    rw [Machine.runFor, step_nil h.noAccess, ht] at hu
    exact ih hserving hu

/-- It is done one step after the draws are used up, or sooner. -/
theorem Serving.done {i : Instr} {x : Word} {goal : Arch} {s : State} (h : Serving i x goal s) :
    ∃ n u, n ≤ s.draws.length ∧ Machine.runFor (n + 1) s = .next u ∧ u.phase = .idle := by
  generalize hk : s.draws.length = k
  induction k generalizing s with
  | zero =>
    have settles : s.settles := by rw [State.settles, State.draw, List.length_eq_zero_iff.1 hk]; rfl
    obtain ⟨t, ht, -, -, hidle⟩ := h.endStep
    exact ⟨0, t, le_rfl, by rw [Machine.runFor, step_nil h.noAccess, ht]; rfl, hidle settles⟩
  | succ k ih =>
    obtain ⟨t, ht, hserving, hdraws, -⟩ := h.endStep
    obtain ⟨n, u, hn, hu, hidle⟩ := ih hserving (by rw [hdraws, List.length_tail, hk, Nat.add_sub_cancel])
    exact ⟨n + 1, u, Nat.succ_le_succ hn, by rw [Machine.runFor, step_nil h.noAccess, ht]; exact hu, hidle⟩

/-- HASH's effect with the hash as a variable, as `perform_est` has the estimate. -/
theorem perform_hash_of (a : Arch) {x h : Word} (ha : a.arg = x) (hh : hash32 x = h) :
    a.perform .hash = { a with result := 0#32 ++ h, rvalid := true } := by
  rw [perform_hash, ha, hh]

theorem perform_rdreg_illegal (a : Arch) (h : ¬a.arg.toNat < 8192) : a.perform .rdreg = { a with errIll := true } := if_neg h

/-- The completion of a command just accepted shows its one-step effect: what the acceptance cleared is written again. -/
theorem complete_onAccept {i : Instr} {s : State} (hl : i = .rdreg → indexLegal s.arg = true) :
    (onAccept i s).arch.complete i s.arg = s.arch.perform i := by
  cases i with
  | nop => simp [Arch.complete, Arch.perform, State.arch]
  | add => simp [Arch.complete, Arch.perform, State.arch]
  | hash =>
    obtain ⟨h, hh⟩ : ∃ h, hash32 s.arg = h := ⟨_, rfl⟩
    rw [perform_hash_of s.arch (x := s.arg) rfl hh, Arch.complete, if_neg (by decide),
      perform_hash_of _ (x := s.arg) rfl hh]
    simp [State.arch]
  | est =>
    obtain ⟨e, he⟩ : ∃ e, est64 (specSum s.sketch) (specZeros s.sketch) = e := ⟨_, rfl⟩
    rw [perform_est s.arch (mem := s.sketch) rfl he, Arch.complete, if_neg (by decide),
      perform_est _ (mem := s.sketch) (acceptEst_sketch s) he]
    simp [State.arch]
  | rdreg =>
    have hlt := (indexLegal_iff _).1 (hl rfl)
    rw [Arch.complete, if_neg (by decide), perform_rdreg _ hlt, perform_rdreg _ hlt]
    simp [State.arch]

theorem State.Inv.serving {s : State} (h : s.Inv) (hp : s.phase = .idle) (hs : s.script = []) (i : Instr) :
    ∃ u, exec i s = endStep u ∧ u.draws = s.draws ∧ Serving i s.arg (s.arch.perform i) u := by
  by_cases hl : i = .rdreg ∧ indexLegal s.arg = false
  · obtain ⟨rfl, hl⟩ := hl
    refine ⟨_, exec_rdreg_illegal hp hl, rfl, ?_, hs, .inl ⟨hp, ?_⟩⟩
    · exact h.of_idle rfl rfl hp (h.scan_none (by simp [hp]))
    · rw [perform_rdreg_illegal _ fun hlt => by simp [(indexLegal_iff s.arg).2 hlt] at hl]
      simp [State.arch]
  · have hl : i = .rdreg → indexLegal s.arg = true := by simpa using hl
    refine ⟨_, exec_of_legal hp h.sketch_inDomain hl, onAccept_draws i s, h.of_onAccept hp hl, ?_, .inr ⟨?_, ?_⟩⟩
    · rw [onAccept_script, hs]
    · exact onAccept_phase i s
    · exact complete_onAccept hl

end Sys2Proof.Machine

/-- Settles O52: an idle core's command is served until it is done, whatever the draws. -/
theorem commandsTakeEffectAsOneStep : Obligations.CommandsTakeEffectAsOneStep := by
  intro i s h hp hs
  obtain ⟨u, hexec, hdraws, hu⟩ := h.serving hp hs i
  obtain ⟨t, ht, hserving, -⟩ := hu.endStep
  obtain ⟨n, v, hn, hv, hidle⟩ := hu.done
  rw [runFor, step_nil hu.noAccess, ht] at hv
  refine ⟨t, hexec.trans ht, ⟨n, v, hdraws ▸ hn, hv, hidle⟩, fun m w hw hwidle => ?_⟩
  obtain ⟨-, harch⟩ | ⟨hrun, -⟩ := (hserving.runFor m hw).progress
  · exact harch
  · cases hrun.symm.trans hwidle

end

section
/-! The clear after reset (10_state.md R51, R53): it goes on and ends as the draws have it, and the reset values hold all along. -/

namespace Sys2Proof.Machine

/-- One step of the clear, after whatever the host has done. -/
theorem State.Inv.endStep_clearing {u : State} (h : u.Inv) (hp : u.phase = .clearing) :
    ∃ t, endStep u = .next t ∧ t.phase = (if u.draw.stillBusy then .clearing else .idle) ∧ t.cells = [] ∧ t.pending = [] ∧
      t.scan = none ∧ t.result = 0#64 ∧ t.rvalid = false ∧ t.edom = false ∧ t.errIll = false := by
  have hp' : u.tick.phase = .clearing := (tick_phase u).trans hp
  have hscan : u.tick.scan = none := h.tick.scan_none (by simp [hp])
  obtain ⟨hcells, hpending, hrest⟩ := h.tick.clearing hp'
  cases hb : u.draw.stillBusy with
  | true =>
    refine ⟨_, endStep_stillBusy hb, (goOn_phase _ _).trans hp', by rw [goOn_cells, hcells],
      by rw [goOn_pending, hpending], by rw [goOn_scan, hscan]; rfl, ?_⟩
    rwa [goOn_result, goOn_rvalid, goOn_edom, goOn_errIll]
  | false => exact ⟨_, (endStep_settles hb).trans (finish_clearing hp'), rfl, rfl, rfl, hscan, hrest⟩

/-- A step of the clear changes nothing a program sees. -/
theorem State.Inv.endStep_clearing_arch {u t : State} (h : u.Inv) (hp : u.phase = .clearing) (ht : endStep u = .next t) :
    t.arch = u.arch := by
  obtain ⟨t', ht', -, -, -, -, tres, trv, ted, till⟩ := h.endStep_clearing hp
  cases ht'.symm.trans ht
  obtain ⟨-, -, ures, urv, ued, uill⟩ := h.clearing hp
  obtain ⟨harg, -, hbusy, -⟩ := endStep_host ht
  rw [State.arch, State.arch, h.endStep_sketch ht, harg, hbusy, tres, trv, ted, till, ures, urv, ued, uill]

/-- With no host event the clear ends, and nothing a program sees changes. -/
theorem State.Inv.clear_ends {s : State} (h : s.Inv) (hp : s.phase = .clearing) (hs : s.script = []) :
    ∃ n t, runFor n s = .next t ∧ t.phase = .idle ∧ t.arch = s.arch ∧ t.pending = [] ∧ t.scan = none := by
  generalize hd : s.draws = ds
  induction ds generalizing s with
  | nil =>
    obtain ⟨t, ht, hphase, -, hpending, hscan, -⟩ := h.endStep_clearing hp
    have settles : s.draw.stillBusy = false := by rw [State.draw, hd]; rfl
    refine ⟨1, t, by rw [runFor, step_nil hs, ht]; rfl, ?_, h.endStep_clearing_arch hp ht, hpending, hscan⟩
    simpa [settles] using hphase
  | cons d ds ih =>
    obtain ⟨t, ht, hphase, -, hpending, hscan, -⟩ := h.endStep_clearing hp
    have harch := h.endStep_clearing_arch hp ht
    obtain ⟨-, -, -, hscript, -, hdraws⟩ := endStep_host ht
    split at hphase
    · obtain ⟨n, u, hrun, hidle, harch', hrest⟩ :=
        ih (h.of_endStep ht) hphase (hscript.trans hs) (by rw [hdraws, hd, List.tail_cons])
      exact ⟨n + 1, u, by rw [runFor, step_nil hs, ht]; exact hrun, hidle, harch'.trans harch, hrest⟩
    · exact ⟨1, t, by rw [runFor, step_nil hs, ht]; rfl, hphase, harch, hpending, hscan⟩

theorem status_eq_zero {s : State} (hp : s.phase = .idle) {mem : Memory} {a : Word} {v : BitVec 64}
    (h : s.arch = ⟨mem, a, v, false, false, false, false⟩) : s.status = 0x00000000#32 := by
  obtain ⟨-, -, -, hrv, hed, hill, hbusy⟩ := Arch.mk.inj h
  rw [State.status, hrv, hed, hill, hbusy, (State.busy_eq_false_iff s).2 hp]
  rfl

end Sys2Proof.Machine

open Sys2Proof Sys2Proof.Machine

/-- Settles O55: the host's event leaves the clear going on, and the invariant holds the reset values until it ends. -/
theorem resetState : Obligations.ResetState := by
  refine ⟨⟨rfl, rfl, rfl, rfl, rfl, by decide, fun _ => rfl, by decide⟩, fun s t h hp hn ht => ?_, fun ds => ?_⟩
  · obtain ⟨u, hu, ht⟩ := entered_of_step ht hn
    obtain ⟨t', ht', hphase, hcells, hpending, hscan, hresult, hrvalid, hedom, hill⟩ :=
      (h.of_entered hu).endStep_clearing (hu.clearing hp)
    cases ht'.symm.trans ht
    have hdraw : u.draw = s.draw := by rw [State.draw, hu.draws, State.draw]
    refine ⟨hdraw ▸ hphase, hcells, hpending, hscan, fun a => ?_, hresult, hrvalid, hedom, hill, (configIsConstant.2.1 t).1⟩
    rw [State.reg_def, State.sketch, hcells, hpending]
    rfl
  · have h : State.Inv { State.reset with draws := ds } :=
      ⟨rfl, rfl, rfl, rfl, (phaseOk_clearing_iff rfl).2 ⟨rfl, rfl, rfl, rfl, rfl, rfl⟩⟩
    obtain ⟨n, t, hrun, hidle, harch, hrest⟩ := h.clear_ends rfl rfl
    exact ⟨n, t, hrun, hidle, status_eq_zero hidle harch, harch, hrest⟩

end

section
/-! Where EST's domain error can come from (42_estimate.md R160, R162): the bounds on a sum `S` carry through each rounding of R161,
since a rounding never passes a representable value. From S = 11817 on the raw estimate stays below 2^32, and the argument of the
large-range logarithm above 0. -/

namespace Sys2Proof.Machine

/-! ### A rounding never passes a representable value -/

/-- The rational that `fl64` rounds. -/
def exactRatio (neg : Bool) (n d : ℕ) : ℚ := if neg then -(n : ℚ) / d else (n : ℚ) / d

section
variable {y : F64} (hy : y.representable) {neg : Bool} {n d : ℕ} (hd : 0 < d)
include hy hd

theorem fl64_le_of_exact_le (h : exactRatio neg n d ≤ y.value) : (fl64 neg n d).value ≤ y.value := by
  have near : |(fl64 neg n d).value - exactRatio neg n d| ≤ |y.value - exactRatio neg n d| :=
    ((fl64RoundsToNearestEven neg n d hd).2 y hy).1
  rw [abs_of_nonneg (sub_nonneg.2 h)] at near
  linarith [le_abs_self ((fl64 neg n d).value - exactRatio neg n d)]

theorem le_fl64_of_le_exact (h : y.value ≤ exactRatio neg n d) : y.value ≤ (fl64 neg n d).value := by
  have near : |(fl64 neg n d).value - exactRatio neg n d| ≤ |y.value - exactRatio neg n d| :=
    ((fl64RoundsToNearestEven neg n d hd).2 y hy).1
  rw [abs_of_nonpos (sub_nonpos.2 h)] at near
  linarith [neg_abs_le ((fl64 neg n d).value - exactRatio neg n d)]

end

/-! ### The operators in terms of values -/

theorem F64.den_pos (x : F64) : 0 < x.den := by unfold F64.den; positivity

theorem F64.value_eq_ratio (x : F64) : x.value = exactRatio x.neg x.num x.den := by
  cases h : x.neg <;> simp [F64.value, F64.signedNum, exactRatio, h]

theorem exactRatio_div (x y : F64) :
    exactRatio (x.neg ^^ y.neg) (x.num * y.den) (x.den * y.num) = x.value / y.value := by
  rw [x.value_eq_ratio, y.value_eq_ratio]
  cases x.neg <;> cases y.neg <;> simp [exactRatio, div_div_div_eq, neg_div, div_neg]

theorem exactRatio_int (z : ℤ) (d : ℕ) : exactRatio (z < 0) z.natAbs d = (z : ℚ) / d := by
  by_cases h : z < 0
  · simp [exactRatio, h, abs_of_neg h]
  · simp [exactRatio, h, abs_of_nonneg (not_lt.1 h)]

theorem exactRatio_add (x y : F64) :
    exactRatio (x.sumNum y < 0) (x.sumNum y).natAbs (x.den * y.den) = x.value + y.value := by
  have hx : (x.den : ℚ) ≠ 0 := by exact_mod_cast x.den_pos.ne'
  have hy : (y.den : ℚ) ≠ 0 := by exact_mod_cast y.den_pos.ne'
  rw [exactRatio_int, F64.value, F64.value, F64.sumNum, div_add_div _ _ hx hy]
  push_cast
  ring

theorem F64.le_iff (x y : F64) : x.le y = true ↔ x.value ≤ y.value := by
  have hx : (0 : ℚ) < x.den := by exact_mod_cast x.den_pos
  have hy : (0 : ℚ) < y.den := by exact_mod_cast y.den_pos
  rw [F64.le, decide_eq_true_iff, F64.value, F64.value, div_le_div_iff₀ hx hy]
  exact_mod_cast Iff.rfl

theorem F64.div_value_le {x y z : F64} (hz : z.representable) (hy : 0 < y.value) (h : x.value / y.value ≤ z.value) :
    (x.div y).value ≤ z.value := by
  have hnum : 0 < y.num := Nat.pos_of_ne_zero fun h0 => by simp [F64.value, F64.signedNum, h0] at hy
  exact fl64_le_of_exact_le hz (Nat.mul_pos x.den_pos hnum) (exactRatio_div x y ▸ h)

theorem F64.le_sub_value {x y z : F64} (hz : z.representable) (h : z.value ≤ x.value - y.value) :
    z.value ≤ (x.sub y).value := by
  refine le_fl64_of_le_exact hz (Nat.mul_pos x.den_pos y.negate.den_pos) ?_
  rwa [exactRatio_add, F64.negate_value, ← sub_eq_add_neg]

/-- The value of a positive literal. -/
theorem F64.value_mk (m : ℕ) (e : ℤ) : (F64.mk false m e).value = m * (2 : ℚ) ^ e := by
  rw [F64.value_eq, signFactor, if_neg Bool.false_ne_true, one_mul]

/-! ### From S = 11817 on -/

/-- `A64 = alpha ⊗ m ⊗ m`, the numerator of the raw estimate (R153, R162). -/
theorem estNumerator_eq : (alpha64.mul (F64.ofNat Config.m)).mul (F64.ofNat Config.m) = ⟨false, estNumerator, -27⟩ := by
  decide +kernel

theorem ofNat_two_pow_32_value : (F64.ofNat (2 ^ 32)).value = 2 ^ 32 := by
  rw [show F64.ofNat (2 ^ 32) = ⟨false, 2 ^ 52, -20⟩ by decide +kernel, F64.value_mk]
  norm_num

theorem ofNat_one_value : (F64.ofNat 1).value = 1 := by
  rw [show F64.ofNat 1 = ⟨false, 2 ^ 52, -52⟩ by decide +kernel, F64.value_mk]
  norm_num

theorem le_sum64_value {S : ℕ} (h : 11817 ≤ S) : 11817 / 2 ^ 20 ≤ (sum64 S).value := by
  have hy : (F64.mk false 11817 (-20)).representable := by norm_num [F64.representable]
  have hS : (11817 : ℚ) ≤ S := by exact_mod_cast h
  have bound : (F64.mk false 11817 (-20)).value = 11817 / 2 ^ 20 := by rw [F64.value_mk]; norm_num
  rw [← bound]
  refine le_fl64_of_le_exact hy (by positivity) ?_
  rw [bound]
  simp only [exactRatio]
  norm_num
  linarith

theorem raw64_value_le {S : ℕ} (h : 11817 ≤ S) : (raw64 S).value ≤ 4294684832 := by
  have hz : (F64.mk false 4294684832 0).representable := by norm_num [F64.representable]
  have bound : (F64.mk false 4294684832 0).value = 4294684832 := by rw [F64.value_mk]; norm_num
  have hsum := le_sum64_value h
  have hpos : 0 < (sum64 S).value := lt_of_lt_of_le (by norm_num) hsum
  rw [← bound, raw64, estNumerator_eq]
  refine F64.div_value_le hz hpos ?_
  rw [bound, F64.value_mk, div_le_iff₀ hpos]
  norm_num [estNumerator]
  linarith

theorem largeArgument_value_pos {S : ℕ} (h : 11817 ≤ S) : 0 < (largeArgument (raw64 S)).value := by
  have hq : (F64.mk false 4294684832 (-32)).representable := by norm_num [F64.representable]
  have ht : (F64.mk false (2 ^ 32 - 4294684832) (-32)).representable := by norm_num [F64.representable]
  have hraw := raw64_value_le h
  have quotient : ((raw64 S).div (F64.ofNat (2 ^ 32))).value ≤ (F64.mk false 4294684832 (-32)).value := by
    refine F64.div_value_le hq (by rw [ofNat_two_pow_32_value]; norm_num) ?_
    rw [ofNat_two_pow_32_value, F64.value_mk, div_le_iff₀ (by norm_num)]
    norm_num
    exact hraw
  have argument : (F64.mk false (2 ^ 32 - 4294684832) (-32)).value ≤ (largeArgument (raw64 S)).value := by
    refine F64.le_sub_value ht ?_
    rw [ofNat_one_value]
    refine le_trans ?_ (sub_le_sub_left quotient 1)
    rw [F64.value_mk, F64.value_mk]
    norm_num
  refine lt_of_lt_of_le ?_ argument
  rw [F64.value_mk]
  norm_num

/-- The only branch of R161 that sets the domain error also gives all ones (R160). -/
theorem est64_domain_error {S Z : ℕ} (h : (est64 S Z).2 = true) :
    (est64 S Z).1 = BitVec.allOnes 64 ∧ (largeArgument (raw64 S)).le (F64.ofNat 0) = true := by
  unfold est64 at h ⊢
  dsimp only at h ⊢
  split_ifs at h ⊢ with h1 h2 h3 h4
  · cases h
  · cases h
  · exact ⟨rfl, h4⟩
  · cases h
  · cases h

/-- The domain error needs S ≤ 11816 (R160, R162). -/
theorem le_of_est64_domain_error {S Z : ℕ} (h : (est64 S Z).2 = true) : S ≤ 11816 := by
  by_contra hS
  have zero : (F64.ofNat 0).value = 0 := by norm_num [F64.ofNat, fl64_zero, F64.value_mk]
  have le := (F64.le_iff _ _).1 (est64_domain_error h).2
  exact absurd (zero ▸ le) (not_le.2 (largeArgument_value_pos (by omega)))

/-! ### What a step does to EDOM -/

/-- Only the completion of EST writes EDOM at the end of a step; it writes the estimate of the registers (R44, R164). -/
theorem State.Inv.endStep_edom {u t : State} (h : u.Inv) (ht : endStep u = .next t) : t.edom = u.edom ∨
    (∃ x, u.phase = .running .est x) ∧ t.phase = .idle ∧ t.rvalid = true ∧
      ∃ e, est64 (specSum t.sketch) (specZeros t.sketch) = e ∧ t.result = e.1 ∧ t.edom = e.2 := by
  obtain ⟨-, rfl⟩ | ⟨-, hf⟩ := endStep_cases ht
  · simp
  · cases hf with
    | stays hp ht => subst ht; simp
    | cleared hp ht => subst ht; simp
    | silent x hp ht => subst ht; simp
    | hashed x hp ht => subst ht; simp
    | readReg x hp hi hd ht => subst ht; simp
    | estimated x hp hd ht =>
      obtain ⟨c, hs, hc⟩ := h.tick.scan_of_est hp
      rw [hs, Option.getD_some] at ht
      obtain ⟨e, he⟩ : ∃ e, est64 (specSum u.tick.sketch) (specZeros u.tick.sketch) = e := ⟨_, rfl⟩
      rw [complete_estimate h.tick.sketch_wf hc, he] at ht
      subst ht
      refine .inr ⟨⟨x, (tick_phase u).symm.trans hp⟩, by simp, by simp, e, ?_, by simp, by simp⟩
      rw [completeEst_sketch, he]

end Sys2Proof.Machine

open Sys2Proof Sys2Proof.Machine

/-- Settles O58: EST's acceptance clears EDOM, and only its completion sets it, from the sum of the registers. -/
theorem edomOnlyFromEst : Obligations.EdomOnlyFromEst := by
  intro s t h ht
  obtain ⟨rest, hs, rfl⟩ | ⟨u, hu, ht⟩ := step_cases ht
  · exact ⟨by simp, fun _ _ => .inl ⟨rest, hs⟩⟩
  have issued (ha : Accepted s .est u) : s.phase = .idle ∧ ∃ rest, s.script = .write 0x08 4 0x00000002#32 :: rest := by
    obtain ⟨rest, hs, -⟩ := ha.word
    exact ⟨ha.idle, rest, hs⟩
  have hu' := h.of_entered hu
  constructor
  · intro hs htrue
    have hedom : u.edom = false := by
      obtain he | ha := hu.edom
      · exact he.trans hs
      · obtain ⟨rest, -, rfl⟩ := ha.word
        simp
    obtain he | ⟨⟨x, hp⟩, hidle, hrvalid, e, he, hresult, hedom'⟩ := hu'.endStep_edom ht
    · exact absurd (htrue.symm.trans (he.trans hedom)) (by decide)
    · have herr : (est64 (specSum t.sketch) (specZeros t.sketch)).2 = true := by rw [he, ← hedom', htrue]
      refine ⟨(hu.running hp).imp (fun hp => ⟨x, hp⟩) issued, hidle, hrvalid, ?_, le_of_est64_domain_error herr⟩
      rw [hresult, ← he, (est64_domain_error herr).1]
      rfl
  · intro hs hfalse
    obtain he | ha := hu.edom
    · have hedom : u.edom = true := he.trans hs
      obtain he | ⟨⟨x, hp⟩, -⟩ := hu'.endStep_edom ht
      · exact absurd (hfalse.symm.trans (he.trans hedom)) (by decide)
      · exact absurd (((phaseOk_running_iff hp).1 hu'.phaseOk).2.1 rfl) (by simp [hedom])
    · exact .inr (issued ha)

end

section
/-! The host's accesses (20_memory.md R61, R64 to R67, R69, R71): the map of the window, which accesses are given a meaning, what a
read leaves of the state, and that nothing else ends a run (60_exceptions.md R194, R197). -/

namespace Sys2Proof

theorem accessWellFormed_iff {off size : Nat} : accessWellFormed off size = true ↔ size = 4 ∧ off % 4 = 0 ∧ off < 32 := by
  simp [accessWellFormed, and_assoc]

theorem getLsbD_byteLane (v : Word) (j i : Nat) (hi : i < 8) : (byteLane v j).getLsbD i = v.getLsbD (8 * j + i) := by
  simp [byteLane, hi]

/-- Neighbouring bytes, put together one after another, make the longer field of the word (R64, little-endian). -/
theorem wordOfLanes_byteLane (v : Word) :
    wordOfLanes (byteLane v 0) (byteLane v 1) (byteLane v 2) (byteLane v 3) = v := by
  simp only [wordOfLanes, byteLane]
  rw [BitVec.extractLsb'_append_extractLsb'_eq_extractLsb' (show 8 * 3 = 8 * 2 + 8 from rfl),
    BitVec.extractLsb'_append_extractLsb'_eq_extractLsb' (show 8 * 2 = 8 * 1 + 8 from rfl),
    BitVec.extractLsb'_append_extractLsb'_eq_extractLsb' (show 8 * 1 = 8 * 0 + 8 from rfl)]
  exact BitVec.extractLsb'_eq_self

end Sys2Proof

namespace Sys2Proof.Machine

/-! ### The map of the window -/

theorem windowOffset_isSome_iff (addr : Nat) :
    (windowOffset addr).isSome ↔ Config.pBase ≤ addr ∧ addr < Config.pBase + 32 := by
  simp [windowOffset]

theorem windowOffset_busAddress {off j : Nat} (h : off + j < 32) : windowOffset (busAddress off j) = some (off + j) := by
  have inWindow : Config.pBase ≤ busAddress off j ∧ busAddress off j < Config.pBase + 32 := by
    unfold busAddress
    omega
  rw [windowOffset, if_pos inWindow, busAddress, Nat.add_assoc, Nat.add_sub_cancel_left]

theorem hostRegAt_eq_some_iff {off : Nat} {r : HostReg} : hostRegAt off = some r ↔ off = r.offset :=
  ⟨hostRegAt_eq, fun h => h ▸ hostRegAt_offset r⟩

/-- A register stands at every multiple of 4 of the window, the reserved ones included (R61). -/
theorem exists_hostRegAt {off : Nat} (hlt : off < 32) (h4 : off % 4 = 0) : ∃ r, hostRegAt off = some r := by
  obtain ⟨k, rfl⟩ := Nat.dvd_of_mod_eq_zero h4
  have hk : k < 8 := by omega
  interval_cases k <;> exact ⟨_, rfl⟩

theorem HostReg.offset_lt (r : HostReg) : r.offset < 32 := by cases r <;> decide

theorem hostRegAt_eq_none {off : Nat} (h : 32 ≤ off) : hostRegAt off = none :=
  Option.eq_none_iff_forall_ne_some.2 fun r hr => absurd (hostRegAt_eq hr ▸ r.offset_lt) (not_lt.2 h)

/-! ### Which accesses are given a meaning -/

section
variable {off size : Nat} {s : State} (k : HostReg → Result)

theorem access_inReset (hp : s.phase = .inReset) : access off size s k = .refused .accessDuringReset := if_pos hp

theorem access_unsupported (hp : s.phase ≠ .inReset) (h : size ≠ 4 ∨ off % 4 ≠ 0) :
    access off size s k = .refused .unsupportedAccess := by
  rw [access, if_neg hp, if_neg (by tauto)]

theorem access_outside (hp : s.phase ≠ .inReset) (hsize : size = 4) (h4 : off % 4 = 0) (h : 32 ≤ off) :
    access off size s k = .refused .outsideWindow := by
  rw [access, if_neg hp, if_pos ⟨hsize, h4⟩, hostRegAt_eq_none h]

end

/-- A poll is a read of STATUS that comes again while BUSY = 1 (R98). -/
theorem hostEvent_poll (s : State) : hostEvent .poll s = access HostReg.status.offset 4 s fun r =>
    if (readHostReg r s).getLsbD 0 then endStep ((s.logRead (readHostReg r s)).withScript (.poll :: s.script))
    else endStep (s.logRead (readHostReg r s)) := rfl

/-! ### A read's only trace is in the log -/

/-- The end of a step does not look at the log, so it commutes with adding to it. -/
theorem endStep_logRead {s t : State} (h : endStep s = .next t) (v : Word) : endStep (s.logRead v) = .next (t.logRead v) := by
  obtain ⟨harg, hIll, hBusy, hscript, hreads, -⟩ := endStep_host h
  rw [endStep_of_host_update (u := s.logRead v) rfl h]
  simp [State.setHost, State.logRead, ← harg, ← hIll, ← hBusy, ← hscript, ← hreads]

theorem readHostReg_withScript (r : HostReg) (s : State) (l : List HostOp) :
    readHostReg r (s.withScript l) = readHostReg r s := by cases r <;> rfl

/-- A step with a read is the step with no access, but for the log (R67, R71). -/
theorem step_read_of_idle {s t : State} {off : Nat} {r : HostReg} {rest : List HostOp} (hr : hostRegAt off = some r)
    (hp : s.phase ≠ .inReset) (h : step (s.withScript (.idle :: rest)) = .next t) :
    step (s.withScript (.read off 4 :: rest)) = .next (t.logRead (readHostReg r s)) := by
  rw [step_read hr s hp rest, readHostReg_withScript]
  exact endStep_logRead h _

/-! ### Nothing else ends a run -/

/-- The core's own progress never stops: a command in flight completes, RDREG's index having been checked (R181, R194). -/
theorem State.Inv.endStep_answers {s : State} (h : s.Inv) : ∃ t, endStep s = .next t := by
  cases hb : s.draw.stillBusy with
  | true => exact ⟨_, endStep_stillBusy hb⟩
  | false =>
    rw [endStep_settles hb]
    have hph := tick_phase s
    cases hp : s.phase with
    | inReset => exact ⟨_, finish_inReset (hph.trans hp)⟩
    | clearing => exact ⟨_, finish_clearing (hph.trans hp)⟩
    | idle => exact ⟨_, finish_idle (hph.trans hp)⟩
    | running i x =>
      obtain ⟨t, ht, -⟩ := h.completes hp hb
      exact ⟨t, (endStep_settles hb).symm.trans ht⟩

/-- Nor does it when the host has set fields that it has nothing to do with. -/
theorem State.Inv.endStep_answers_of_host_update {s u : State} (h : s.Inv)
    (hu : s.setHost u.arg u.errIll u.errBusy u.script u.reads = u) : ∃ t, endStep u = .next t := by
  obtain ⟨t, ht⟩ := h.endStep_answers
  exact ⟨_, endStep_of_host_update hu ht⟩

/-- No command, on any data, stops an idle core. -/
theorem State.Inv.exec_answers {s : State} (h : s.Inv) (hp : s.phase = .idle) (i : Instr) : ∃ t, exec i s = .next t := by
  by_cases hl : i = .rdreg → indexLegal s.arg = true
  · rw [exec_of_legal hp h.sketch_inDomain hl]
    exact (h.of_onAccept hp hl).endStep_answers
  · obtain ⟨rfl, hillegal⟩ : i = .rdreg ∧ indexLegal s.arg = false := by simpa using hl
    rw [exec_rdreg_illegal hp hillegal]
    exact h.endStep_answers_of_host_update rfl

theorem State.Inv.hostWriteCmd_answers {s : State} (h : s.Inv) (w : Word) : ∃ t, hostWriteCmd w s = .next t := by
  unfold hostWriteCmd
  split
  · exact h.endStep_answers_of_host_update rfl
  · next hb =>
    split
    · exact h.endStep_answers_of_host_update rfl
    · exact h.exec_answers (s.busy_eq_false_iff.1 (Bool.eq_false_iff.2 hb)) _

theorem State.Inv.hostWrite_answers {s : State} (h : s.Inv) (r : HostReg) (v : Word) : ∃ t, hostWrite r v s = .next t := by
  cases r with
  | cmd => exact h.hostWriteCmd_answers v
  | config | arg | status | resultLo | resultHi | reserved18 | reserved1C => exact h.endStep_answers_of_host_update rfl

theorem State.Inv.release_answers {s : State} (h : s.Inv) : ∃ t, endStep s.release = .next t := by
  unfold State.release
  split
  · next hp => exact (h.of_release hp s.script).endStep_answers
  · exact h.endStep_answers

/-- An access to a register of the window, outside reset, is answered when what it does is. -/
theorem access_answers {off size : Nat} {s : State} {k : HostReg → Result} (hp : s.phase ≠ .inReset)
    (hw : accessWellFormed off size = true) (hk : ∀ r, ∃ t, k r = .next t) : ∃ t, access off size s k = .next t := by
  obtain ⟨rfl, h4, hlt⟩ := accessWellFormed_iff.1 hw
  obtain ⟨r, hr⟩ := exists_hostRegAt hlt h4
  rw [access_reg hr s hp k]
  exact hk r

/-- The accesses that the spec gives no meaning while the command stage stands at `p` (R61, R65, R221). -/
def HostOp.unsupportedIn (p : Phase) : HostOp → Prop
  | .read off size => p = .inReset ∨ accessWellFormed off size = false
  | .write off size _ => p = .inReset ∨ accessWellFormed off size = false
  | .poll => p = .inReset
  | .idle | .assertReset | .releaseReset => False

theorem State.Inv.hostEvent_answers {s : State} (h : s.Inv) {op : HostOp} (hop : ¬op.unsupportedIn s.phase) :
    ∃ t, hostEvent op s = .next t := by
  cases op with
  | read off size =>
    obtain ⟨hp, hw⟩ := not_or.1 hop
    exact access_answers hp (by simpa using hw) fun r => h.endStep_answers_of_host_update rfl
  | write off size v =>
    obtain ⟨hp, hw⟩ := not_or.1 hop
    exact access_answers hp (by simpa using hw) fun r => h.hostWrite_answers r v
  | poll =>
    rw [hostEvent_poll]
    refine access_answers hop rfl fun r => ?_
    split
    · exact h.endStep_answers_of_host_update rfl
    · exact h.endStep_answers_of_host_update rfl
  | idle => exact h.endStep_answers
  | assertReset => exact ⟨_, rfl⟩
  | releaseReset => exact h.release_answers

end Sys2Proof.Machine

open Sys2Proof Sys2Proof.Machine

/-- Settles O51: the end of a step is always answered, and so is every host event that is not an unsupported access. -/
theorem stopsOnlyOnUnsupportedAccesses : Obligations.StopsOnlyOnUnsupportedAccesses := by
  intro s h
  cases hs : s.script with
  | nil =>
    rw [step_nil hs]
    exact .inl h.endStep_answers
  | cons op rest =>
    by_cases hop : op.unsupportedIn s.phase
    · right
      cases op with
      | read off size => exact .inl ⟨off, size, rest, .inl rfl, hop⟩
      | write off size v => exact .inl ⟨off, size, rest, .inr ⟨v, rfl⟩, hop⟩
      | poll => exact .inr ⟨hop, rest, rfl⟩
      | idle | assertReset | releaseReset => exact hop.elim
    · rw [← withScript_self hs]
      exact .inl ((h.of_withScript rest).hostEvent_answers hop)

/-- Settles O4, lane by lane. -/
theorem byteLanesReassemble : Obligations.ByteLanesReassemble := fun v =>
  ⟨wordOfLanes_byteLane v, fun j i _ hi => getLsbD_byteLane v j i hi⟩

/-- Settles O5: the window's bounds, and the map both ways. -/
theorem windowMapIsExact : Obligations.WindowMapIsExact :=
  ⟨Nat.mul_mod_right _ _, fun _ _ => windowOffset_busAddress, windowOffset_isSome_iff, fun _ _ => hostRegAt_eq_some_iff,
    fun _ hlt h4 => Option.isSome_iff_exists.2 (exists_hostRegAt hlt h4)⟩

/-- Settles O10: a read only adds to the log, and the end of a step leaves the log as it is. -/
theorem hostReadsHaveNoSideEffect : Obligations.HostReadsHaveNoSideEffect := by
  intro s t r rest hp h
  obtain ⟨-, -, -, -, hreads, -⟩ := endStep_host (step_idle s rest ▸ h)
  rw [step_read_of_idle (hostRegAt_offset r) hp h, State.logRead, hreads]
  rfl

/-- Settles O13: `access` has one refusal for each of the three cases. -/
theorem unsupportedAccessesAreRefused : Obligations.UnsupportedAccessesAreRefused := by
  intro s _ _ _ rest
  refine ⟨fun hp => ?_, fun hp h => ?_, fun hp hsize h4 h => ?_⟩
  · exact ⟨access_inReset _ hp, access_inReset _ hp, (hostEvent_poll (s.withScript rest)).trans (access_inReset _ hp)⟩
  · exact ⟨access_unsupported _ hp h, access_unsupported _ hp h⟩
  · exact ⟨access_outside _ hp hsize h4 h, access_outside _ hp hsize h4 h⟩

end

section
/-! The command encoding (30_encoding.md R93 to R95, R98): a word decodes to a command, to a set RSV field or to a reserved opcode
according to its value alone, and a poll is a read of STATUS that BUSY repeats. -/

namespace Sys2Proof

theorem encode_toNat_le (i : Instr) : (encode i).toNat ≤ 4 := by cases i <;> decide

theorem decode_eq_command_iff {w : Word} {i : Instr} : decode w = .command i ↔ w = encode i :=
  ⟨eq_encode_of_decode, fun h => h ▸ decode_encode i⟩

theorem decode_eq_rsv_iff {w : Word} : decode w = .illegal .rsv ↔ 16 ≤ w.toNat := by
  have hrsv : rsvField w ≠ 0#28 ↔ 16 ≤ w.toNat := (rsvField_eq_zero_iff w).not.trans not_lt
  rw [← hrsv, decode]
  constructor
  · intro h hzero
    rw [if_neg (not_not.2 hzero)] at h
    split at h <;> cases h
  · exact fun hne => if_pos hne

/-- What is left below 16 when the five commands are taken out (R94). -/
theorem decode_eq_op_iff {w : Word} : decode w = .illegal .op ↔ 5 ≤ w.toNat ∧ w.toNat ≤ 15 := by
  constructor
  · intro h
    have hrsv : ¬16 ≤ w.toNat := fun h16 => by cases h.symm.trans (decode_eq_rsv_iff.2 h16)
    exact ⟨le_of_decode_illegal h, by omega⟩
  · rintro ⟨h5, h15⟩
    cases h : decode w with
    | command i =>
      have := encode_toNat_le i
      rw [eq_encode_of_decode h] at h5
      omega
    | illegal why =>
      cases why with
      | rsv =>
        have := decode_eq_rsv_iff.1 h
        omega
      | op => rfl

end Sys2Proof

namespace Sys2Proof.Machine

/-- Outside reset a poll is a read of STATUS, with the poll still to come while BUSY = 1 (R98). -/
theorem step_poll {s : State} (hp : s.phase ≠ .inReset) (rest : List HostOp) :
    step (s.withScript (.poll :: rest)) =
      step (s.withScript (.read HostReg.status.offset 4 :: if s.busy then .poll :: rest else rest)) := by
  have hr := hostRegAt_offset .status
  obtain ⟨bit0, -⟩ := statusWordLayout.2 s
  have hpoll : step (s.withScript (.poll :: rest)) = _ :=
    (hostEvent_poll (s.withScript rest)).trans (access_reg hr (s.withScript rest) hp _)
  rw [hpoll, step_read hr s hp]
  simp only [readHostReg_withScript, bit0]
  cases s.busy <;> rfl

end Sys2Proof.Machine

open Sys2Proof Sys2Proof.Machine

/-- Settles O2: decode undoes encode, and a command's opcode with RSV = 0 is its word. -/
theorem decodeAcceptsExactlyTheEncodings : Obligations.DecodeAcceptsExactlyTheEncodings :=
  fun _ _ => decode_eq_command_iff

/-- Settles O3: RSV as a number is the word divided by 16, and the commands are the words below 5. -/
theorem illegalWordsClassified : Obligations.IllegalWordsClassified :=
  fun _ => ⟨decode_eq_rsv_iff, decode_eq_op_iff⟩

/-- Settles O1: the first five words are the encodings, the others lie in the two illegal ranges. -/
theorem writtenWordsDecode : Obligations.WrittenWordsDecode :=
  ⟨decode_encode .nop, decode_encode .add, decode_encode .est, decode_encode .hash, decode_encode .rdreg,
    decode_eq_op_iff.2 (by decide), decode_eq_op_iff.2 (by decide), decode_eq_rsv_iff.2 (by decide),
    decode_eq_rsv_iff.2 (by decide)⟩

/-- Settles O14, by `step_poll` at each value of BUSY. -/
theorem pollRepeatsWhileBusy : Obligations.PollRepeatsWhileBusy := by
  intro s rest hp
  have h := step_poll hp rest
  constructor
  · intro hb
    rwa [hb] at h
  · intro hb
    rwa [hb] at h

end

section
/-! The Hash Mixer and HASH (40_hash_mixer.md R111, R114, R116): each step of hash32 undone, the inverse of the whole made of
them, and what the command leaves when it is done or dropped. -/

namespace Sys2Proof.Machine

/-! ### Multiplication -/

/-- An odd factor cancels modulo a power of two. -/
theorem mul_odd_injective {c : Word} (hc : c.getLsbD 0 = true) : Function.Injective fun v : Word => v * c := by
  intro v w (h : v * c = w * c)
  have odd : c.toNat % 2 = 1 := Nat.mod_two_eq_one_iff_testBit_zero.2 hc
  have coprime : Nat.gcd (2 ^ 32) c.toNat = 1 := (Nat.coprime_two_left.2 (Nat.odd_iff.2 odd)).pow_left 32
  have product : v.toNat * c.toNat ≡ w.toNat * c.toNat [MOD 2 ^ 32] := by
    simpa only [BitVec.toNat_mul, Nat.ModEq] using congrArg BitVec.toNat h
  exact BitVec.eq_of_toNat_eq ((product.cancel_right_of_coprime coprime).eq_of_lt_of_lt v.isLt w.isLt)

theorem mul_odd_bijective {c : Word} (hc : c.getLsbD 0 = true) : Function.Bijective fun v : Word => v * c :=
  (mul_odd_injective hc).bijective_of_finite

theorem mul_mul_inverse {c d : Word} (h : c * d = 1#32) (v : Word) : v * c * d = v := by
  rw [BitVec.mul_assoc, h, BitVec.mul_one]

/-! ### Rotation -/

/-- The model's rotation is the library's, whose bits are known. -/
theorem rotl32_eq_rotateLeft (v : Word) {n : Nat} (hn : n < 32) : rotl32 v n = v.rotateLeft n :=
  (BitVec.rotateLeft_eq_rotateLeftAux_of_lt hn).symm

/-- Two rotations that add up to a full turn undo each other. -/
theorem rotl32_rotl32 {m n : Nat} (hm : 0 < m) (hn : 0 < n) (h : m + n = 32) (v : Word) :
    rotl32 (rotl32 v m) n = v := by
  rw [rotl32_eq_rotateLeft _ (by omega), rotl32_eq_rotateLeft _ (by omega)]
  refine BitVec.eq_of_getLsbD_eq fun i hi => ?_
  have hm' : m % 32 = m := Nat.mod_eq_of_lt (by omega)
  have hn' : n % 32 = n := Nat.mod_eq_of_lt (by omega)
  rw [BitVec.getLsbD_rotateLeft, BitVec.getLsbD_rotateLeft, BitVec.getLsbD_rotateLeft, hm', hn']
  by_cases low : i < n
  · have top : ¬32 - n + i < m := by omega
    have back : 32 - n + i - m = i := by omega
    have inside : 32 - n + i < 32 := by omega
    simp [low, top, back, inside]
  · have bottom : i - n < m := by omega
    have back : 32 - m + (i - n) = i := by omega
    simp [low, hi, bottom, back]

theorem rotl32_bijective {n : Nat} (h0 : 0 < n) (h32 : n < 32) : Function.Bijective fun v : Word => rotl32 v n :=
  Function.bijective_iff_has_inverse.2 ⟨fun v => rotl32 v (32 - n),
    fun v => rotl32_rotl32 h0 (by omega) (by omega) v, fun v => rotl32_rotl32 (by omega) h0 (by omega) v⟩

/-! ### XOR -/

theorem xor_xor_self (c v : Word) : v ^^^ c ^^^ c = v := by rw [BitVec.xor_assoc, BitVec.xor_self, BitVec.xor_zero]

theorem xor_bijective (c : Word) : Function.Bijective fun v : Word => v ^^^ c :=
  Function.Involutive.bijective (xor_xor_self c)

/-! ### `v ^= v >> k`

Applied twice, the shift doubles, since the two middle terms cancel; and a shift by 32 or more leaves the word. -/

theorem xorShift_of_ge {k : Nat} (h : 32 ≤ k) (v : Word) : xorShift k v = v := by
  rw [xorShift, BitVec.ushiftRight_eq_zero h, BitVec.xor_zero]

theorem xorShift_xorShift (j k : Nat) (v : Word) :
    xorShift j (xorShift k v) = v ^^^ (v >>> k) ^^^ (v >>> j) ^^^ (v >>> (k + j)) := by
  rw [xorShift, xorShift, BitVec.ushiftRight_xor_distrib, ← BitVec.shiftRight_add, ← BitVec.xor_assoc]

theorem xorShift_twice (k : Nat) (v : Word) : xorShift k (xorShift k v) = xorShift (k + k) v := by
  rw [xorShift_xorShift, xor_xor_self, xorShift]

/-- By doubling the shift until it leaves nothing. -/
theorem xorShift_bijective {k : Nat} (hk : 1 ≤ k) : Function.Bijective (xorShift k) := by
  by_cases h : 32 ≤ k
  · have identity : xorShift k = id := funext (xorShift_of_ge h)
    rw [identity]
    exact Function.bijective_id
  · have twice : xorShift k ∘ xorShift k = xorShift (k + k) := funext (xorShift_twice k)
    have ih : Function.Bijective (xorShift k ∘ xorShift k) := twice ▸ xorShift_bijective (by omega)
    exact ⟨ih.1.of_comp, ih.2.of_comp⟩
termination_by 32 - k

theorem xorShift16_xorShift16 (v : Word) : xorShift 16 (xorShift 16 v) = v := by
  rw [xorShift_twice, xorShift_of_ge (by decide)]

theorem unXorShift13_eq (v : Word) : unXorShift13 v = xorShift 26 (xorShift 13 v) := by
  rw [xorShift_xorShift, BitVec.ushiftRight_eq_zero (n := 13 + 26) (by decide), BitVec.xor_zero, unXorShift13]

theorem unXorShift13_xorShift13 (v : Word) : unXorShift13 (xorShift 13 v) = v := by
  rw [unXorShift13_eq, xorShift_twice, xorShift_twice, xorShift_of_ge (by decide)]

/-! ### The whole mixer -/

/-- The inverse multipliers (R114). -/
theorem inverseMultipliers :
    0xCC9E2D51#32 * 0xDEE13BB1#32 = 1#32 ∧ 0x1B873593#32 * 0x56ED309B#32 = 1#32 ∧ 5#32 * 0xCCCCCCCD#32 = 1#32 ∧
      0x85EBCA6B#32 * 0xA5CB9243#32 = 1#32 ∧ 0xC2B2AE35#32 * 0x7ED1B41D#32 = 1#32 := by decide

theorem unhash32_hash32 (x : Word) : unhash32 (hash32 x) = x := by
  obtain ⟨key, key', seed, mid, last⟩ := inverseMultipliers
  unfold unhash32 hash32 avalanche mixSeed mixKey
  dsimp only
  rw [xorShift16_xorShift16, mul_mul_inverse last, unXorShift13_xorShift13, mul_mul_inverse mid, xorShift16_xorShift16,
    xor_xor_self, BitVec.add_sub_cancel, mul_mul_inverse seed, rotl32_rotl32 (by decide) (by decide) (by decide),
    BitVec.xor_comm 0x00000139#32, xor_xor_self, mul_mul_inverse key',
    rotl32_rotl32 (by decide) (by decide) (by decide), mul_mul_inverse key]

/-- The words are finitely many, so the left inverse is the inverse. -/
theorem hash32_unhash32 (h : Word) : hash32 (unhash32 h) = h :=
  have left : Function.LeftInverse unhash32 hash32 := unhash32_hash32
  left.rightInverse_of_surjective left.injective.bijective_of_finite.surjective h

/-! ### The command -/

/-- The acceptance of a command reads nothing for the host. -/
@[simp] theorem onAccept_reads (i : Instr) (s : State) : (onAccept i s).reads = s.reads := by cases i <;> simp [onAccept]

end Sys2Proof.Machine

open Sys2Proof Sys2Proof.Machine

/-- Settles O30: the inverse undoes the steps in turn, each by its own lemma. -/
theorem hashIsBijective : Obligations.HashIsBijective := by
  obtain ⟨key, key', seed, mid, last⟩ := inverseMultipliers
  exact ⟨unhash32_hash32, hash32_unhash32, xorShift16_xorShift16, unXorShift13_xorShift13, key, key', seed, mid, last,
    fun i f => ⟨unhash32 (i ++ f), hash32_unhash32 _, fun y hy => hy ▸ (unhash32_hash32 y).symm⟩⟩

/-- Settles O31, a lemma for each kind of step; `v*5 + c` is two of them. -/
theorem hashStepsAreInvertible : Obligations.HashStepsAreInvertible :=
  ⟨fun _ => mul_odd_bijective, fun _ => rotl32_bijective, xor_bijective, fun _ => xorShift_bijective,
    fun c => (Equiv.addRight c).bijective.comp (mul_odd_bijective (by decide))⟩

/-- Settles O29: the mixer's parts, written out one after another, are the rule's assignments. -/
theorem hashIsTheStatedComputation : Obligations.HashIsTheStatedComputation := by
  intro x
  unfold hash32 avalanche mixSeed mixKey rotl32 xorShift
  rfl

/-- Settles O18: the drop sets ERR_BUSY, which the end of the step neither reads nor writes. -/
theorem commandsIssuedWhileBusyAreDropped : Obligations.CommandsIssuedWhileBusyAreDropped := by
  intro i s t hb hp h
  obtain ⟨harg, hIll, -, hscript, hreads, -⟩ := endStep_host h
  rw [exec_busy hb hp, endStep_of_host_update (u := s.raiseErrBusy) rfl h, State.setHost]
  simp [← harg, ← hIll, ← hscript, ← hreads]

/-- Settles O22: the command completes in its own step, on the ARG it was accepted with. -/
theorem hashPutsTheHashInResult : Obligations.HashPutsTheHashInResult := by
  intro s hp hd
  have settles : (onAccept .hash s).settles := by rwa [State.settles, State.draw, onAccept_draws]
  have running : (onAccept .hash s).tick.phase = .running .hash s.arg := by simp
  have done : exec .hash s = .next (completeHash (hash32 s.arg) (onAccept .hash s).tick) :=
    (exec_hash hp).trans ((endStep_settles settles).trans (finish_hash running))
  refine ⟨_, done, ?_⟩
  generalize hash32 s.arg = h
  simp [State.reg_def]

end

section
/-! The address decoder and the rank counter (41_update.md R130 to R133): the fields of the hash, and the rank as a bound on the
fragment's leading zeros. -/

namespace Sys2Proof.Machine

/-! ### Index and fragment (R130, R131) -/

theorem hashIndex_eq_extractLsb' (h : Word) : hashIndex h = h.extractLsb' 19 13 := by
  refine BitVec.eq_of_getLsbD_eq fun i hi => ?_
  simp [hashIndex, hi, Config.W]

theorem hashIndex_toNat (h : Word) : (hashIndex h).toNat = h.toNat / 2 ^ 19 := by
  have := h.isLt
  rw [hashIndex_eq_extractLsb', BitVec.extractLsb'_toNat, Nat.shiftRight_eq_div_pow]
  exact Nat.mod_eq_of_lt (by omega)

theorem fragment_eq_append (h : Word) : fragment h = h.extractLsb' 0 19 ++ 0#13 :=
  BitVec.shiftLeft_eq_concat_of_lt (by decide)

/-! ### The rank (R132, R133)

All that the rank says is how many of the fragment's leading bits are 0: every claim about it follows from `lt_rank_iff`. -/

/-- The `k` leading bits of a word are 0. -/
def LeadingZeros (k : Nat) (f : Word) : Prop := ∀ j, 32 - k ≤ j → f.getLsbD j = false

theorem leadingZeros_zero (f : Word) : LeadingZeros 0 f := fun _ => f.getLsbD_of_ge _

/-- One step of the loop of R132: the top bit is 0, and the shifted word goes on. -/
theorem leadingZeros_succ_iff {k : Nat} (hk : k < 32) (f : Word) :
    LeadingZeros (k + 1) f ↔ f.getLsbD 31 = false ∧ LeadingZeros k (f <<< 1) := by
  constructor
  · intro h
    refine ⟨h 31 (by omega), fun j hj => ?_⟩
    rw [BitVec.getLsbD_shiftLeft, h (j - 1) (by omega), Bool.and_false]
  · rintro ⟨top, h⟩ j hj
    obtain hlt | rfl | hge : j < 31 ∨ j = 31 ∨ 32 ≤ j := by omega
    · have inside : j + 1 < 32 := by omega
      rw [← h (j + 1) (by omega), BitVec.getLsbD_shiftLeft]
      simp [inside]
    · exact top
    · exact f.getLsbD_of_ge j hge

/-- As a number: the word is below the bit that the leading zeros leave. -/
theorem leadingZeros_iff_toNat_lt (k : Nat) (f : Word) : LeadingZeros k f ↔ f.toNat < 2 ^ (32 - k) := by
  cases k with
  | zero => exact iff_of_true (leadingZeros_zero f) f.isLt
  | succ k =>
    rw [BitVec.toNat_lt_iff_getLsbD_eq_false _ (by omega)]
    refine ⟨fun h j => h _ (Nat.le_add_right _ j), fun h j hj => ?_⟩
    obtain ⟨i, rfl⟩ := Nat.exists_eq_add_of_le hj
    exact h i

theorem leadingZeros_one_iff (f : Word) : LeadingZeros 1 f ↔ f.getLsbD 31 = false := by
  simp [leadingZeros_succ_iff, leadingZeros_zero]

/-- The loop counts on from `r` as long as the leading bits are 0, over the bits it still examines. -/
theorem add_le_rankLoop_iff {k left : Nat} (hk : k ≤ left) (hl : left ≤ 32) (r : Nat) (f : Word) :
    r + k ≤ rankLoop left r f ↔ LeadingZeros k f := by
  induction left generalizing k r f with
  | zero =>
    obtain rfl : k = 0 := by omega
    simp [rankLoop, leadingZeros_zero]
  | succ left ih =>
    cases k with
    | zero => exact iff_of_true (rankLoop_bounds _ r f).1 (leadingZeros_zero f)
    | succ k =>
      rw [leadingZeros_succ_iff (by omega), rankLoop]
      cases top : f.getLsbD 31 with
      | true => simp
      | false =>
        have := ih (k := k) (by omega) (by omega) (r + 1) (f <<< 1)
        simpa [Nat.add_assoc, Nat.add_comm 1 k] using this

theorem lt_rank_iff {k : Nat} (hk : k ≤ 19) (f : Word) : k < rank f ↔ LeadingZeros k f := by
  rw [← add_le_rankLoop_iff hk (by decide) 1 f, Nat.add_comm 1 k]
  exact Iff.rfl

theorem rank_bounds (f : Word) : 1 ≤ rank f ∧ rank f ≤ 20 := rankLoop_bounds Config.FW 1 f

theorem le_clz32_iff {k : Nat} (hk : k ≤ 32) (f : Word) : k ≤ clz32 f ↔ LeadingZeros k f := by
  rw [leadingZeros_iff_toNat_lt, clz32]
  split
  · next h => simp [h, hk]
  · next h =>
    have hne : f.toNat ≠ 0 := fun h0 => h (BitVec.eq_of_toNat_eq h0)
    have hlog : f.toNat.log2 < 32 := (Nat.log2_lt hne).2 f.isLt
    rw [← Nat.log2_lt hne]
    omega

theorem rank_eq_clz32 (f : Word) : rank f = 1 + min (clz32 f) 19 := by
  obtain ⟨low, high⟩ := rank_bounds f
  have same {k : Nat} (hk : k ≤ 19) : k < rank f ↔ k ≤ clz32 f := (lt_rank_iff hk f).trans (le_clz32_iff (by omega) f).symm
  have counted := same (k := rank f - 1) (by omega)
  by_cases capped : rank f = 20
  · omega
  · have stopped := same (k := rank f) (by omega)
    omega

theorem rank_eq_one_iff (f : Word) : rank f = 1 ↔ f.getLsbD 31 = true := by
  have low := (rank_bounds f).1
  rw [← Bool.not_eq_false, ← leadingZeros_one_iff, ← lt_rank_iff (by decide)]
  omega

theorem rank_eq_twenty_iff (f : Word) : rank f = 20 ↔ LeadingZeros 19 f := by
  have high := (rank_bounds f).2
  rw [← lt_rank_iff le_rfl]
  omega

/-- The `FW` fragment bits are the top 19 (R131, R132). -/
theorem leadingZeros_nineteen_iff (f : Word) : LeadingZeros 19 f ↔ f.extractLsb' 13 19 = 0#19 := by
  have := f.isLt
  rw [leadingZeros_iff_toNat_lt, ← BitVec.toNat_inj, BitVec.extractLsb'_toNat, Nat.shiftRight_eq_div_pow]
  simp only [BitVec.toNat_ofNat]
  omega

/-- The fragment's leading bits are the hash's bits from 18 down (R133). -/
theorem leadingZeros_fragment_iff {k : Nat} (hk : k ≤ 19) (h : Word) :
    LeadingZeros k (fragment h) ↔ ∀ j, 19 - k ≤ j → j < 19 → h.getLsbD j = false := by
  constructor
  · intro hz j hj hlt
    have inside : j + 13 < 32 := by omega
    have bit := hz (j + 13) (by omega)
    rw [fragment, BitVec.getLsbD_shiftLeft] at bit
    simpa [inside, Config.W] using bit
  · intro hb j hj
    rw [fragment, BitVec.getLsbD_shiftLeft]
    by_cases inside : j < 32
    · rw [hb (j - 13) (by omega) (by omega), Bool.and_false]
    · simp [inside]

/-- The leading zeros end at the bit `k`: the first `k - 1` bits are 0 and the next one is not (R133). -/
theorem rank_fragment_eq_iff {k : Nat} (hk : 1 ≤ k) (hk' : k ≤ 19) (h : Word) : rank (fragment h) = k ↔
    (∀ j, 19 - k < j → j < 19 → h.getLsbD j = false) ∧ h.getLsbD (19 - k) = true := by
  have reached : k ≤ rank (fragment h) ↔ ∀ j, 19 - k < j → j < 19 → h.getLsbD j = false := by
    obtain ⟨i, rfl⟩ := Nat.exists_eq_add_of_le' hk
    rw [Nat.succ_le_iff, lt_rank_iff (by omega), leadingZeros_fragment_iff (by omega)]
    exact forall_congr' fun j => imp_congr_left (by omega)
  have passed : k < rank (fragment h) ↔ k ≤ rank (fragment h) ∧ h.getLsbD (19 - k) = false := by
    rw [reached, lt_rank_iff hk', leadingZeros_fragment_iff hk']
    refine ⟨fun hz => ⟨fun j hj => hz j hj.le, hz _ le_rfl (by omega)⟩, fun ⟨hz, last⟩ j hj hlt => ?_⟩
    obtain rfl | hj := hj.eq_or_lt
    · exact last
    · exact hz j hj hlt
  have stops : rank (fragment h) = k ↔ k ≤ rank (fragment h) ∧ ¬k < rank (fragment h) := by omega
  rw [stops, passed, ← reached, ← Bool.not_eq_false]
  tauto

end Sys2Proof.Machine

open Sys2Proof Sys2Proof.Machine

/-- Settles O32: both fields as ranges of the hash's bits. -/
theorem indexAndFragmentSplitTheHash : Obligations.IndexAndFragmentSplitTheHash := fun h =>
  ⟨hashIndex_eq_extractLsb' h, hashIndex_toNat h, (hashIndex h).isLt, fragment_eq_append h⟩

/-- Settles O33: the rank and the count are above the same numbers of leading zeros. -/
theorem rankIsCappedLeadingZeroCount : Obligations.RankIsCappedLeadingZeroCount := fun f =>
  ⟨rank_eq_clz32 f, (rank_bounds f).1, (rank_bounds f).2, rank_eq_one_iff f,
    (rank_eq_twenty_iff f).trans (leadingZeros_nineteen_iff f)⟩

/-- Settles O34: the fragment's leading zeros are those of the hash's low 19 bits. -/
theorem rankFromTheFragmentBits : Obligations.RankFromTheFragmentBits := by
  refine fun h => ⟨fun k hk hk' => rank_fragment_eq_iff hk hk' h, ?_⟩
  rw [rank_eq_twenty_iff, leadingZeros_fragment_iff le_rfl]
  simp

end

section
/-! The ADD command (41_update.md R135, R137): the register array after ADDs as the largest rank sent to each register, and the
commands that only wait for BUSY to fall. -/

namespace Sys2Proof.Machine

/-! ### Registers as maxima (R137) -/

/-- Raising a register to the same rank again changes nothing. -/
theorem Memory.raiseTo_raiseTo_same (mem : Memory) (p : PendingAdd) : (mem.raiseTo p).raiseTo p = mem.raiseTo p := by
  refine if_neg ?_
  rw [read_raiseTo]
  split
  · exact BitVec.lt_irrefl p.rank
  · next h => exact fun hlt => h ⟨rfl, hlt⟩

theorem addAll_wf (mem : Memory) (xs : List Word) (h : mem.wf = true) : (addAll mem xs).wf = true := by
  induction xs generalizing mem with
  | nil => exact h
  | cons x xs ih => exact ih _ (Memory.raiseTo_wf mem _ h)

/-- What the values added have to do with a register's value: an upper bound bounds the rank of each value that selects the
register, whatever the order and the repetition. -/
theorem read_addAll_le_iff (mem : Memory) (xs : List Word) (a n : Nat) : ((addAll mem xs).read a).toNat ≤ n ↔
    (mem.read a).toNat ≤ n ∧ ∀ x ∈ xs, addIndex x = a → addRank x ≤ n := by
  induction xs generalizing mem with
  | nil => simp [addAll_nil]
  | cons x xs ih =>
    rw [addAll_cons, ih, read_raise_pendingOf, List.forall_mem_cons]
    split
    · next ha => rw [max_le_iff, and_assoc, forall_prop_of_true ha.symm]
    · next ha => rw [forall_prop_of_false (Ne.symm ha), true_and]

theorem foldr_max_le_iff (l : List Nat) (n : Nat) : l.foldr max 0 ≤ n ↔ ∀ r ∈ l, r ≤ n :=
  ⟨fun h _ hr => (List.le_max_of_le' 0 hr le_rfl).trans h, List.max_le_of_forall_le l n⟩

theorem read_addAll_empty (xs : List Word) (a : Nat) :
    ((addAll [] xs).read a).toNat = ((xs.filter fun x => addIndex x = a).map addRank).foldr max 0 := by
  refine eq_of_forall_ge_iff fun n => ?_
  rw [read_addAll_le_iff, foldr_max_le_iff, List.forall_mem_map]
  simp [Memory.read]

theorem addAll_congr {xs ys : List Word} (h : ∀ x, x ∈ xs ↔ x ∈ ys) : addAll [] xs = addAll [] ys :=
  Memory.ext_of_read _ _ 0 (addAll_wf [] xs rfl) (addAll_wf [] ys rfl) fun a =>
    BitVec.eq_of_toNat_eq <| eq_of_forall_ge_iff fun n => by simp only [read_addAll_le_iff, h]

/-! ### The commands without a result (R42) -/

/-- A NOP or an ADD in flight only waits for BUSY to fall. -/
theorem endStep_silent {s : State} {i : Instr} {x : Word} (hi : i = .nop ∨ i = .add) (hp : s.phase = .running i x) :
    ∃ t, endStep s = .next t ∧ t.phase = (if s.draw.stillBusy then .running i x else .idle) ∧ t.arch = s.arch ∧
      t.script = s.script ∧ t.reads = s.reads := by
  by_cases hb : s.draw.stillBusy = true
  · exact ⟨_, endStep_stillBusy hb, by simp [hb, hp]⟩
  · have hp' : s.tick.phase = .running i x := (tick_phase s).trans hp
    have hf : finish s.tick = .next { s.tick with phase := .idle } := by
      obtain rfl | rfl := hi
      · exact finish_nop hp'
      · exact finish_add hp'
    refine ⟨_, (endStep_settles (Bool.eq_false_iff.2 hb)).trans hf, by simp [hb], tick_arch s, tick_script s, tick_reads s⟩

theorem onAccept_draw (i : Instr) (s : State) : (onAccept i s).draw = s.draw := by rw [State.draw, onAccept_draws, State.draw]

/-- An accepted ADD changes one register, as every later command sees it (R50, R135). -/
theorem onAccept_add_arch (s : State) :
    (onAccept .add s).arch = { s.arch with sketch := s.sketch.raiseTo (pendingOf s.arg) } := by
  simp [State.arch]

end Sys2Proof.Machine

open Sys2Proof Sys2Proof.Machine

/-- Settles O21: the acceptance raises the register its hash selects, and then the command only waits for BUSY to fall. -/
theorem addRaisesOneRegister : Obligations.AddRaisesOneRegister := by
  intro s hp hd
  obtain ⟨t, ht, hphase, harch, hscript, hreads⟩ := endStep_silent (.inr rfl) (onAccept_phase .add s)
  rw [onAccept_add_arch] at harch
  rw [onAccept_draw] at hphase
  have done : exec .add s = .next t := by rw [exec_add hp, if_pos ((inDomain_iff _).2 hd), ht]
  have hsketch : t.sketch = s.sketch.raiseTo (pendingOf s.arg) := congrArg Arch.sketch harch
  have hreg (a : Nat) : (t.reg a).toNat =
      if a = addIndex s.arg then max (s.reg a).toNat (addRank s.arg) else (s.reg a).toNat := by
    rw [State.reg_def, hsketch, read_raise_pendingOf, State.reg_def]
  refine ⟨t, done, hphase, by rw [hreg, if_pos rfl], fun a ha => BitVec.eq_of_toNat_eq (by rw [hreg, if_neg ha]),
    congrArg Arch.arg harch, congrArg Arch.result harch, congrArg Arch.rvalid harch, congrArg Arch.edom harch,
    congrArg Arch.errIll harch, congrArg Arch.errBusy harch, hscript.trans (onAccept_script .add s),
    hreads.trans (onAccept_reads .add s)⟩

/-- Settles O35: each register of the array is a maximum, and the array is determined by its registers. -/
theorem registersAreMaximaOverTheValuesAdded : Obligations.RegistersAreMaximaOverTheValuesAdded := by
  refine ⟨fun s t hp h => ?_, fun mem x => ?_, read_addAll_empty, fun xs ys => addAll_congr⟩
  · rw [exec_add hp] at h
    split at h
    · obtain ⟨hsketch, -⟩ := endStep_frame h (by simp)
      rw [hsketch, onAccept_sketch, if_pos rfl, addAll_cons, addAll_nil]
    · cases h
  · rw [addAll_cons, addAll_cons, addAll_cons, addAll_nil, addAll_nil, Memory.raiseTo_raiseTo_same]

end

section
/-! The EST command (42_estimate.md R150 to R152, R164, R165, R168): an EST that is done in its step leaves `est64` of the sum and the
count over all registers, and what the registers must hold for the two arrays of R167. -/

namespace Sys2Proof.Machine

/-! ### The sum and the count (R151, R152) -/

theorem le_specSum (mem : Memory) : 8192 ≤ specSum mem := by
  calc 8192 = ∑ _i ∈ Finset.range Config.m, 1 := by simp [Config.m, Config.W]
    _ ≤ specSum mem := Finset.sum_le_sum fun _ _ => Nat.one_le_two_pow

theorem specSum_le (mem : Memory) (h : mem.wf = true) : specSum mem ≤ 2 ^ 33 :=
  specSum_eq mem h ▸ sumIn_le 0 Config.m mem h

theorem specZeros_le (mem : Memory) (h : mem.wf = true) : specZeros mem ≤ 8192 :=
  specZeros_eq mem h ▸ zerosIn_le 0 Config.m mem

/-- S of an array that holds 1 everywhere. -/
theorem specSum_of_ones {mem : Memory} (h : ∀ a, a < 8192 → mem.read a = 1#8) : specSum mem = 2 ^ 32 := by
  calc specSum mem = ∑ _i ∈ Finset.range Config.m, 2 ^ 19 :=
        Finset.sum_congr rfl fun a ha => by rw [h a (Finset.mem_range.1 ha)]; rfl
    _ = 2 ^ 32 := by simp [Config.m, Config.W]

theorem specZeros_of_ones {mem : Memory} (h : ∀ a, a < 8192 → mem.read a = 1#8) : specZeros mem = 0 := by
  refine Finset.card_eq_zero.2 (Finset.filter_eq_empty_iff.2 fun a ha => ?_)
  rw [h a (Finset.mem_range.1 ha)]
  decide

section
variable {mem : Memory} {k : Nat} (hk : k < 8192) (h : ∀ a, a < 8192 → mem.read a = if a = k then 0#8 else 1#8)
include hk h

/-- S of an array that holds 1 everywhere but for one 0: that register adds another 2^19. -/
theorem specSum_of_one_zero : specSum mem = 2 ^ 20 + 8191 * 2 ^ 19 := by
  calc specSum mem = ∑ a ∈ Finset.range Config.m, (2 ^ 19 + if a = k then 2 ^ 19 else 0) :=
        Finset.sum_congr rfl fun a ha => by rw [h a (Finset.mem_range.1 ha)]; split <;> rfl
    _ = 8192 * 2 ^ 19 + 2 ^ 19 := by
      rw [Finset.sum_add_distrib, Finset.sum_ite_eq', if_pos (show k ∈ Finset.range Config.m from Finset.mem_range.2 hk)]
      simp [Config.m, Config.W]

theorem specZeros_of_one_zero : specZeros mem = 1 := by
  refine Finset.card_eq_one.2 ⟨k, Finset.ext fun a => ?_⟩
  rw [Finset.mem_filter, Finset.mem_range, Finset.mem_singleton]
  constructor
  · rintro ⟨ha, hr⟩
    by_contra hne
    rw [h a ha, if_neg hne] at hr
    cases hr
  · rintro rfl
    exact ⟨hk, by rw [h a hk, if_pos rfl]⟩

end

/-! ### An EST that is done in its step -/

/-- EST accepted by an idle core and completed by this step's draw (R164). -/
theorem exec_est_settles {s : State} {e : BitVec 64 × Bool} (hp : s.phase = .idle) (hd : s.settles)
    (hw : s.sketch.wf = true) (hdom : s.sketch.inDomain = true)
    (he : est64 (specSum s.sketch) (specZeros s.sketch) = e) :
    exec .est s = .next (completeEst e (onAccept .est s).tick) := by
  have hsk : (onAccept .est s).tick.sketch = s.sketch := by simp
  have hd' : (onAccept .est s).settles := (congrArg Draw.stillBusy (onAccept_draw .est s)).trans hd
  rw [exec_est hp, if_pos hdom, endStep_settles hd']
  exact finish_est_of_ok (x := s.arg) (c := Scan.start) (by simp) (hsk ▸ hw) (hsk ▸ hdom) (by simp) (start_ok _)
    (by rw [hsk, he])

end Sys2Proof.Machine

open Sys2Proof Sys2Proof.Machine

/-- Settles O39: the model's sum and count over a range are those of R151 and R152, so every scan ends with them. -/
theorem scanComputesSumAndZeros : Obligations.ScanComputesSumAndZeros := by
  intro mem h
  refine ⟨specSum_eq mem h, specZeros_eq mem h, le_specSum mem, specSum_le mem h, specZeros_le mem h, start_ok mem,
    fun c hc => ?_⟩
  obtain ⟨hsum, hzeros⟩ := complete_totals mem c h hc
  exact ⟨fun n => advance_ok n mem c h hc, Nat.min_eq_left (Nat.le_add_left _ _), hsum.trans (specSum_eq mem h),
    hzeros.trans (specZeros_eq mem h), complete_estimate h hc⟩

/-- Settles O23, by `exec_est_settles`: neither the acceptance nor the draw touches the other fields. -/
theorem estPutsTheEstimateInResult : Obligations.EstPutsTheEstimateInResult := by
  intro s h hp hd
  obtain ⟨e, he⟩ : ∃ e, est64 (specSum s.sketch) (specZeros s.sketch) = e := ⟨_, rfl⟩
  rw [he]
  exact ⟨_, exec_est_settles hp hd h.sketch_wf h.sketch_inDomain he, by simp, by simp, by simp, by simp, by simp,
    fun a => by simp [State.reg_def], by simp, by simp, by simp, by simp, by simp⟩

/-- Settles O24: by `exec_est_settles` both states complete with the estimate of the one register array. -/
theorem estDependsOnRegistersOnly : Obligations.EstDependsOnRegistersOnly := by
  intro s s' h h' hp hp' hd hd' hs
  obtain ⟨e, he⟩ : ∃ e, est64 (specSum s.sketch) (specZeros s.sketch) = e := ⟨_, rfl⟩
  exact ⟨_, _, exec_est_settles hp hd h.sketch_wf h.sketch_inDomain he,
    exec_est_settles hp' hd' h'.sketch_wf h'.sketch_inDomain (hs ▸ he), by simp, by simp, by simp, by simp, by simp, by simp⟩

/-- Settles O40, by running the computations of R153, R156 and R157. -/
theorem estimatorConstants : Obligations.EstimatorConstants := by
  unfold Obligations.EstimatorConstants
  decide +kernel

/-- Settles O48: the empty sketch meets `exec_est_settles`, and its S and Z are small enough to run `est64`. -/
theorem zeroStateEstimatesZero : Obligations.ZeroStateEstimatesZero := by
  refine ⟨rfl, rfl, by decide +kernel, by decide +kernel, fun s hs hp hd => ?_⟩
  have estimate : est64 (specSum s.sketch) (specZeros s.sketch) = (0#64, false) := by
    rw [hs, ← specSum_eq [] rfl, ← specZeros_eq [] rfl]
    decide +kernel
  exact ⟨_, exec_est_settles hp hd (by rw [hs]; rfl) (by rw [hs]; rfl) estimate, by simp, by simp, by simp⟩

/-- Settles O47: the edges by running `est64`; the two register arrays of R167 by their S and Z. -/
theorem estimateEdges : Obligations.EstimateEdges := by
  refine ⟨by decide +kernel, by decide +kernel, by decide +kernel, by decide +kernel, by decide +kernel, by decide +kernel,
    by decide +kernel, by decide +kernel, fun s hp hreg hrank => ?_⟩
  have hk : addIndex s.arg < 8192 := (hashIndex (hash32 s.arg)).isLt
  have selected : s.reg (addIndex s.arg) = 0#8 := by rw [hreg _ hk, if_pos rfl]
  obtain ⟨t, ht, -, hraised, hkept, -⟩ := addRaisesOneRegister s hp (by rw [selected]; decide)
  have ones : ∀ a, a < 8192 → t.reg a = 1#8 := by
    intro a ha
    by_cases hak : a = addIndex s.arg
    · subst hak
      exact BitVec.eq_of_toNat_eq (by rw [hraised, selected, hrank]; rfl)
    · rw [hkept a hak, hreg a ha, if_neg hak]
  refine ⟨?_, t, ht, ones, ?_⟩
  · rw [specSum_of_one_zero hk hreg, specZeros_of_one_zero hk hreg]
    decide +kernel
  · rw [specSum_of_ones ones, specZeros_of_ones ones]
    decide +kernel

end

section
/-! The raw estimate and the branches of R155 (42_estimate.md R153 to R162). A rounding moves a value that is not too small by at
most the 2^53rd part of it, and never past a representable value; so the binary64 comparisons of R161 fall at the sums that R162
names, and `trunc` of the raw estimate is the floor of the exact quotient. -/

namespace Sys2Proof.Machine

/-! ### One rounding, relative to the exact value -/

theorem exactRatio_eq (neg : Bool) (n d : ℕ) : exactRatio neg n d = signFactor neg * (n / d) := by
  cases neg <;> simp [exactRatio, signFactor, neg_div]

theorem abs_exactRatio (neg : Bool) (n d : ℕ) : |exactRatio neg n d| = n / d := by
  rw [exactRatio_eq, abs_mul, abs_signFactor, one_mul, abs_of_nonneg (by positivity)]

theorem numerator_ne_zero {neg : Bool} {n d : ℕ} (low : 1 / 2 ^ 200 ≤ |exactRatio neg n d|) : n ≠ 0 := by
  rintro rfl
  rw [abs_exactRatio] at low
  norm_num at low

section
variable {neg : Bool} {n d : ℕ} (hd : 0 < d) (low : 1 / 2 ^ 200 ≤ |exactRatio neg n d|)
include hd low

/-- Well above the subnormals, the last place is the 53rd binary digit. -/
theorem lastPlace_of_not_small : lastPlace n d = ratioExponent n d - 52 := by
  have high := (ratioExponent_spec (numerator_ne_zero low) hd.ne').2
  rw [abs_exactRatio] at low
  have : (2 : ℚ) ^ (-200 : ℤ) < 2 ^ (ratioExponent n d + 1) := lt_of_le_of_lt (by norm_num) (low.trans_lt high)
  have := (zpow_lt_zpow_iff_right₀ (one_lt_two : (1 : ℚ) < 2)).1 this
  rw [lastPlace]
  omega

/-- Half a unit of the last place is at most the 2^53rd part of the value. -/
theorem half_lastPlace_le : (2 : ℚ) ^ lastPlace n d * (1 / 2) ≤ n / d / 2 ^ 53 := by
  have h := (ratioExponent_spec (numerator_ne_zero low) hd.ne').1
  rw [lastPlace_of_not_small hd low, zpow_sub₀ two_ne_zero]
  calc (2 : ℚ) ^ ratioExponent n d / 2 ^ (52 : ℤ) * (1 / 2) = 2 ^ ratioExponent n d / 2 ^ 53 := by
        rw [div_mul_div_comm, mul_one]; norm_num
    _ ≤ n / d / 2 ^ 53 := by gcongr

/-- `fl64` is off by at most the 2^53rd part of the exact value. -/
theorem fl64_close : |(fl64 neg n d).value - exactRatio neg n d| ≤ |exactRatio neg n d| / 2 ^ 53 := by
  have unit : (0 : ℚ) < 2 ^ lastPlace n d := by positivity
  have half := significand_half n hd
  calc |(fl64 neg n d).value - exactRatio neg n d|
      = |(2 : ℚ) ^ lastPlace n d * (significand n d - n / d / 2 ^ lastPlace n d)| := by
        rw [fl64_value (numerator_ne_zero low), exactRatio_eq, mul_assoc, ← mul_sub, abs_mul, abs_signFactor, one_mul,
          mul_sub, mul_div_cancel₀ _ unit.ne', mul_comm (significand n d : ℚ)]
    _ ≤ 2 ^ lastPlace n d * (1 / 2) := by rw [abs_mul, abs_of_pos unit]; gcongr
    _ ≤ n / d / 2 ^ 53 := half_lastPlace_le hd low
    _ = |exactRatio neg n d| / 2 ^ 53 := by rw [abs_exactRatio]

end

/-- The normal values, for which the logarithm is accurate. -/
structure F64.Normal (x : F64) : Prop where
  low : 2 ^ 52 ≤ x.man
  high : x.man < 2 ^ 53
  expLow : -1074 ≤ x.exp
  expHigh : x.exp ≤ 971

theorem fl64_normal {neg : Bool} {n d : ℕ} (hd : 0 < d) (low : 1 / 2 ^ 200 ≤ |exactRatio neg n d|)
    (high : |exactRatio neg n d| < 2 ^ 200) : (fl64 neg n d).Normal := by
  have hn := numerator_ne_zero low
  have hlast := lastPlace_of_not_small hd low
  obtain ⟨hman, hexp⟩ := fl64_representable neg n hd
  have spec := (ratioExponent_spec hn hd.ne').1
  have top : ratioExponent n d < 200 := by
    rw [abs_exactRatio] at high
    exact (zpow_lt_zpow_iff_right₀ (one_lt_two : (1 : ℚ) < 2)).1 (spec.trans_lt (high.trans_eq (by norm_num)))
  have full : 2 ^ 52 ≤ significand n d := by
    have quotient : (2 : ℚ) ^ 52 ≤ n / d / 2 ^ lastPlace n d := by
      rw [le_div_iff₀ (by positivity), hlast, ← zpow_natCast, ← zpow_add₀ two_ne_zero]
      simpa using spec
    have half := (abs_le.1 (significand_half n hd)).1
    have : (2 : ℚ) ^ 52 < significand n d + 1 := by linarith
    exact Nat.lt_succ_iff.1 (by exact_mod_cast this)
  refine ⟨?_, hman, hexp, ?_⟩
  · rw [fl64_of_significand hn]
    split_ifs
    · exact le_rfl
    · exact full
  · rw [fl64_of_significand hn]
    split_ifs
    · simp only; omega
    · simp only; omega

/-! ### The operators -/

theorem exactRatio_mul (x y : F64) :
    exactRatio (x.neg ^^ y.neg) (x.num * y.num) (x.den * y.den) = x.value * y.value := by
  rw [x.value_eq_ratio, y.value_eq_ratio]
  cases x.neg <;> cases y.neg <;> simp [exactRatio, div_mul_div_comm, neg_div]

theorem F64.num_pos_of_value_ne_zero {x : F64} (h : x.value ≠ 0) : 0 < x.num :=
  Nat.pos_of_ne_zero fun h0 => h (by simp [F64.value, F64.signedNum, h0])

theorem F64.neg_eq_false_of_pos {x : F64} (h : 0 < x.value) : x.neg = false := by
  by_contra hn
  rw [Bool.not_eq_false] at hn
  rw [x.value_eq_ratio, hn, exactRatio, if_pos rfl] at h
  exact absurd h (not_lt.2 (div_nonpos_of_nonpos_of_nonneg (by simp) (by positivity)))

section
variable {x y : F64}

theorem F64.mul_close (low : 1 / 2 ^ 200 ≤ |x.value * y.value|) :
    |(x.mul y).value - x.value * y.value| ≤ |x.value * y.value| / 2 ^ 53 := by
  rw [← exactRatio_mul] at low ⊢
  exact fl64_close (Nat.mul_pos x.den_pos y.den_pos) low

theorem F64.div_close (hy : y.value ≠ 0) (low : 1 / 2 ^ 200 ≤ |x.value / y.value|) :
    |(x.div y).value - x.value / y.value| ≤ |x.value / y.value| / 2 ^ 53 := by
  rw [← exactRatio_div] at low ⊢
  exact fl64_close (Nat.mul_pos x.den_pos (num_pos_of_value_ne_zero hy)) low

theorem F64.div_normal (hy : y.value ≠ 0) (low : 1 / 2 ^ 200 ≤ |x.value / y.value|) (high : |x.value / y.value| < 2 ^ 200) :
    (x.div y).Normal := by
  rw [← exactRatio_div] at low high
  exact fl64_normal (Nat.mul_pos x.den_pos (num_pos_of_value_ne_zero hy)) low high

theorem exactRatio_sub (x y : F64) : exactRatio (x.sumNum y.negate < 0) (x.sumNum y.negate).natAbs (x.den * y.negate.den) =
    x.value - y.value := by
  rw [exactRatio_add, F64.negate_value, sub_eq_add_neg]

theorem F64.sub_close (low : 1 / 2 ^ 200 ≤ |x.value - y.value|) :
    |(x.sub y).value - (x.value - y.value)| ≤ |x.value - y.value| / 2 ^ 53 := by
  rw [← exactRatio_sub] at low ⊢
  exact fl64_close (Nat.mul_pos x.den_pos y.negate.den_pos) low

theorem F64.sub_normal (low : 1 / 2 ^ 200 ≤ |x.value - y.value|) (high : |x.value - y.value| < 2 ^ 200) :
    (x.sub y).Normal := by
  rw [← exactRatio_sub] at low high
  exact fl64_normal (Nat.mul_pos x.den_pos y.negate.den_pos) low high

theorem F64.le_div_value {z : F64} (hz : z.representable) (hy : y.value ≠ 0) (h : z.value ≤ x.value / y.value) :
    z.value ≤ (x.div y).value :=
  le_fl64_of_le_exact hz (Nat.mul_pos x.den_pos (num_pos_of_value_ne_zero hy)) (exactRatio_div x y ▸ h)

theorem F64.sub_value_le {z : F64} (hz : z.representable) (h : x.value - y.value ≤ z.value) : (x.sub y).value ≤ z.value :=
  fl64_le_of_exact_le hz (Nat.mul_pos x.den_pos y.negate.den_pos) ((exactRatio_sub x y).trans_le h)

end

/-- A representable value is not rounded. -/
theorem fl64_exact {y : F64} (hy : y.representable) {neg : Bool} {n d : ℕ} (hd : 0 < d) (h : exactRatio neg n d = y.value) :
    (fl64 neg n d).value = y.value :=
  le_antisymm (fl64_le_of_exact_le hy hd h.le) (le_fl64_of_le_exact hy hd h.ge)

/-- `trunc` is the floor of the magnitude. -/
theorem F64.trunc_eq_iff (x : F64) (k : ℕ) : x.trunc = k ↔ (k : ℚ) ≤ |x.value| ∧ |x.value| < k + 1 := by
  have hd : (0 : ℚ) < x.den := by exact_mod_cast x.den_pos
  rw [x.value_eq_ratio, abs_exactRatio, le_div_iff₀ hd, div_lt_iff₀ hd, F64.trunc, Nat.div_eq_iff x.den_pos]
  norm_cast
  rw [add_mul, one_mul]
  have := x.den_pos
  omega

/-! ### The raw estimate -/

theorem sum64_value {S : ℕ} (h : S < 2 ^ 53) : (sum64 S).value = S / 2 ^ 20 := by
  have hy : (F64.mk false S (-20)).representable := ⟨h, by norm_num⟩
  have value : (F64.mk false S (-20)).value = S / 2 ^ 20 := by rw [F64.value_mk]; rfl
  refine (fl64_exact hy (by positivity) ?_).trans value
  rw [value, exactRatio]
  norm_num

/-- The exact raw estimate, `A64 · 2^RMAX / S` (R154). -/
def rawQuotient (S : ℕ) : ℚ := estNumerator / (128 * S)

theorem rawQuotient_antitone {S T : ℕ} (hS : 0 < S) (h : S ≤ T) : rawQuotient T ≤ rawQuotient S := by
  unfold rawQuotient
  gcongr

section
variable {S : ℕ} (hS : 0 < S) (hS' : S ≤ 2 ^ 33)
include hS

theorem rawQuotient_pos : 0 < rawQuotient S := by
  have : (0 : ℚ) < estNumerator := by norm_num [estNumerator]
  unfold rawQuotient
  positivity

include hS'

theorem sum64_value_ne_zero : (sum64 S).value ≠ 0 := by
  rw [sum64_value (hS'.trans_lt (by norm_num))]
  positivity

/-- What `raw64` rounds. -/
theorem raw64_exact : ((alpha64.mul (F64.ofNat Config.m)).mul (F64.ofNat Config.m)).value / (sum64 S).value = rawQuotient S := by
  have : (S : ℚ) ≠ 0 := by positivity
  rw [estNumerator_eq, F64.value_mk, sum64_value (hS'.trans_lt (by norm_num)), rawQuotient]
  field_simp
  norm_num

theorem raw64_le_of_le {z : F64} (hz : z.representable) (h : rawQuotient S ≤ z.value) : (raw64 S).value ≤ z.value := by
  refine F64.div_value_le hz ((sum64_value_ne_zero hS hS').symm.lt_of_le ?_) ((raw64_exact hS hS').trans_le h)
  rw [sum64_value (hS'.trans_lt (by norm_num))]
  positivity

theorem le_raw64_of_le {z : F64} (hz : z.representable) (h : z.value ≤ rawQuotient S) : z.value ≤ (raw64 S).value :=
  F64.le_div_value hz (sum64_value_ne_zero hS hS') (h.trans_eq (raw64_exact hS hS').symm)

theorem one_le_rawQuotient : 1 ≤ rawQuotient S := by
  refine le_trans ?_ (rawQuotient_antitone hS hS')
  norm_num [rawQuotient, estNumerator]

theorem raw64_close : |(raw64 S).value - rawQuotient S| ≤ rawQuotient S / 2 ^ 53 := by
  have low := one_le_rawQuotient hS hS'
  have size : |rawQuotient S| = rawQuotient S := abs_of_pos (rawQuotient_pos hS)
  have h := F64.div_close (sum64_value_ne_zero hS hS') (x := (alpha64.mul (F64.ofNat Config.m)).mul (F64.ofNat Config.m))
    (by rw [raw64_exact hS hS', size]; exact le_trans (by norm_num) low)
  rwa [raw64_exact hS hS', size] at h

/-- R162 (b): the numerator is below 2^53, so rounding cannot carry the quotient up to the next integer. -/
theorem raw64_trunc : (raw64 S).trunc = estNumerator / (128 * S) := by
  obtain ⟨k, hk⟩ : ∃ k, estNumerator / (128 * S) = k := ⟨_, rfl⟩
  have hS0 : (0 : ℚ) < 128 * S := by positivity
  have hlow : k * (128 * S) ≤ estNumerator := hk ▸ Nat.div_mul_le_self _ _
  have hhigh : estNumerator + 1 ≤ (k + 1) * (128 * S) := hk ▸ Nat.lt_mul_of_div_lt (Nat.lt_succ_self _) (by positivity)
  have low : (k : ℚ) ≤ rawQuotient S := by
    rw [rawQuotient, le_div_iff₀ hS0]
    exact_mod_cast hlow
  have high : rawQuotient S + 1 / (128 * S) ≤ k + 1 := by
    rw [rawQuotient, ← add_div, div_le_iff₀ hS0]
    exact_mod_cast hhigh
  have below : rawQuotient S / 2 ^ 53 < 1 / (128 * S) := by
    rw [rawQuotient, div_right_comm]
    gcongr
    norm_num [estNumerator]
  have integer : (F64.mk false k 0).representable := by
    refine ⟨lt_of_le_of_lt ?_ (by norm_num [estNumerator] : estNumerator < 2 ^ 53), by norm_num⟩
    exact hk ▸ Nat.div_le_self _ _
  have value : (F64.mk false k 0).value = k := by simp [F64.value_mk]
  have floor : (k : ℚ) ≤ (raw64 S).value := value ▸ le_raw64_of_le hS hS' integer (value ▸ low)
  have close := (abs_le.1 (raw64_close hS hS')).2
  rw [hk, F64.trunc_eq_iff, abs_of_nonneg (k.cast_nonneg.trans floor)]
  exact ⟨floor, by linarith⟩

/-! ### The branches (R155, R162) -/

/-- A binary64 limit `c` and its successor `c'` with the exact raw estimates of two neighbouring sums around them. -/
theorem raw64_le_iff {s : ℕ} {c c' : F64} (hc : c.representable) (hc' : c'.representable)
    (hlt : c.value < c'.value) (above : c'.value ≤ rawQuotient s) (below : rawQuotient (s + 1) ≤ c.value) :
    (raw64 S).le c = true ↔ s + 1 ≤ S := by
  rw [F64.le_iff]
  constructor
  · intro h
    by_contra hlow
    have := le_raw64_of_le hS hS' hc' (above.trans (rawQuotient_antitone hS (by omega)))
    linarith
  · intro h
    exact raw64_le_of_le hS hS' hc ((rawQuotient_antitone (Nat.succ_pos s) h).trans below)

theorem raw64_le_smallLimit_iff : (raw64 S).le smallLimit = true ↔ 2478041537 ≤ S := by
  rw [show smallLimit = ⟨false, 5629499534213120, -38⟩ by decide +kernel]
  refine raw64_le_iff hS hS' (s := 2478041536) (c' := ⟨false, 5629499534213121, -38⟩) ?_ ?_ ?_ ?_ ?_ <;>
    norm_num [F64.representable, F64.value_mk, rawQuotient, estNumerator]

theorem raw64_le_largeLimit_iff : (raw64 S).le largeLimit = true ↔ 354487 ≤ S := by
  rw [show largeLimit = ⟨false, 4803839602528529, -25⟩ by decide +kernel]
  refine raw64_le_iff hS hS' (s := 354486) (c' := ⟨false, 4803839602528530, -25⟩) ?_ ?_ ?_ ?_ ?_ <;>
    norm_num [F64.representable, F64.value_mk, rawQuotient, estNumerator]

/-- R160: up to S = 11816 the raw estimate is at least 2^32, so the argument of the logarithm is at most 0. -/
theorem largeArgument_le_zero (h : S ≤ 11816) : (largeArgument (raw64 S)).le (F64.ofNat 0) = true := by
  have full : (F64.mk false 1 32).representable := by norm_num [F64.representable]
  have one : (F64.mk false 1 0).representable := by norm_num [F64.representable]
  have zero : (F64.mk false 0 0).representable := by norm_num [F64.representable]
  have raw : (2 : ℚ) ^ 32 ≤ (raw64 S).value := by
    have := le_raw64_of_le hS hS' full (le_trans (by norm_num [F64.value_mk, rawQuotient, estNumerator])
      (rawQuotient_antitone hS h))
    rwa [F64.value_mk, Nat.cast_one, one_mul] at this
  have quotient : 1 ≤ ((raw64 S).div (F64.ofNat (2 ^ 32))).value := by
    refine le_of_eq_of_le (by simp [F64.value_mk]) (F64.le_div_value one ?_ ?_)
    · rw [ofNat_two_pow_32_value]; norm_num
    · rw [ofNat_two_pow_32_value, F64.value_mk, le_div_iff₀ (by norm_num)]
      simpa using raw
  rw [F64.le_iff, show F64.ofNat 0 = ⟨false, 0, 0⟩ from fl64_zero _ _]
  refine F64.sub_value_le zero ?_
  rw [ofNat_one_value]
  simpa [F64.value_mk] using quotient

end

/-! ### `est64` in each branch -/

section
variable {S Z : ℕ}

theorem est64_small (h : 2478041537 ≤ S) (hS : S ≤ 2 ^ 33) (hZ : 0 < Z) : est64 S Z = estimated (linearCounting Z) := by
  have small := (raw64_le_smallLimit_iff (by omega) hS).2 h
  simp only [est64, small, if_true, if_pos hZ]

theorem est64_raw (low : 354487 ≤ S) (hS : S ≤ 2 ^ 33) (h : S ≤ 2478041536 ∨ Z = 0) : est64 S Z = estimated (raw64 S) := by
  have large := (raw64_le_largeLimit_iff (by omega) hS).2 low
  by_cases small : (raw64 S).le smallLimit = true
  · have hZ : Z = 0 := h.resolve_left (by have := (raw64_le_smallLimit_iff (by omega) hS).1 small; omega)
    simp [est64, small, hZ]
  · simp [est64, small, large]

theorem est64_large (low : 11817 ≤ S) (high : S ≤ 354486) :
    est64 S Z = estimated (largeCorrection (largeArgument (raw64 S))) := by
  have hS : S ≤ 2 ^ 33 := high.trans (by norm_num)
  have small : ¬(raw64 S).le smallLimit = true := by rw [raw64_le_smallLimit_iff (by omega) hS]; omega
  have large : ¬(raw64 S).le largeLimit = true := by rw [raw64_le_largeLimit_iff (by omega) hS]; omega
  have argument : ¬(largeArgument (raw64 S)).le (F64.ofNat 0) = true := by
    rw [F64.le_iff, show F64.ofNat 0 = ⟨false, 0, 0⟩ from fl64_zero _ _, F64.value_mk, Nat.cast_zero, zero_mul, not_le]
    exact largeArgument_value_pos low
  simp only [est64, small, large, argument, if_false, Bool.not_false, if_true, Bool.false_eq_true]

theorem est64_domain (low : 0 < S) (high : S ≤ 11816) : est64 S Z = (BitVec.allOnes 64, true) := by
  have hS : S ≤ 2 ^ 33 := high.trans (by norm_num)
  have small : ¬(raw64 S).le smallLimit = true := by rw [raw64_le_smallLimit_iff low hS]; omega
  have large : ¬(raw64 S).le largeLimit = true := by rw [raw64_le_largeLimit_iff low hS]; omega
  simp [est64, small, large, largeArgument_le_zero low hS high]

end

end Sys2Proof.Machine

open Sys2Proof.Machine

/-- Settles O43: the branches that keep the raw estimate, and its `trunc`. -/
theorem rawEstimateIsExactFloor : Obligations.RawEstimateIsExactFloor := by
  intro S Z low hS h
  rw [est64_raw low hS h, estimated, raw64_trunc (by omega) hS]

/-- Settles O46: up to S = 11816 by `est64_domain`, and beyond by `le_of_est64_domain_error`. -/
theorem domainErrorExactlyUpTo11816 : Obligations.DomainErrorExactlyUpTo11816 := by
  intro S Z low hS
  refine ⟨⟨le_of_est64_domain_error, fun h => ?_⟩, fun h => ?_⟩
  · rw [est64_domain (by omega) h]
  · rw [est64_domain (by omega) h]
    rfl

end

section
/-! Logarithms in fixed point, from below, for many arguments in turn: what the exhaustive checks behind R162 (c) and (d) evaluate.
The first logarithm of a run is computed by itself; from each argument to the next one below it only a short series is added.
The functions that the kernel evaluates thousands of times are written with `Nat.add`, `Nat.mul`, … and `Nat.rec`, which it
reduces fastest; an equation says what each is. -/

namespace Sys2Proof.Machine

/-! ### Rules for approximations from below -/

theorem BelowBy.error_nonneg {e x : ℝ} {v : ℕ} (h : BelowBy e v x) : 0 ≤ e := by linarith [h.1, h.2]

theorem BelowBy.add {e e' x y : ℝ} {v w : ℕ} (h : BelowBy e v x) (h' : BelowBy e' w y) :
    BelowBy (e + e') (v + w) (x + y) := by
  constructor
  · push_cast; linarith [h.1, h'.1]
  · push_cast; linarith [h.2, h'.2]

theorem BelowBy.refl (v : ℕ) : BelowBy 0 v v := by simp [BelowBy]

/-! ### One logarithm -/

/-- `2^lnBits · ln(p/q)` for `0 < q ≤ p`: the binary exponent of the ratio and the series of the rest. -/
def logRatio (p q : ℕ) : ℕ :=
  let e := (p / q).log2
  e * twoAtanh 1 3 + twoAtanh (p - q * 2 ^ e) (p + q * 2 ^ e)

theorem logRatio_belowBy {p q : ℕ} (hq : 0 < q) (hqp : q ≤ p) (hp : p < q * 2 ^ 15) :
    BelowBy (2 ^ 14) (logRatio p q) (2 ^ lnBits * Real.log (p / q)) := by
  obtain ⟨e, he⟩ : ∃ e, (p / q).log2 = e := ⟨_, rfl⟩
  have hpos : 0 < p / q := Nat.div_pos hqp hq
  obtain ⟨low, high⟩ := (Nat.log2_eq_iff hpos.ne').1 he
  have hlow : q * 2 ^ e ≤ p := by rw [mul_comm]; exact (Nat.le_div_iff_mul_le hq).1 low
  have hhigh : p ≤ 2 * (q * 2 ^ e) := by
    have := (Nat.div_lt_iff_lt_mul hq).1 high
    rw [pow_succ] at this
    linarith
  have he14 : e ≤ 14 := by
    have : p / q < 2 ^ 15 := Nat.div_lt_of_lt_mul hp
    exact Nat.lt_succ_iff.1 (he ▸ (Nat.log2_lt hpos.ne').2 this)
  have rest := twoAtanh_belowBy (a := p - q * 2 ^ e) (b := p + q * 2 ^ e) (by omega) (by omega)
  have whole := ((BelowBy.refl e).mul twoAtanh_log_two).add rest
  have hq' : (0 : ℝ) < q := by exact_mod_cast hq
  have hp' : (0 : ℝ) < p := by exact_mod_cast hq.trans_le hqp
  have ratio : ((p + q * 2 ^ e : ℕ) + (p - q * 2 ^ e : ℕ) : ℝ) / ((p + q * 2 ^ e : ℕ) - (p - q * 2 ^ e : ℕ)) = p / q / 2 ^ e := by
    rw [Nat.cast_sub hlow]
    push_cast
    field_simp
    ring
  have split : Real.log (p / q) = e * Real.log 2 + Real.log (p / q / 2 ^ e) := by
    rw [Real.log_div (x := (p : ℝ) / q) (by positivity) (by positivity), Real.log_pow]
    ring
  have he' : (e : ℝ) ≤ 14 := by exact_mod_cast he14
  rw [ratio] at rest whole
  rw [logRatio, he, split]
  convert whole.mono (e' := 2 ^ 14) (by linarith) using 1
  ring

/-! ### The step from one logarithm to the next -/

/-- The unit in which `logIncrement` holds half the logarithm, so that the sum of its series is the logarithm in units
`2^(-lnBits)`. -/
def seriesUnit : ℕ := 2 ^ (lnBits + 1)

/-- `2^lnBits · ln((b+a)/(b-a))` by three terms of the series of artanh. -/
def logIncrement (a b : ℕ) : ℕ :=
  let z := Nat.div (Nat.mul a seriesUnit) b
  let s := Nat.mul z z
  let c := Nat.mul 15 (Nat.pow seriesUnit 4)
  Nat.div (Nat.mul z (Nat.add c (Nat.mul s (Nat.add (Nat.mul 5 (Nat.pow seriesUnit 2)) (Nat.mul 3 s))))) c

theorem logIncrement_eq {a b z : ℕ} (hz : a * seriesUnit / b = z) : logIncrement a b =
    z * (15 * seriesUnit ^ 4 + z * z * (5 * seriesUnit ^ 2 + 3 * (z * z))) / (15 * seriesUnit ^ 4) := by
  subst hz
  rfl

/-- Three terms of the series of artanh. -/
noncomputable def artanh3 (t : ℝ) : ℝ := t + t ^ 3 / 3 + t ^ 5 / 5

theorem artanh3_eq_sum (t : ℝ) : artanh3 t = ∑ i ∈ Finset.range 3, t ^ (2 * i + 1) / (2 * i + 1) := by
  simp only [artanh3, Finset.sum_range_succ, Finset.sum_range_zero]
  norm_num

/-- Up to 1 the three terms grow at most three times as fast as their argument. -/
theorem artanh3_sub_le {t y : ℝ} (ht : 0 ≤ t) (hty : t ≤ y) (hy : y ≤ 1) :
    artanh3 t ≤ artanh3 y ∧ artanh3 y ≤ artanh3 t + 3 * (y - t) := by
  have hy0 : 0 ≤ y := ht.trans hty
  have le_one (i j : ℕ) : y ^ i * t ^ j ≤ 1 :=
    mul_le_one₀ (pow_le_one₀ hy0 hy) (by positivity) (pow_le_one₀ ht (hty.trans hy))
  obtain ⟨c, hc⟩ : ∃ c, c = 1 + (y ^ 2 * t ^ 0 + y ^ 1 * t ^ 1 + y ^ 0 * t ^ 2) / 3 +
      (y ^ 4 * t ^ 0 + y ^ 3 * t ^ 1 + y ^ 2 * t ^ 2 + y ^ 1 * t ^ 3 + y ^ 0 * t ^ 4) / 5 := ⟨_, rfl⟩
  have factor : artanh3 y - artanh3 t = (y - t) * c := by
    rw [hc, artanh3, artanh3]
    ring
  have hc0 : 0 ≤ c := by rw [hc]; positivity
  have hc3 : c ≤ 3 := by
    linarith [le_one 2 0, le_one 1 1, le_one 0 2, le_one 4 0, le_one 3 1, le_one 2 2, le_one 1 3, le_one 0 4]
  have hyt := sub_nonneg.2 hty
  constructor
  · linarith [mul_nonneg hyt hc0]
  · linarith [mul_le_mul_of_nonneg_left hc3 hyt]

/-- Between three terms of the series and the logarithm lie the terms from the seventh power on. -/
theorem artanh3_log_bounds {y : ℝ} (hy0 : 0 ≤ y) (hy3 : y ≤ 1 / 3) : artanh3 y ≤ 1 / 2 * Real.log ((1 + y) / (1 - y)) ∧
    1 / 2 * Real.log ((1 + y) / (1 - y)) ≤ artanh3 y + 9 / 8 * y ^ 7 := by
  have lower := Real.sum_range_le_log_div hy0 (by linarith) 3
  have upper := Real.log_div_le_sum_range_add hy0 (by linarith) 3
  rw [← artanh3_eq_sum] at lower upper
  have tail : y ^ (2 * 3 + 1) / (1 - y ^ 2) ≤ 9 / 8 * y ^ 7 := by
    have square : y ^ 2 ≤ 1 / 9 := (pow_le_pow_left₀ hy0 hy3 2).trans_eq (by norm_num)
    rw [div_le_iff₀ (by linarith)]
    calc y ^ (2 * 3 + 1) = 9 / 8 * y ^ 7 * (8 / 9) := by ring
      _ ≤ 9 / 8 * y ^ 7 * (1 - y ^ 2) := by gcongr; linarith
  exact ⟨lower, by linarith⟩

/-- The divisions lose four units at most: three in the argument, one at the end. -/
theorem logIncrement_belowBy_artanh3 {a b : ℕ} (hb : 0 < b) (hab : a ≤ b) :
    BelowBy (1 + 3) (logIncrement a b) (seriesUnit * artanh3 (a / b)) := by
  have hU : (0 : ℝ) < seriesUnit := by norm_num [seriesUnit]
  obtain ⟨z, hz⟩ : ∃ z, a * seriesUnit / b = z := ⟨_, rfl⟩
  obtain ⟨zlow, zhigh⟩ : BelowBy 1 z (seriesUnit * (a / b)) := by
    have h := (BelowBy.refl (a * seriesUnit)).div hb
    rw [hz] at h
    convert h using 1
    · simp
    · push_cast; ring
  have series : BelowBy 1 (logIncrement a b) (seriesUnit * artanh3 (z / seriesUnit)) := by
    rw [logIncrement_eq hz]
    have denominator : 0 < 15 * seriesUnit ^ 4 := by exact_mod_cast (by positivity : (0 : ℝ) < 15 * seriesUnit ^ 4)
    convert (BelowBy.refl _).div denominator using 1
    · simp
    · rw [artanh3]
      push_cast
      field_simp
      ring
  have below : z / seriesUnit ≤ (a / b : ℝ) := by rwa [div_le_iff₀' hU]
  have small : (a / b : ℝ) ≤ 1 := div_le_one_of_le₀ (by exact_mod_cast hab) (Nat.cast_nonneg _)
  obtain ⟨grows, slowly⟩ := artanh3_sub_le (by positivity) below small
  have truncation : (seriesUnit : ℝ) * (a / b - z / seriesUnit) ≤ 1 := by
    rw [mul_sub, mul_div_cancel₀ _ hU.ne']
    linarith
  refine series.trans (by gcongr) ?_
  calc (seriesUnit : ℝ) * artanh3 (a / b) ≤ seriesUnit * (artanh3 (z / seriesUnit) + 3 * (a / b - z / seriesUnit)) := by gcongr
    _ ≤ seriesUnit * artanh3 (z / seriesUnit) + 3 := by linarith

theorem logIncrement_belowBy {a b : ℕ} (hb : 0 < b) (hab : 3 * a ≤ b) :
    BelowBy (4 + 9 / 4 * 2 ^ lnBits * (a / b : ℝ) ^ 7) (logIncrement a b)
      (2 ^ lnBits * Real.log ((b + a) / (b - a))) := by
  have hb' : (0 : ℝ) < b := by exact_mod_cast hb
  have series := logIncrement_belowBy_artanh3 hb (by omega : a ≤ b)
  have third : (a / b : ℝ) ≤ 1 / 3 := by
    rw [div_le_div_iff₀ hb' three_pos]
    exact_mod_cast (by omega)
  obtain ⟨lower, upper⟩ := artanh3_log_bounds (by positivity) third
  have ratio : ((b : ℝ) + a) / (b - a) = (1 + a / b) / (1 - a / b) := by field_simp
  have unit : (2 : ℝ) ^ lnBits = seriesUnit * (1 / 2) := by rw [seriesUnit, pow_succ]; push_cast; ring
  rw [ratio, unit, mul_assoc (seriesUnit : ℝ)]
  refine (series.trans (e' := seriesUnit * (9 / 8 * (a / b : ℝ) ^ 7)) (by gcongr) ?_).mono (le_of_eq (by ring))
  rw [← mul_add]
  gcongr

/-! ### Values well inside the gap between two multiples of a unit -/

/-- `x` is at least `δ` away from every multiple of `unit`. -/
def Clear (unit : ℕ) (δ x : ℝ) : Prop := ∃ k : ℕ, k * (unit : ℝ) + δ ≤ x ∧ x ≤ (k + 1) * (unit : ℝ) - δ

theorem Clear.mono {unit : ℕ} {δ δ' x : ℝ} (h : Clear unit δ x) (hδ : δ' ≤ δ) : Clear unit δ' x := by
  obtain ⟨k, low, high⟩ := h
  exact ⟨k, by linarith, by linarith⟩

/-- The check on the approximation. -/
def clearOf (unit margin v : ℕ) : Bool := Nat.ble (Nat.mul 2 margin) (Nat.mod (Nat.add v margin) unit)

theorem BelowBy.clear {unit margin v : ℕ} {e x : ℝ} (h : BelowBy e v x) (hu : 0 < unit) (hv : clearOf unit margin v = true) :
    Clear unit (margin - e) x := by
  obtain ⟨low, high⟩ := h
  have hv : 2 * margin ≤ (v + margin) % unit := Nat.le_of_ble_eq_true hv
  have hlt : (v + margin) % unit < unit := Nat.mod_lt _ hu
  have parts : (v + margin) / unit * unit + (v + margin) % unit = v + margin := Nat.div_add_mod' _ _
  generalize (v + margin) / unit = k at parts
  generalize (v + margin) % unit = r at parts hv hlt
  have parts' : (k : ℝ) * unit + r = v + margin := by exact_mod_cast parts
  have hv' : 2 * (margin : ℝ) ≤ r := by exact_mod_cast hv
  have hlt' : (r : ℝ) ≤ unit := by exact_mod_cast hlt.le
  exact ⟨k, by linarith, by linarith⟩

/-! ### Runs of arguments -/

/-- From an approximation for the argument `lo + n`, check those for `lo + n - 1` down to `lo`. -/
def walkDown (a : ℕ) (b : ℕ → ℕ) (unit margin lo n : ℕ) : ℕ → Bool :=
  Nat.rec (fun _ => true) (fun n rest v =>
    let w := Nat.add v (logIncrement a (b (Nat.add lo n)))
    and (clearOf unit margin w) (rest w)) n

theorem walkDown_succ {a : ℕ} {b : ℕ → ℕ} {unit margin lo n v w : ℕ} (hw : v + logIncrement a (b (lo + n)) = w) :
    walkDown a b unit margin lo (n + 1) v = (clearOf unit margin w && walkDown a b unit margin lo n w) := by
  subst hw
  rfl

theorem walkDown_clear {F : ℕ → ℝ} {a : ℕ} {b : ℕ → ℕ} {unit margin lo : ℕ} {e : ℝ} (hu : 0 < unit)
    (increment : ∀ i, lo ≤ i → BelowBy e (logIncrement a (b i)) (F i - F (i + 1))) {n v : ℕ} {e₀ : ℝ}
    (start : BelowBy e₀ v (F (lo + n))) (checked : walkDown a b unit margin lo n v = true) {i : ℕ} (hlo : lo ≤ i)
    (hi : i < lo + n) : Clear unit (margin - (e₀ + n * e)) (F i) := by
  have he : 0 ≤ e := (increment lo le_rfl).error_nonneg
  induction n generalizing v e₀ with
  | zero => omega
  | succ n ih =>
    obtain ⟨w, hw⟩ : ∃ w, v + logIncrement a (b (lo + n)) = w := ⟨_, rfl⟩
    rw [walkDown_succ hw, Bool.and_eq_true] at checked
    have next : BelowBy (e₀ + e) w (F (lo + n)) := by
      have h := start.add (increment (lo + n) (Nat.le_add_right _ _))
      rw [hw] at h
      convert h using 1
      rw [← add_assoc lo n 1]
      ring
    have hn : 0 ≤ n * e := by positivity
    obtain rfl | hlt : i = lo + n ∨ i < lo + n := by omega
    · exact (next.clear hu checked.1).mono (by push_cast; linarith)
    · exact (ih next checked.2 hlt).mono (by push_cast; linarith)

/-! ### From the real logarithm to the binary64 one -/

/-- `lnCR64` of an argument whose logarithm is not tiny: the fixed-point error disappears in the rounding. -/
theorem lnCR64_close {x : F64} (hx : x.neg = false) (normal : x.Normal) (low : 1 / 2 ^ 30 ≤ |Real.log (x.value : ℝ)|) :
    |((lnCR64 x).value : ℝ) - Real.log (x.value : ℝ)| ≤ |Real.log (x.value : ℝ)| / 2 ^ 52 := by
  have accurate := logarithmIsAccurate x hx normal.low normal.high normal.expLow normal.expHigh
  obtain ⟨q, hq⟩ : ∃ q : ℚ, (lnFixed x : ℚ) / (2 ^ lnBits : ℕ) = q := ⟨_, rfl⟩
  have hq' : (lnFixed x : ℝ) / 2 ^ lnBits = q := by rw [← hq]; push_cast; rfl
  rw [hq'] at accurate
  generalize Real.log (x.value : ℝ) = l at accurate low ⊢
  have tiny : (1 : ℝ) / 2 ^ 160 ≤ |l| / 2 ^ 55 := by
    calc (1 : ℝ) / 2 ^ 160 ≤ 1 / 2 ^ 30 / 2 ^ 55 := by norm_num
      _ ≤ |l| / 2 ^ 55 := by gcongr
  have size : |(q : ℝ)| ≤ |l| + 1 / 2 ^ 160 := by linarith [abs_sub_abs_le_abs_sub (q : ℝ) l]
  have sizeLow : 1 / 2 ^ 31 ≤ |(q : ℝ)| := by
    have := abs_sub_abs_le_abs_sub l (q : ℝ)
    rw [abs_sub_comm] at this
    have : (1 : ℝ) / 2 ^ 160 ≤ 1 / 2 ^ 31 := by norm_num
    have : (1 : ℝ) / 2 ^ 30 - 1 / 2 ^ 31 = 1 / 2 ^ 31 := by norm_num
    linarith
  have sizeLow' : 1 / 2 ^ 31 ≤ |q| := by
    rw [← Rat.cast_le (K := ℝ)]
    push_cast
    exact sizeLow
  have rounding : |(lnCR64 x).value - q| ≤ |q| / 2 ^ 53 := by
    have h := fl64_close (neg := lnFixed x < 0) (n := (lnFixed x).natAbs) (d := 2 ^ lnBits) (Nat.two_pow_pos _)
    rw [exactRatio_int, hq] at h
    refine h (le_trans ?_ sizeLow')
    exact one_div_le_one_div_of_le (by norm_num) (pow_le_pow_right₀ one_le_two (by norm_num))
  have rounding' : |((lnCR64 x).value : ℝ) - q| ≤ |(q : ℝ)| / 2 ^ 53 := by exact_mod_cast rounding
  calc |((lnCR64 x).value : ℝ) - l| ≤ |((lnCR64 x).value : ℝ) - q| + |(q : ℝ) - l| := abs_sub_le _ _ _
    _ ≤ (|l| + |l| / 2 ^ 55) / 2 ^ 53 + |l| / 2 ^ 55 := by
      gcongr
      · exact rounding'.trans (by gcongr; linarith)
      · linarith
    _ ≤ |l| / 2 ^ 52 := by linarith [abs_nonneg l]

/-- Logarithms of neighbouring values. -/
theorem abs_log_sub_log_le {s t ρ : ℝ} (ht : 0 < t) (h : |s - t| ≤ ρ * t) (hρ : ρ ≤ 1 / 4) :
    |Real.log s - Real.log t| ≤ 4 / 3 * ρ := by
  obtain ⟨low, high⟩ := abs_le.1 h
  have hρ0 : 0 ≤ ρ := nonneg_of_mul_nonneg_left ((abs_nonneg _).trans h) ht
  have hs : 0 < s := by nlinarith
  have ratioHigh : s / t ≤ 1 + ρ := by rw [div_le_iff₀ ht]; linarith
  have ratioLow : 1 - ρ ≤ s / t := by rw [le_div_iff₀ ht]; linarith
  have inverse : (s / t)⁻¹ ≤ 1 + 4 / 3 * ρ := by
    refine (inv_anti₀ (by linarith) ratioLow).trans ?_
    rw [inv_le_iff_one_le_mul₀ (by linarith)]
    nlinarith
  rw [← Real.log_div hs.ne' ht.ne', abs_le]
  constructor
  · linarith [Real.one_sub_inv_le_log_of_pos (div_pos hs ht)]
  · linarith [Real.log_le_sub_one_of_pos (div_pos hs ht)]

/-- A logarithm in binary64 times a factor, against the real logarithm `l` of the exact argument. -/
theorem scaled_lnCR64_close {m x : F64} {l κ : ℝ} (hx : x.neg = false) (normal : x.Normal)
    (hκ : |Real.log (x.value : ℝ) - l| ≤ κ) (hκl : κ ≤ |l| / 2 ^ 10) (low : 1 / 2 ^ 20 ≤ |l|) (hm : 1 ≤ |m.value|) :
    |((m.mul (lnCR64 x)).value : ℝ) - m.value * l| ≤ |(m.value : ℝ)| * (κ + |l| / 2 ^ 51) := by
  have size : |Real.log (x.value : ℝ)| ≤ |l| + κ := by linarith [abs_sub_abs_le_abs_sub (Real.log (x.value : ℝ)) l]
  have sizeLow : |l| - κ ≤ |Real.log (x.value : ℝ)| := by
    have := abs_sub_abs_le_abs_sub l (Real.log (x.value : ℝ))
    rw [abs_sub_comm] at this
    linarith
  have log_close := lnCR64_close hx normal (le_trans (by linarith [low]) sizeLow)
  generalize Real.log (x.value : ℝ) = r at *
  generalize lnCR64 x = y at *
  have ySize : |(y.value : ℝ)| ≤ |r| + |r| / 2 ^ 52 := by linarith [abs_sub_abs_le_abs_sub (y.value : ℝ) r]
  have yLow : 1 / 2 ^ 22 ≤ |(y.value : ℝ)| := by
    have := abs_sub_abs_le_abs_sub r (y.value : ℝ)
    rw [abs_sub_comm] at this
    linarith
  have hm' : 1 ≤ |(m.value : ℝ)| := by exact_mod_cast hm
  have rounding : |((m.mul y).value : ℝ) - m.value * y.value| ≤ |(m.value : ℝ)| * (|(y.value : ℝ)| / 2 ^ 53) := by
    have yLow' : (1 : ℚ) / 2 ^ 22 ≤ |y.value| := by
      rw [← Rat.cast_le (K := ℝ)]
      push_cast
      exact yLow
    have h := F64.mul_close (x := m) (y := y) <| by
      rw [abs_mul]
      calc (1 : ℚ) / 2 ^ 200 ≤ 1 / 2 ^ 22 :=
            one_div_le_one_div_of_le (by norm_num) (pow_le_pow_right₀ one_le_two (by norm_num))
        _ ≤ |y.value| := yLow'
        _ ≤ |m.value| * |y.value| := le_mul_of_one_le_left (abs_nonneg _) hm
    rw [abs_mul, mul_div_assoc] at h
    exact_mod_cast h
  have first : |(m.value : ℝ) * y.value - m.value * l| ≤ |(m.value : ℝ)| * (|r| / 2 ^ 52 + κ) := by
    rw [← mul_sub, abs_mul]
    gcongr
    exact (abs_sub_le _ r _).trans (add_le_add log_close hκ)
  calc _ ≤ _ := abs_sub_le _ ((m.value : ℝ) * y.value) _
    _ ≤ |(m.value : ℝ)| * (|(y.value : ℝ)| / 2 ^ 53) + |(m.value : ℝ)| * (|r| / 2 ^ 52 + κ) := add_le_add rounding first
    _ ≤ |(m.value : ℝ)| * (κ + |l| / 2 ^ 51) := by
      rw [← mul_add]
      exact mul_le_mul_of_nonneg_left (by linarith [abs_nonneg l]) (abs_nonneg _)

/-- A value that lies nearer to `V` than `V` lies to any integer truncates to the floor of `V`. -/
theorem F64.trunc_eq_floor {x : F64} {unit : ℕ} {δ V : ℝ} (hu : 0 < unit) (clear : Clear unit δ (unit * V))
    (close : |(x.value : ℝ) - V| < δ / unit) : (x.trunc : ℤ) = ⌊V⌋ := by
  obtain ⟨k, low, high⟩ := clear
  have hu' : (0 : ℝ) < unit := by exact_mod_cast hu
  have hδ : 0 < δ / unit := (abs_nonneg _).trans_lt close
  obtain ⟨left, right⟩ := abs_lt.1 close
  have Vlow : k + δ / unit ≤ V := by
    rw [← mul_le_mul_iff_right₀ hu', mul_add, mul_div_cancel₀ _ hu'.ne']
    linarith
  have Vhigh : V ≤ k + 1 - δ / unit := by
    rw [← mul_le_mul_iff_right₀ hu', mul_sub, mul_div_cancel₀ _ hu'.ne']
    linarith
  have floor : ⌊V⌋ = k := by
    rw [Int.floor_eq_iff]
    push_cast
    exact ⟨by linarith, by linarith⟩
  have xlow : (k : ℚ) ≤ x.value := by
    have : (k : ℝ) ≤ x.value := by linarith
    exact_mod_cast this
  have xhigh : x.value < k + 1 := by
    have : (x.value : ℝ) < k + 1 := by linarith
    exact_mod_cast this
  rw [floor, Int.natCast_inj, F64.trunc_eq_iff, abs_of_nonneg (k.cast_nonneg.trans xlow)]
  exact ⟨xlow, xhigh⟩

/-- The result of a branch without a domain error, while it fits 64 bits. -/
theorem estimated_toNat {E : F64} {V : ℝ} (h : (E.trunc : ℤ) = ⌊V⌋) (hV : V < 2 ^ 64) :
    (estimated E).2 = false ∧ ((estimated E).1.toNat : ℤ) = ⌊V⌋ := by
  have : (E.trunc : ℤ) < 2 ^ 64 := by
    rw [h, Int.floor_lt]
    exact_mod_cast hV
  refine ⟨rfl, ?_⟩
  rw [← h, estimated, BitVec.toNat_ofNat, Nat.mod_eq_of_lt (by exact_mod_cast this)]

end Sys2Proof.Machine

end

section
/-! Linear counting (42_estimate.md R162 (c), R163): for Z from 1 to 8191 the real `8192 · ln(8192/Z)` lies more than 2^-20 away from
every integer, far more than the binary64 computation is off. -/

namespace Sys2Proof.Machine

/-! ### The real values, checked in turn -/

/-- `8192 · ln(8192/Z)` in units `2^(-179)`. -/
noncomputable def linearLog (Z : ℕ) : ℝ := 2 ^ lnBits * Real.log ((8192 : ℕ) / Z)

/-- `ln((Z+1)/Z)` is the increment of `1/(2·Z + 1)`. -/
def linearDenominator (Z : ℕ) : ℕ := Nat.succ (Nat.mul 2 Z)

theorem linearWalk_checked : walkDown 1 linearDenominator (2 ^ 179) (2 ^ 160) 64 8128 0 = true := by decide +kernel

theorem linearLow_checked : ∀ Z, Z < 64 → 0 < Z → clearOf (2 ^ 179) (2 ^ 160) (logRatio 8192 Z) = true := by
  decide +kernel

theorem linearLog_increment {Z : ℕ} (hZ : 64 ≤ Z) :
    BelowBy (2 ^ 145) (logIncrement 1 (linearDenominator Z)) (linearLog Z - linearLog (Z + 1)) := by
  have hZ' : (64 : ℝ) ≤ Z := by exact_mod_cast hZ
  have denominator : (linearDenominator Z : ℝ) = 2 * Z + 1 := by
    simp [linearDenominator]
  have h := logIncrement_belowBy (a := 1) (b := linearDenominator Z) (Nat.succ_pos _) (by
    show 3 * 1 ≤ 2 * Z + 1
    omega)
  have small : ((1 : ℕ) / linearDenominator Z : ℝ) ^ 7 ≤ (1 / 2 ^ 7) ^ 7 := by
    rw [denominator, Nat.cast_one]
    gcongr
    linarith
  have difference : linearLog Z - linearLog (Z + 1) = 2 ^ lnBits * Real.log
      ((linearDenominator Z + (1 : ℕ)) / (linearDenominator Z - (1 : ℕ))) := by
    rw [linearLog, linearLog, ← mul_sub, ← Real.log_div (by positivity) (by positivity), denominator]
    congr 2
    push_cast
    field_simp
    ring
  rw [difference]
  refine h.mono ?_
  calc 4 + 9 / 4 * 2 ^ lnBits * ((1 : ℕ) / linearDenominator Z : ℝ) ^ 7 ≤ 4 + 9 / 4 * 2 ^ lnBits * (1 / 2 ^ 7) ^ 7 := by gcongr
    _ ≤ 2 ^ 145 := by norm_num [lnBits]

theorem linearLog_clear {Z : ℕ} (hZ : 0 < Z) (hZ' : Z < 8192) : Clear (2 ^ 179) (2 ^ 159) (linearLog Z) := by
  obtain hlow | hhigh := lt_or_ge Z 64
  · have value := logRatio_belowBy (p := 8192) hZ (by omega) (by omega)
    exact (value.clear (by positivity) (linearLow_checked Z hlow hZ)).mono (by norm_num)
  · have start : BelowBy 0 0 (linearLog (64 + 8128)) := by simp [linearLog, BelowBy]
    exact (walkDown_clear (by positivity) (fun i => linearLog_increment) start linearWalk_checked hhigh hZ').mono
      (by norm_num)

/-! ### The binary64 computation -/

theorem ofNat_value {n : ℕ} (h : n < 2 ^ 53) : (F64.ofNat n).value = n := by
  have hy : (F64.mk false n 0).representable := ⟨h, by norm_num⟩
  have value : (F64.mk false n 0).value = n := by simp [F64.value_mk]
  refine (fl64_exact hy one_pos ?_).trans value
  rw [value, exactRatio]
  simp

section
variable {Z : ℕ} (hZ : 0 < Z) (hZ' : Z < 8192)
include hZ hZ'

/-- The argument `m ⊘ Z` of the logarithm. -/
theorem linearArgument_close : ((F64.ofNat Config.m).div (F64.ofNat Z)).Normal ∧
    |((F64.ofNat Config.m).div (F64.ofNat Z)).value - 8192 / Z| ≤ 8192 / Z / 2 ^ 53 := by
  have numerator : (F64.ofNat Config.m).value = 8192 := ofNat_value (n := 8192) (by norm_num)
  have denominator : (F64.ofNat Z).value = Z := ofNat_value (by omega)
  have hZpos : (0 : ℚ) < Z := by exact_mod_cast hZ
  have hZone : (1 : ℚ) ≤ Z := by exact_mod_cast hZ
  have hZlt : (Z : ℚ) ≤ 8192 := by exact_mod_cast hZ'.le
  have low : 1 ≤ (8192 : ℚ) / Z := (one_le_div hZpos).2 hZlt
  have high : (8192 : ℚ) / Z ≤ 8192 := div_le_self (by norm_num) hZone
  have size : |(F64.ofNat Config.m).value / (F64.ofNat Z).value| = 8192 / Z := by
    rw [numerator, denominator, abs_of_pos (by positivity)]
  have nonzero : (F64.ofNat Z).value ≠ 0 := by rw [denominator]; exact hZpos.ne'
  have notSmall : 1 / 2 ^ 200 ≤ |(F64.ofNat Config.m).value / (F64.ofNat Z).value| := by
    rw [size]; exact le_trans (by norm_num) low
  have close := F64.div_close nonzero notSmall
  rw [size, numerator, denominator] at close
  exact ⟨F64.div_normal nonzero notSmall (by rw [size]; exact high.trans_lt (by norm_num)), close⟩

theorem log_linear_bounds : 1 / 8192 ≤ Real.log (8192 / Z) ∧ Real.log (8192 / Z) ≤ 13 := by
  have hZpos : (0 : ℝ) < Z := by exact_mod_cast hZ
  have hZone : (1 : ℝ) ≤ Z := by exact_mod_cast hZ
  have hZlt : (Z : ℝ) ≤ 8191 := by exact_mod_cast Nat.le_of_lt_succ hZ'
  have ratio : (0 : ℝ) < 8192 / Z := by positivity
  constructor
  · have inverse : ((8192 : ℝ) / Z)⁻¹ ≤ 8191 / 8192 := by rw [inv_div]; gcongr
    linarith [Real.one_sub_inv_le_log_of_pos ratio]
  · calc Real.log (8192 / Z) ≤ Real.log (2 ^ 13) :=
          Real.log_le_log ratio ((div_le_self (by norm_num) hZone).trans_eq (by norm_num))
      _ = 13 * Real.log 2 := by rw [Real.log_pow]; norm_num
      _ ≤ 13 := by linarith [Real.log_two_lt_d9]

theorem linearCounting_close : |((linearCounting Z).value : ℝ) - 8192 * Real.log (8192 / Z)| < 1 / 2 ^ 20 := by
  have hZpos : (0 : ℝ) < Z := by exact_mod_cast hZ
  have ratio : (0 : ℝ) < 8192 / Z := by positivity
  have factor : (F64.ofNat Config.m).value = 8192 := ofNat_value (n := 8192) (by norm_num)
  obtain ⟨normal, close⟩ := linearArgument_close hZ hZ'
  obtain ⟨logLow, logHigh⟩ := log_linear_bounds hZ hZ'
  rw [linearCounting]
  generalize (F64.ofNat Config.m).div (F64.ofNat Z) = x at normal close ⊢
  have close' : |(x.value : ℝ) - 8192 / Z| ≤ 1 / 2 ^ 53 * (8192 / Z) := by
    have : |((x.value - 8192 / Z : ℚ) : ℝ)| ≤ ((8192 / Z / 2 ^ 53 : ℚ) : ℝ) := by exact_mod_cast close
    push_cast at this
    linarith
  have positive : 0 < x.value := by
    have : (0 : ℝ) < x.value := by linarith [(abs_le.1 close').1]
    exact_mod_cast this
  have size : |Real.log (8192 / (Z : ℝ))| = Real.log (8192 / Z) := abs_of_pos (by linarith)
  have scaled := scaled_lnCR64_close (m := F64.ofNat Config.m) (F64.neg_eq_false_of_pos positive) normal
    (abs_log_sub_log_le ratio close' (by norm_num)) (by rw [size]; linarith) (by rw [size]; linarith)
    (by rw [factor]; norm_num)
  rw [factor, size] at scaled
  push_cast at scaled
  refine scaled.trans_lt ?_
  rw [abs_of_pos (by norm_num)]
  linarith

end

theorem linearCounting_trunc {Z : ℕ} (hZ : 0 < Z) (hZ' : Z ≤ 8192) :
    ((linearCounting Z).trunc : ℤ) = ⌊(8192 : ℝ) * Real.log (8192 / Z)⌋ := by
  obtain rfl | hlt := eq_or_lt_of_le hZ'
  · rw [show (linearCounting 8192).trunc = 0 by decide +kernel]
    norm_num
  · have clear := linearLog_clear hZ hlt
    refine F64.trunc_eq_floor (unit := 2 ^ 179) (δ := 2 ^ 159) (by positivity) ?_ ?_
    · convert clear using 1
      rw [linearLog]
      push_cast
      rw [← mul_assoc]
      norm_num [lnBits]
    · refine (linearCounting_close hZ hlt).trans_eq ?_
      norm_num

end Sys2Proof.Machine

open Sys2Proof.Machine

/-- Settles O44, by `linearCounting_trunc`; the value fits, since `ln(8192/Z)` is below 8192. -/
theorem linearCountingIsFloorOfRealLog : Obligations.LinearCountingIsFloorOfRealLog := by
  intro S Z low hS hZ hZ'
  rw [est64_small low hS hZ]
  refine estimated_toNat (linearCounting_trunc hZ hZ') ?_
  have hZone : (1 : ℝ) ≤ Z := by exact_mod_cast hZ
  have ratio : (8192 : ℝ) / Z ≤ 8192 := div_le_self (by norm_num) hZone
  linarith [Real.log_le_sub_one_of_pos (by positivity : (0 : ℝ) < 8192 / Z)]

end

section
/-! The large range (42_estimate.md R162 (d)): for every S from 11817 to 354486 the real `-2^32 · ln(1 - A64/(2^32·sum))` lies further
from every integer than the binary64 computation is off. Close to the pole of the logarithm every value is checked by a logarithm
of its own; from S = 12000 on in runs. -/

namespace Sys2Proof.Machine

/-! ### The real values, checked in turn -/

/-- `-2^32 · ln(1 - A64/(2^32·sum))` in units `2^(-160)`, as the logarithm of a ratio above 1. -/
noncomputable def largeLog (S : ℕ) : ℝ := 2 ^ lnBits * Real.log (2 ^ 39 * S / (2 ^ 39 * S - estNumerator))

/-- What `logRatio` makes of it. -/
def largeRatio (S : ℕ) : ℕ := logRatio (2 ^ 39 * S) (2 ^ 39 * S - estNumerator)

/-- The step from `S + 1` to `S` is the increment of `A64` over this. -/
def largeDenominator (S : ℕ) : ℕ :=
  Nat.sub (Nat.mul S (Nat.sub (Nat.mul (Nat.pow 2 40) (Nat.succ S)) (Nat.mul 2 estNumerator))) estNumerator

/-- How far from an integer the approximation is to be at the sum `lo` and above: the binary64 error grows towards the pole, which
lies a little above 11816. -/
def largeMargin (lo : ℕ) : ℕ := 2 ^ 140 + 2 ^ 140 * 80000 / (lo - 11816)

/-- The sums from `lo` to `lo + len - 1`. -/
def largeRun (len lo : ℕ) : Bool :=
  walkDown estNumerator largeDenominator (2 ^ 160) (largeMargin lo) lo len (largeRatio (lo + len))

theorem largePole_checked : ∀ k, k < 183 → clearOf (2 ^ 160) (largeMargin (11817 + k)) (largeRatio (11817 + k)) = true := by
  decide +kernel

theorem largeShortRuns_checked : ∀ k, k < 20 → largeRun 100 (12000 + 100 * k) = true := by decide +kernel

/-- The kernel evaluates each group of 37 runs by itself. -/
theorem largeRuns_checked : ∀ k, k < 9 → ∀ j, j < 37 → largeRun 1024 (14000 + 1024 * (37 * k + j)) = true := by
  intro k hk
  interval_cases k <;> decide +kernel

/-- How far from every multiple of the unit the checks put the real value. -/
noncomputable def largeGap (S : ℕ) : ℝ := 2 ^ 139 * (3 / 2 + 125000 / (S - 11816))

section
variable {S : ℕ} (hS : 11817 ≤ S)
include hS

theorem largeDenominator_cast : (largeDenominator S : ℝ) = 2 ^ 40 * (S * (S + 1)) - estNumerator * (2 * S + 1) := by
  have inner : 2 * estNumerator ≤ 2 ^ 40 * (S + 1) := by simp only [estNumerator]; omega
  have outer : estNumerator ≤ S * (2 ^ 40 * (S + 1) - 2 * estNumerator) := by
    calc estNumerator ≤ 11817 * (2 ^ 40 * 11818 - 2 * estNumerator) := by norm_num [estNumerator]
      _ ≤ S * (2 ^ 40 * (S + 1) - 2 * estNumerator) := by gcongr; omega
  have value : largeDenominator S = S * (2 ^ 40 * (S + 1) - 2 * estNumerator) - estNumerator := rfl
  rw [value, Nat.cast_sub outer, Nat.cast_mul, Nat.cast_sub inner]
  push_cast
  ring

theorem one_le_distance : (1 : ℝ) ≤ S - 11816 := by
  have : (11817 : ℝ) ≤ S := by exact_mod_cast hS
  linarith

/-- The argument of the increment's series. -/
theorem increment_argument_le :
    0 < largeDenominator S ∧ (estNumerator : ℝ) / largeDenominator S ≤ 1 / (2 * (S - 11816)) := by
  have distance := one_le_distance hS
  have key : (estNumerator : ℝ) * (2 * (S - 11816)) < largeDenominator S := by
    rw [largeDenominator_cast hS]
    norm_num [estNumerator]
    nlinarith
  have positive : (0 : ℝ) < largeDenominator S :=
    lt_of_le_of_lt (mul_nonneg (Nat.cast_nonneg _) (by linarith)) key
  rw [div_le_div_iff₀ positive (by linarith)]
  exact ⟨by exact_mod_cast positive, by linarith⟩

theorem estNumerator_lt : estNumerator < 2 ^ 39 * S := by simp only [estNumerator]; omega

theorem largeRatio_belowBy : BelowBy (2 ^ 14) (largeRatio S) (largeLog S) := by
  have below := estNumerator_lt hS
  have pole : 2 ^ 39 * S < (2 ^ 39 * S - estNumerator) * 2 ^ 15 := by simp only [estNumerator]; omega
  have h := logRatio_belowBy (Nat.sub_pos_of_lt below) (Nat.sub_le _ _) pole
  rwa [Nat.cast_sub below.le, Nat.cast_mul, Nat.cast_pow, Nat.cast_two] at h

/-- Both logarithms of the step in one. -/
theorem largeLog_sub : largeLog S - largeLog (S + 1) =
    2 ^ lnBits * Real.log ((largeDenominator S + estNumerator) / (largeDenominator S - estNumerator)) := by
  have hS0 : (0 : ℝ) < S := by exact_mod_cast (by omega : 0 < S)
  have here : (estNumerator : ℝ) < 2 ^ 39 * S := by exact_mod_cast estNumerator_lt hS
  have above : (estNumerator : ℝ) < 2 ^ 39 * (S + 1) := by linarith
  have here' : (0 : ℝ) < 2 ^ 39 * S - estNumerator := by linarith
  have above' : (0 : ℝ) < 2 ^ 39 * (S + 1) - estNumerator := by linarith
  rw [largeLog, largeLog, Nat.cast_succ, ← mul_sub, ← Real.log_div (div_pos (by positivity) here').ne' (div_pos (by positivity) above').ne',
    largeDenominator_cast hS]
  congr 2
  have numerator : (2 : ℝ) ^ 40 * (S * (S + 1)) - estNumerator * (2 * S + 1) + estNumerator =
      2 * (S * (2 ^ 39 * (S + 1) - estNumerator)) := by ring
  have denominator : (2 : ℝ) ^ 40 * (S * (S + 1)) - estNumerator * (2 * S + 1) - estNumerator =
      2 * ((S + 1) * (2 ^ 39 * S - estNumerator)) := by ring
  rw [numerator, denominator, div_div_div_eq, mul_div_mul_left _ _ two_ne_zero, mul_assoc, mul_left_comm _ ((2 : ℝ) ^ 39),
    mul_div_mul_left _ _ (by positivity)]
  congr 1
  ring

end

theorem largeLog_increment {S lo : ℕ} (hlo : 12000 ≤ lo) (hS : lo ≤ S) :
    BelowBy (4 + 9 / 4 * 2 ^ lnBits * (1 / (2 * (lo - 11816)) : ℝ) ^ 7) (logIncrement estNumerator (largeDenominator S))
      (largeLog S - largeLog (S + 1)) := by
  have low : 11817 ≤ S := by omega
  obtain ⟨positive, argument⟩ := increment_argument_le low
  have hlo' : (12000 : ℝ) ≤ lo := by exact_mod_cast hlo
  have hS' : (lo : ℝ) ≤ S := by exact_mod_cast hS
  have positive' : (0 : ℝ) < largeDenominator S := by exact_mod_cast positive
  have third : (estNumerator : ℝ) / largeDenominator S ≤ 1 / 3 := argument.trans (by gcongr; linarith)
  rw [div_le_div_iff₀ positive' three_pos] at third
  rw [largeLog_sub low]
  refine (logIncrement_belowBy positive (by exact_mod_cast (by linarith : (3 : ℝ) * estNumerator ≤ largeDenominator S))).mono ?_
  have distance : (0 : ℝ) < 2 * (lo - 11816) := by linarith
  have reach : (estNumerator : ℝ) / largeDenominator S ≤ 1 / (2 * (lo - 11816)) :=
    argument.trans (one_div_le_one_div_of_le distance (by linarith))
  have power := pow_le_pow_left₀ (div_nonneg (Nat.cast_nonneg _) positive'.le) reach 7
  have scale : (0 : ℝ) ≤ 9 / 4 * 2 ^ lnBits := by positivity
  linarith [mul_le_mul_of_nonneg_left power scale]

theorem largeMargin_cast {lo : ℕ} (hlo : 11817 ≤ lo) :
    2 ^ 140 + 2 ^ 140 * 80000 / (lo - 11816 : ℝ) - 1 ≤ largeMargin lo := by
  have floor := Nat.lt_floor_add_one ((2 ^ 140 * 80000 : ℕ) / (lo - 11816 : ℕ) : ℝ)
  rw [Nat.floor_div_eq_div, Nat.cast_sub (by omega : 11816 ≤ lo)] at floor
  push_cast at floor
  rw [largeMargin]
  push_cast
  linarith

theorem largeGap_antitone {lo S : ℕ} (hlo : 11817 ≤ lo) (hS : lo ≤ S) : largeGap S ≤ largeGap lo := by
  have hlo' := one_le_distance hlo
  have hS' : (lo : ℝ) ≤ S := by exact_mod_cast hS
  unfold largeGap
  gcongr

theorem largePole_clear {S : ℕ} (low : 11817 ≤ S) (high : S < 12000) : Clear (2 ^ 160) (largeGap S) (largeLog S) := by
  have checked := largePole_checked (S - 11817) (by omega)
  rw [Nat.add_sub_cancel' low] at checked
  refine ((largeRatio_belowBy low).clear (by positivity) checked).mono ?_
  have distance : (0 : ℝ) < (S - 11816 : ℝ)⁻¹ := inv_pos.2 (by linarith [one_le_distance low])
  have margin := largeMargin_cast low
  rw [largeGap]
  rw [div_eq_mul_inv _ (S - 11816 : ℝ)] at margin ⊢
  generalize (S - 11816 : ℝ)⁻¹ = r at *
  linarith

/-- The errors of a run: that of its first logarithm and one for each step. They leave more than half of the margin. -/
theorem largeGap_le {len lo : ℕ} (hlo : 12000 ≤ lo) (hlen : len ≤ 1024) : largeGap lo ≤
    largeMargin lo - (2 ^ 14 + len * (4 + 9 / 4 * 2 ^ lnBits * (1 / (2 * (lo - 11816)) : ℝ) ^ 7)) := by
  have hlo' : (12000 : ℝ) ≤ lo := by exact_mod_cast hlo
  have hlen' : (len : ℝ) ≤ 1024 := by exact_mod_cast hlen
  have margin := largeMargin_cast (by omega : 11817 ≤ lo)
  have inverse : (lo - 11816 : ℝ)⁻¹ ≤ 184⁻¹ := inv_anti₀ (by norm_num) (by linarith)
  have inverse0 : (0 : ℝ) < (lo - 11816 : ℝ)⁻¹ := inv_pos.2 (by linarith)
  rw [largeGap]
  rw [div_eq_mul_inv _ (lo - 11816 : ℝ)] at margin ⊢
  rw [one_div, mul_inv]
  generalize (lo - 11816 : ℝ)⁻¹ = r at *
  have steps : len * (4 + 9 / 4 * 2 ^ lnBits * (2⁻¹ * r) ^ 7) ≤ 2 ^ 12 + 2 ^ 136 * 80000 * r := by
    calc len * (4 + 9 / 4 * 2 ^ lnBits * (2⁻¹ * r) ^ 7)
        ≤ 1024 * (4 + 9 / 4 * 2 ^ lnBits * ((2⁻¹ * 184⁻¹) ^ 6 * (2⁻¹ * r))) := by
          rw [pow_succ (2⁻¹ * r)]
          gcongr
      _ = 2 ^ 12 + 1024 * (9 / 4) * 2 ^ lnBits * (2⁻¹ * 184⁻¹) ^ 6 * 2⁻¹ * r := by ring
      _ ≤ 2 ^ 12 + 2 ^ 136 * 80000 * r :=
          add_le_add_right (mul_le_mul_of_nonneg_right (by norm_num [lnBits]) inverse0.le) _
  linarith

theorem largeRun_clear {len lo : ℕ} (checked : largeRun len lo = true) (hlo : 12000 ≤ lo) (hlen : len ≤ 1024) {S : ℕ}
    (hS : lo ≤ S) (hS' : S < lo + len) : Clear (2 ^ 160) (largeGap S) (largeLog S) := by
  rw [largeRun] at checked
  have start := largeRatio_belowBy (S := lo + len) (by omega)
  have run := walkDown_clear (F := largeLog) (a := estNumerator) (b := largeDenominator) (by positivity)
    (fun i hi => largeLog_increment hlo hi) start checked hS hS'
  exact run.mono ((largeGap_antitone (by omega) hS).trans (largeGap_le hlo hlen))

theorem largeLog_clear {S : ℕ} (low : 11817 ≤ S) (high : S ≤ 354486) : Clear (2 ^ 160) (largeGap S) (largeLog S) := by
  obtain h | h | h : S < 12000 ∨ (12000 ≤ S ∧ S < 14000) ∨ 14000 ≤ S := by omega
  · exact largePole_clear low h
  · have checked := largeShortRuns_checked ((S - 12000) / 100) (by omega)
    exact largeRun_clear checked (by omega) (by norm_num) (by omega) (by omega)
  · have checked := largeRuns_checked ((S - 14000) / 1024 / 37) (by omega) ((S - 14000) / 1024 % 37) (by omega)
    rw [Nat.div_add_mod] at checked
    exact largeRun_clear checked (by omega) le_rfl (by omega) (by omega)

/-! ### The binary64 computation -/

/-- The exact argument of the logarithm. -/
def largeExact (S : ℕ) : ℚ := 1 - rawQuotient S / 2 ^ 32

theorem largeExact_cast (S : ℕ) : (largeExact S : ℝ) = 1 - estNumerator / (2 ^ 39 * S) := by
  rw [largeExact, rawQuotient]
  push_cast
  rw [div_div]
  ring_nf

section
variable {S : ℕ} (low : 11817 ≤ S) (high : S ≤ 354486)
include low

theorem largeQuotient_le : rawQuotient S / 2 ^ 32 ≤ 16383 / 16384 := by
  have := rawQuotient_antitone (by norm_num) low
  refine (div_le_div_of_nonneg_right this (by norm_num)).trans ?_
  norm_num [rawQuotient, estNumerator]

/-- `x/(1-x)` for `x = A64/(2^32·sum)`, in terms of the distance from the pole. -/
theorem largeOdds_le : (1 - largeExact S : ℝ) / largeExact S ≤ 15300 / (S - 11816) := by
  have hS : (11817 : ℝ) ≤ S := by exact_mod_cast low
  have ratio : (1 - largeExact S : ℝ) / largeExact S = estNumerator / (2 ^ 39 * S - estNumerator) := by
    have hS0 : (2 : ℝ) ^ 39 * S ≠ 0 := by positivity
    rw [largeExact_cast, sub_sub_cancel, one_sub_div hS0, div_div_div_cancel_right₀ hS0]
  rw [ratio]
  norm_num [estNumerator]
  rw [div_le_div_iff₀ (by linarith) (by linarith)]
  linarith

theorem largeLog_eq : largeLog S = (2 ^ 160 : ℕ) * (-(2 ^ 32) * Real.log (largeExact S)) := by
  have hS0 : (2 : ℝ) ^ 39 * S ≠ 0 := by
    have : (0 : ℝ) < S := by exact_mod_cast (by omega : 0 < S)
    positivity
  have inverse : (2 : ℝ) ^ 39 * S / (2 ^ 39 * S - estNumerator) = (largeExact S : ℝ)⁻¹ := by
    rw [largeExact_cast, one_sub_div hS0, inv_div]
  have units : (2 : ℝ) ^ lnBits = 2 ^ 160 * 2 ^ 32 := by norm_num [lnBits]
  rw [largeLog, inverse, Real.log_inv, units]
  push_cast
  ring

include high

/-- The argument `1 ⊖ (raw ⊘ 2^32)`: three roundings, each relative to the value it rounds. -/
theorem largeArgument_close : (largeArgument (raw64 S)).Normal ∧
    |(largeArgument (raw64 S)).value - largeExact S| ≤ (largeExact S + 3 * (rawQuotient S / 2 ^ 32)) / 2 ^ 53 := by
  have hS : S ≤ 2 ^ 33 := high.trans (by norm_num)
  have raw := raw64_close (by omega) hS
  have quotientHigh := largeQuotient_le low
  have rawLow := one_le_rawQuotient (by omega) hS
  rw [largeExact, largeArgument]
  generalize raw64 S = y at raw ⊢
  obtain ⟨x, hx⟩ : ∃ x, rawQuotient S / 2 ^ 32 = x := ⟨_, rfl⟩
  have hraw : rawQuotient S = x * 2 ^ 32 := by rw [← hx]; ring
  rw [hx] at quotientHigh ⊢
  rw [hraw] at raw rawLow
  obtain ⟨rawDown, rawUp⟩ := abs_le.1 raw
  have yLow : 1 / 2 ≤ y.value := by linarith
  have scaledAbs : |y.value / (F64.ofNat (2 ^ 32)).value| = y.value / 2 ^ 32 := by
    rw [ofNat_two_pow_32_value, abs_of_pos (by linarith)]
  have quotient := F64.div_close (x := y) (y := F64.ofNat (2 ^ 32)) (by rw [ofNat_two_pow_32_value]; norm_num) (by
    rw [scaledAbs]; linarith)
  rw [scaledAbs, ofNat_two_pow_32_value] at quotient
  generalize y.div (F64.ofNat (2 ^ 32)) = q at quotient ⊢
  obtain ⟨quotientDown, quotientUp⟩ := abs_le.1 quotient
  have differenceAbs : |(F64.ofNat 1).value - q.value| = 1 - q.value := by
    rw [ofNat_one_value, abs_of_pos (by linarith)]
  have notSmall : 1 / 2 ^ 200 ≤ |(F64.ofNat 1).value - q.value| := by
    rw [differenceAbs]; linarith
  have close := F64.sub_close notSmall
  rw [differenceAbs, ofNat_one_value] at close
  obtain ⟨down, up⟩ := abs_le.1 close
  refine ⟨F64.sub_normal notSmall (by rw [differenceAbs]; linarith), abs_le.2 ⟨by linarith, by linarith⟩⟩

/-- How the exact argument and its logarithm lie to each other: `x/(1-x)` for `x = A64/(2^32·sum)` bounds the logarithm. -/
theorem log_largeExact_bounds : 1 / 32 ≤ -Real.log (largeExact S) ∧
    -Real.log (largeExact S) ≤ (1 - largeExact S) / largeExact S := by
  have size := largeQuotient_le low
  have positive : (0 : ℝ) < largeExact S := by
    have : 0 < largeExact S := by rw [largeExact]; linarith
    exact_mod_cast this
  have quotientLow : (largeExact S : ℝ) ≤ 31 / 32 := by
    have := div_le_div_of_nonneg_right (rawQuotient_antitone (by omega) high) (by norm_num : (0 : ℚ) ≤ 2 ^ 32)
    have : largeExact S ≤ 31 / 32 := by
      rw [largeExact]
      refine (sub_le_sub_left this 1).trans ?_
      norm_num [rawQuotient, estNumerator]
    have cast : (largeExact S : ℝ) ≤ (31 / 32 : ℚ) := by exact_mod_cast this
    exact cast.trans_eq (by norm_num)
  constructor
  · linarith [Real.log_le_sub_one_of_pos positive]
  · rw [sub_div, div_self positive.ne', one_div]
    linarith [Real.one_sub_inv_le_log_of_pos positive]

theorem largeCorrection_close :
    |((largeCorrection (largeArgument (raw64 S))).value : ℝ) - -(2 ^ 32) * Real.log (largeExact S)| <
      largeGap S / (2 ^ 160 : ℕ) := by
  have hS : (11817 : ℝ) ≤ S := by exact_mod_cast low
  obtain ⟨normal, close⟩ := largeArgument_close low high
  have argument := largeArgument_value_pos low
  obtain ⟨logLow, logHigh⟩ := log_largeExact_bounds low high
  have odds := largeOdds_le low
  have size := largeQuotient_le low
  have complement : rawQuotient S / 2 ^ 32 = 1 - largeExact S := by rw [largeExact, sub_sub_cancel]
  rw [complement] at close size
  have factor : (F64.ofNat (2 ^ 32)).negate.value = -2 ^ 32 := by rw [F64.negate_value, ofNat_two_pow_32_value]
  rw [largeCorrection]
  generalize largeArgument (raw64 S) = x at *
  generalize largeExact S = t at *
  have positive : (0 : ℝ) < t := by
    have : 0 < t := by linarith
    exact_mod_cast this
  obtain ⟨g, hg⟩ : ∃ g : ℝ, (1 - t) / t = g := ⟨_, rfl⟩
  have hgt : 1 - (t : ℝ) = g * t := by rw [← hg, div_mul_cancel₀ _ positive.ne']
  rw [hg] at odds logHigh
  have gHigh : g ≤ 15300 := odds.trans (div_le_self (by norm_num) (by linarith))
  have close' : |(x.value : ℝ) - t| ≤ (1 + 3 * g) / 2 ^ 53 * t := by
    have : |((x.value - t : ℚ) : ℝ)| ≤ (((t + 3 * (1 - t)) / 2 ^ 53 : ℚ) : ℝ) := by exact_mod_cast close
    push_cast at this
    rw [hgt] at this
    refine this.trans_eq ?_
    ring
  have logAbs : |Real.log t| = -Real.log t := abs_of_neg (by linarith)
  have scaled := scaled_lnCR64_close (m := (F64.ofNat (2 ^ 32)).negate) (F64.neg_eq_false_of_pos argument) normal
    (abs_log_sub_log_le positive close' (by linarith)) (by rw [logAbs]; linarith) (by rw [logAbs]; linarith)
    (by rw [factor]; norm_num)
  rw [factor, logAbs] at scaled
  push_cast at scaled
  refine scaled.trans_lt ?_
  rw [abs_neg, abs_of_pos (by positivity), largeGap, lt_div_iff₀ (by positivity)]
  push_cast
  rw [div_eq_mul_inv _ (S - 11816 : ℝ)] at odds ⊢
  linarith

theorem largeCorrection_trunc : ((largeCorrection (largeArgument (raw64 S))).trunc : ℤ) =
    ⌊-(2 ^ 32 : ℝ) * Real.log (largeExact S)⌋ :=
  F64.trunc_eq_floor (by positivity) (largeLog_eq low ▸ largeLog_clear low high) (largeCorrection_close low high)

end

end Sys2Proof.Machine

open Sys2Proof.Machine

/-- Settles O59, by `largeCorrection_trunc`; the value fits 64 bits, since the logarithm is at most 15300 in magnitude. -/
theorem largeRangeIsFloorOfRealLog : Obligations.LargeRangeIsFloorOfRealLog := by
  intro S Z low high
  rw [est64_large low high, ← largeExact_cast]
  refine estimated_toNat (largeCorrection_trunc low high) ?_
  have hS : (11817 : ℝ) ≤ S := by exact_mod_cast low
  have bound := (largeOdds_le low).trans (div_le_self (by norm_num) (by linarith))
  linarith [(log_largeExact_bounds low high).2]

/-- Settles O45: the exact floor of O59 lies within any tolerance. -/
theorem largeRangeFollowsTheRealLog : Obligations.LargeRangeFollowsTheRealLog := by
  intro S Z low high
  obtain ⟨noError, floor⟩ := largeRangeIsFloorOfRealLog S Z low high
  obtain ⟨below, above⟩ := Int.floor_eq_iff.1 floor.symm
  rw [Int.cast_natCast] at below above
  exact ⟨noError, by linarith, by linarith⟩

end

section
/-! The auxiliary commands (43_auxiliary.md R180, R181): NOP only waits for BUSY to fall, and a legal RDREG that is done in its
step leaves its register in RESULT. -/

namespace Sys2Proof.Machine

/-- An accepted NOP changes nothing that a program sees (R180). -/
theorem onAccept_nop_arch (s : State) : (onAccept .nop s).arch = s.arch := by simp [State.arch]

/-- A raised ERR_ILL changes no other field that a program sees (R191). -/
theorem raiseErrIll_arch (s : State) : s.raiseErrIll.arch = { s.arch with errIll := true } := by
  simp [State.arch]

/-- RDREG accepted by an idle core and completed by this step's draw (R181). -/
theorem exec_rdreg_settles {s : State} (hp : s.phase = .idle) (hd : s.settles) (hl : indexLegal s.arg = true)
    (hdom : inDomain (s.reg s.arg.toNat) = true) :
    exec .rdreg s = .next (completeRdreg s.arg.toNat (onAccept .rdreg s).tick) := by
  have hreg : (onAccept .rdreg s).tick.reg s.arg.toNat = s.reg s.arg.toNat := by simp [State.reg_def]
  have hd' : (onAccept .rdreg s).settles := (congrArg Draw.stillBusy (onAccept_draw .rdreg s)).trans hd
  have running : (onAccept .rdreg s).tick.phase = .running .rdreg s.arg := by simp
  rw [exec_rdreg hp, if_pos hl, if_pos hdom, endStep_settles hd', finish_rdreg running, if_pos hl]
  exact if_pos (hreg ▸ hdom)

end Sys2Proof.Machine

open Sys2Proof Sys2Proof.Machine

/-- Settles O20: the acceptance changes nothing that a program sees, and then the command only waits for BUSY to fall. -/
theorem nopHasNoEffect : Obligations.NopHasNoEffect := by
  intro s hp
  obtain ⟨t, ht, hphase, harch, hscript, hreads⟩ := endStep_silent (.inl rfl) (onAccept_phase .nop s)
  rw [onAccept_nop_arch] at harch
  rw [onAccept_draw] at hphase
  exact ⟨t, (exec_nop hp).trans ht, hphase, fun a => congrArg (·.sketch.read a) harch, congrArg Arch.arg harch,
    congrArg Arch.result harch, congrArg Arch.rvalid harch, congrArg Arch.edom harch, congrArg Arch.errIll harch,
    congrArg Arch.errBusy harch, hscript.trans (onAccept_script .nop s), hreads.trans (onAccept_reads .nop s)⟩

/-- Settles O25: a legal RDREG is accepted and completes; for an illegal one an idle core ends its step with ERR_ILL set. -/
theorem rdregReadsOneRegister : Obligations.RdregReadsOneRegister := by
  refine ⟨fun s hp hd hl hdom => ?_, fun s hp hl => ?_⟩
  · refine ⟨_, exec_rdreg_settles hp hd ((indexLegal_iff _).2 hl) ((inDomain_iff _).2 hdom), ?_⟩
    have fits : (s.reg s.arg.toNat).toNat % 2 ^ 64 = (s.reg s.arg.toNat).toNat := Nat.mod_eq_of_lt (by omega)
    simpa [State.reg_def] using fits
  · have illegal : indexLegal s.arg = false := Bool.eq_false_iff.2 fun h => absurd ((indexLegal_iff _).1 h) (not_lt.2 hl)
    obtain ⟨t, ht, harch, hidle, hscript, hreads⟩ := endStep_of_idle (s := s.raiseErrIll) hp
    rw [raiseErrIll_arch] at harch
    exact ⟨t, (exec_rdreg_illegal hp illegal).trans ht, hidle, congrArg Arch.errIll harch, congrArg Arch.result harch,
      congrArg Arch.rvalid harch, fun a => congrArg (·.sketch.read a) harch, congrArg Arch.arg harch,
      congrArg Arch.edom harch, congrArg Arch.errBusy harch, hscript, hreads⟩

end

section
/-! CMD writes (60_exceptions.md R190 to R192): a word is dropped undecoded while BUSY = 1; an idle core raises ERR_ILL on an
illegal one, or runs the command that the word decodes to. -/

namespace Sys2Proof

/-- The byte lanes of a table word, put together again, are what is decoded (R64). -/
theorem decodeTableWord_eq_some_iff {nbits w : Nat} {i : Instr} :
    decodeTableWord nbits w = some i ↔ decode (tableWord nbits w) = .command i := by
  rw [decodeTableWord, wordOfLanes_byteLane]
  cases decode (tableWord nbits w) with
  | command j => simp
  | illegal why => simp

end Sys2Proof

namespace Sys2Proof.Machine

theorem hostWriteCmd_busy {s : State} (hb : s.busy = true) (w : Word) : hostWriteCmd w s = endStep s.raiseErrBusy :=
  if_pos hb

theorem hostWriteCmd_command {s : State} {w : Word} {i : Instr} (hp : s.phase = .idle) (hw : decode w = .command i) :
    hostWriteCmd w s = exec i s := by
  rw [hostWriteCmd, s.busy_eq_false_iff.2 hp, if_neg Bool.false_ne_true, hw]

theorem hostWriteCmd_illegal {s : State} {w : Word} {why : Illegal} (hp : s.phase = .idle) (hw : decode w = .illegal why) :
    hostWriteCmd w s = endStep s.raiseErrIll := by
  rw [hostWriteCmd, s.busy_eq_false_iff.2 hp, if_neg Bool.false_ne_true, hw]

/-- The three kinds of illegal write (R191) all come to a raised ERR_ILL. -/
theorem hostWriteCmd_of_illegal_word {s : State} {w : Word} (hp : s.phase = .idle)
    (hw : 16 ≤ w.toNat ∨ (5 ≤ w.toNat ∧ w.toNat ≤ 15) ∨ (w = encode .rdreg ∧ 8192 ≤ s.arg.toNat)) :
    hostWriteCmd w s = endStep s.raiseErrIll := by
  obtain hrsv | hop | ⟨rfl, harg⟩ := hw
  · exact hostWriteCmd_illegal hp (decode_eq_rsv_iff.2 hrsv)
  · exact hostWriteCmd_illegal hp (decode_eq_op_iff.2 hop)
  · have illegal : indexLegal s.arg = false := Bool.eq_false_iff.2 fun h => absurd ((indexLegal_iff _).1 h) (not_lt.2 harg)
    exact (hostWriteCmd_command hp (decode_encode .rdreg)).trans (exec_rdreg_illegal hp illegal)

/-- A CMD write outside reset reaches the command stage. -/
theorem step_write_cmd {s : State} (hp : s.phase ≠ .inReset) (w : Word) (rest : List HostOp) :
    step (s.withScript (.write 0x08 4 w :: rest)) = hostWriteCmd w (s.withScript rest) :=
  step_write (r := .cmd) rfl s hp w rest

theorem ne_inReset_of_idle {s : State} (hp : s.phase = .idle) : s.phase ≠ .inReset := by simp [hp]

end Sys2Proof.Machine

open Sys2Proof Sys2Proof.Machine

/-- Settles O17: the drop sets ERR_BUSY, which the end of the step neither reads nor writes. -/
theorem cmdWriteWhileBusyIsDropped : Obligations.CmdWriteWhileBusyIsDropped := by
  intro s t w rest hb hp h
  obtain ⟨harg, hIll, -⟩ := endStep_host (step_idle s rest ▸ h)
  rw [step_write_cmd hp, hostWriteCmd_busy (s := s.withScript rest) hb]
  refine (endStep_setHost_of_idle h s.arg s.errIll (stickyNext s.errBusy false true)).trans ?_
  rw [stickyNext_set, show s.arg = t.arg from harg.symm, show s.errIll = t.errIll from hIll.symm]

/-- Settles O19: each illegal write raises ERR_ILL, and an idle core ends the step with everything else as it was. -/
theorem illegalCmdWriteOnlySetsErrIll : Obligations.IllegalCmdWriteOnlySetsErrIll := by
  intro s w rest hp hw
  rw [step_write_cmd (ne_inReset_of_idle hp), hostWriteCmd_of_illegal_word (s := s.withScript rest) hp hw]
  obtain ⟨t, ht, harch, hkept⟩ := endStep_of_idle (s := (s.withScript rest).raiseErrIll) hp
  exact ⟨t, ht, harch.trans (raiseErrIll_arch (s.withScript rest)), hkept⟩

/-- Settles O15: an idle core runs the command that the written word decodes to. -/
theorem stepRunsTheDecodedCommand : Obligations.StepRunsTheDecodedCommand := by
  intro s w i rest hp hw
  rw [step_write_cmd (ne_inReset_of_idle hp), hostWriteCmd_command (s := s.withScript rest) hp hw]

/-- Settles O16: the placed word is the CMD write of its table word to an idle core, so O15 runs it. -/
theorem fetchedWordRuns : Obligations.FetchedWordRuns := by
  intro s nbits w i hw
  exact stepRunsTheDecodedCommand { s with phase := .idle, scan := none } (tableWord nbits w) i s.script rfl
    (decodeTableWord_eq_some_iff.1 hw)

end

section
/-! The end of a run and the reset input (70_reset_and_hazards.md R220, R223, R236, R238): with no further host access each step takes
one draw, and the step after the last of them ends what is in flight and writes every pending ADD; the release of reset starts a clear
at the reset values. -/

namespace Sys2Proof.Machine

/-! ### What a settled step leaves -/

/-- Outside reset, the end of a command or of the clear leaves an idle core. -/
theorem Finished.phase_idle {s t : State} (h : Finished s t) (hp : s.phase ≠ .inReset) : t.phase = .idle := by
  cases h with
  | stays hs ht => subst ht; exact hs.resolve_left hp
  | cleared _ ht => subst ht; rfl
  | silent x _ ht => subst ht; rfl
  | hashed x _ ht => subst ht; exact completeHash_phase _ s
  | estimated x _ _ ht => subst ht; exact completeEst_phase _ s
  | readReg x _ _ _ ht => subst ht; exact completeRdreg_phase _ s

/-- Nor does it make an ADD pending. -/
theorem Finished.pending_nil {s t : State} (h : Finished s t) (hs : s.pending = []) : t.pending = [] := by
  cases h with
  | stays _ ht => subst ht; exact hs
  | cleared _ ht => subst ht; rfl
  | silent x _ ht => subst ht; exact hs
  | hashed x _ ht => subst ht; exact (completeHash_pending _ s).trans hs
  | estimated x _ _ ht => subst ht; exact (completeEst_pending _ s).trans hs
  | readReg x _ _ _ ht => subst ht; exact (completeRdreg_pending _ s).trans hs

/-- Only the reset input takes the core into reset. -/
theorem endStep_ne_inReset {s t : State} (h : endStep s = .next t) (hp : s.phase ≠ .inReset) : t.phase ≠ .inReset := by
  have hp' : s.tick.phase ≠ .inReset := by rwa [tick_phase]
  obtain ⟨-, rfl⟩ | ⟨-, hf⟩ := endStep_cases h
  · rwa [goOn_phase]
  · simp [hf.phase_idle hp']

/-- Once the draws are used up everything settles in one step (assumption 3). -/
theorem endStep_of_no_draws {s t : State} (h : endStep s = .next t) (hp : s.phase ≠ .inReset) (hd : s.draws = []) :
    t.phase = .idle ∧ t.pending = [] := by
  have hdraw : s.draw = ⟨false, 0, 0⟩ := by rw [State.draw, hd, List.headD_nil]
  have hp' : s.tick.phase ≠ .inReset := by rwa [tick_phase]
  have hpending : s.tick.pending = [] := by rw [tick_pending, hdraw, Nat.sub_zero, List.drop_length]
  obtain ⟨hb, -⟩ | ⟨-, hf⟩ := endStep_cases h
  · simp [hdraw] at hb
  · exact ⟨hf.phase_idle hp', hf.pending_nil hpending⟩

/-! ### A run with no host access to come (R236, R238) -/

theorem runFor_succ {s t : State} (hs : s.script = []) (ht : endStep s = .next t) (n : Nat) :
    runFor (n + 1) s = runFor n t := by
  rw [runFor, step_nil hs, ht]

/-- One step per draw, and one that settles: the core is idle, nothing is pending, and the registers are as later commands saw them
from the start. -/
theorem State.Inv.run_settles {s : State} (h : s.Inv) (hp : s.phase ≠ .inReset) (hs : s.script = []) :
    ∃ t, runFor (s.draws.length + 1) s = .next t ∧ t.script = [] ∧ t.phase = .idle ∧ t.pending = [] ∧
      t.sketch = s.sketch := by
  generalize hd : s.draws = ds
  induction ds generalizing s with
  | nil =>
    obtain ⟨t, ht⟩ := h.endStep_answers
    obtain ⟨-, -, -, hscript, -⟩ := endStep_host ht
    obtain ⟨hidle, hpending⟩ := endStep_of_no_draws ht hp hd
    exact ⟨t, runFor_succ hs ht 0, hscript.trans hs, hidle, hpending, h.endStep_sketch ht⟩
  | cons d ds ih =>
    obtain ⟨t, ht⟩ := h.endStep_answers
    obtain ⟨-, -, -, hscript, -, hdraws⟩ := endStep_host ht
    obtain ⟨u, hrun, hscript', hidle, hpending, hsketch⟩ := ih (h.of_endStep ht) (endStep_ne_inReset ht hp)
      (hscript.trans hs) (by rw [hdraws, hd, List.tail_cons])
    exact ⟨u, (runFor_succ hs ht _).trans hrun, hscript', hidle, hpending, hsketch.trans (h.endStep_sketch ht)⟩

theorem sketch_of_pending_nil {s : State} (h : s.pending = []) : s.sketch = s.cells := by
  rw [State.sketch, h, Memory.raiseAll_nil]

theorem runEnded_iff (s : State) : s.runEnded = true ↔ s.script = [] ∧ s.phase = .idle ∧ s.pending = [] := by
  simp [State.runEnded, State.busy_eq_false_iff, and_assoc]

/-! ### The reset input (R220, R221, R223) -/

theorem step_assertReset (s : State) (rest : List HostOp) :
    step (s.withScript (.assertReset :: rest)) = .next (s.withScript rest).hardReset := rfl

/-- Reset leaves 0 in everything a program sees, whatever was in flight (R53). -/
theorem hardReset_arch (s : State) : s.hardReset.arch = ⟨[], 0#32, 0#64, false, false, false, false⟩ := rfl

/-- The release starts the clear, whose first step ends with the release's. -/
theorem step_releaseReset {s : State} {rest : List HostOp} (hs : s.script = .releaseReset :: rest) (hp : s.phase = .inReset) :
    step s = endStep { s with phase := .clearing, script := rest } := by
  have hrelease : (s.withScript rest).release = { s with phase := .clearing, script := rest } := if_pos hp
  rw [← hrelease, step, hs]
  rfl

/-- The step that releases reset changes nothing a program sees, and leaves the core clearing until a draw ends the clear. -/
theorem State.Inv.step_releaseReset {s u : State} {rest : List HostOp} (h : s.Inv) (hp : s.phase = .inReset)
    (hs : s.script = .releaseReset :: rest) (hu : step s = .next u) :
    u.arch = s.arch ∧ u.phase = if s.draw.stillBusy then .clearing else .idle := by
  have hclear := h.of_release hp rest
  rw [Machine.step_releaseReset hs hp] at hu
  obtain ⟨u', hu', hphase, -⟩ := hclear.endStep_clearing rfl
  cases hu'.symm.trans hu
  exact ⟨hclear.endStep_clearing_arch rfl hu, hphase⟩

end Sys2Proof.Machine

open Sys2Proof Sys2Proof.Machine

/-- Settles O53, by induction on the draws that are left: each step takes one, and the step after the last settles everything. -/
theorem busyFallsAndPendingDrains : Obligations.BusyFallsAndPendingDrains := by
  intro s h hp hs
  obtain ⟨t, hrun, hscript, hidle, hpending, hsketch⟩ := h.run_settles hp hs
  exact ⟨t, hrun, (runEnded_iff t).2 ⟨hscript, hidle, hpending⟩, hidle, (sketch_of_pending_nil hpending).symm.trans hsketch⟩

/-- Settles O54: the assertion puts every reset value in place, and the release starts a clear, which keeps them. -/
theorem resetAbandonsTheCommandInFlight : Obligations.ResetAbandonsTheCommandInFlight := by
  intro s rest
  refine ⟨_, step_assertReset s rest, hardReset_arch _, hardReset_pending _, hardReset_scan _, hardReset_phase _, ?_⟩
  intro u rest' hs hu
  obtain ⟨harch, hphase⟩ := (hardReset_inv (s.withScript rest)).step_releaseReset (hardReset_phase _) hs hu
  exact ⟨harch.trans (hardReset_arch _), hphase⟩

end
